-- ==== Sys2Proof/Word.lean ====
section
/-! DEFINITION. The word of the command interface and the identifiers and addresses used throughout. -/

namespace Sys2Proof

/-- A command word or a response word: 16 bits, bit 0 the least significant (R10, R70, R88). -/
abbrev Word := BitVec 16

/-- An engine identifier, 0 .. N_ENGINES−1 (R7). It indexes the list of engines. -/
abbrev EngineId := Nat

/-- A legal bus address, 0..39 (R50, R52); also the contents of a selector register (R26, R27). -/
abbrev LineAddr := Fin 40

/-- A legal value of the tempo, volume and pitch controls, 0..49 (R31). -/
abbrev Level := Fin 50

end Sys2Proof
end

