-- ==== Sys2Proof/Config.lean ====
section
/-! DEFINITION. The OPEN parameters that are constants of one modelled system (00_scope.md R8, R9). The third
OPEN parameter, N_ENGINES (R7), is the length of the state's list of engines (log 1). -/

namespace Sys2Proof

/-- START_TICKS (R8, decision D9): whether TIMER ticks in the transport position START as in RUN.
OPEN in the spec, so it has no body: a claim holds for both values (log 4). -/
opaque Config.startTicks : Bool

/-- BASE_PERIOD (R9, decision D37): the constant of the informative timer period. OPEN, no body. DESIGN CHOICE
(log 5): the spec gives it no type ("a small base constant"); here it is a natural number. -/
opaque Config.basePeriod : Nat

/-- The largest N_ENGINES a system may have (R7); it leaves 0xFF free for NONE in GET_CTL 15 (D2). -/
def Config.maxEngines : Nat := 255

end Sys2Proof
end

