-- ==== Sys2Proof/Machine/State.lean ====
section
/-! DEFINITION. The state of a system of engines and of its command interface (10_state.md), the reasons a step can
stop, and the state at power-on. -/

namespace Sys2Proof.Machine

/-- The transport switch (R29). Its codes are OFF = 0, RUN = 1, START = 2; 3 does not exist as a value. -/
inductive RunMode where
  | off | run | start
  deriving DecidableEq, Repr

/-- The sequencing switch (R30). Its codes are AUTO = 0, HOLD = 1, STEP = 2; 3 does not exist as a value. -/
inductive AutoMode where
  | auto | hold | step
  deriving DecidableEq, Repr

/-- One engine: every field of 10_state.md R21 to R34. The legal ranges of R40 that concern one field are that
field's type (log 14). -/
structure Engine where
  /-- C, 5 bits (R21). Bit 0 is the clock phase bit (R16). -/
  clockCounter : BitVec 5
  /-- D, 4 bits, wrapping modulo 16 (R22). -/
  divideBy6Counter : BitVec 4
  /-- S, 31 bits; new bits enter at bit 0 (R24). -/
  shiftRegister : BitVec 31
  /-- The bus line feeding each bit of the note address (R26). -/
  interval : Vector LineAddr 4
  /-- The bus line feeding each feedback tap (R27). -/
  theme : Vector LineAddr 4
  /-- 1: the tonic sounds; 0: the tonic is a rest (R28, R17). -/
  restEnabled : Bool
  /-- R29. -/
  runMode : RunMode
  /-- R30. -/
  autoMode : AutoMode
  /-- R31. -/
  tempo : Level
  /-- R31. -/
  volume : Level
  /-- R31. -/
  pitchControl : Level
  /-- 0 independent, 1 unison, N > 1 divided by N (R32). -/
  slaveMode : BitVec 8
  /-- DIV, saturating at 255 (R33). -/
  slaveClockDivider : BitVec 8
  /-- The engine this one is attached to, or NONE (R34). -/
  master : Option EngineId
  /-- This engine's subordinates in registration order (R34). -/
  subs : List EngineId
  deriving DecidableEq, Repr

/-- The five error kinds, each with the info of R202 (R200). Raised by `raiseError`; an error is a next state with
an error response, never a stop (R201). The info of InvalidControlValue is the refused value zero-extended to
8 bits, or the autoMode code for STEP_RELEASE (R202). -/
inductive CommandError where
  | outOfRangeLine (line : BitVec 6)
  | invalidSwitchName (position : Nat) (code : BitVec 6)
  | invalidControlValue (v : BitVec 8)
  | illegalCommand (w : Word)
  | syncTopologyError (m : BitVec 8)
  deriving DecidableEq, Repr

/-- One entry of the record of errors (R204): which engine's command raised it, and what. -/
structure ErrorRecord where
  target : EngineId
  error : CommandError
  deriving DecidableEq, Repr

/-- A command as the host delivers it: the engine it is addressed to, and its words, word 0 first (R70). -/
structure Command where
  target : EngineId
  words : List Word
  deriving DecidableEq, Repr

/-- The whole machine: the engines (R20), and the command interface in the model's form (logs 6, 8, 9, 10). -/
structure State where
  /-- Engine e is entry e; N_ENGINES is the length (R7, R20, log 1). -/
  engines : List Engine
  /-- The engine the command in execution is addressed to (R70, log 8). -/
  target : EngineId
  /-- Commands delivered by the host and not yet begun, oldest first (R59, R70, log 6). -/
  inbox : List Command
  /-- The response words produced so far, oldest first (R88, log 9). -/
  responses : List Word
  /-- Every error raised so far, oldest first, never cleared (R204, log 10). -/
  errors : List ErrorRecord
  deriving DecidableEq, Repr

/-- The reasons the machine stops. No command of the spec stops a system whose state meets the topology invariant
of R35 and whose target names an engine. -/
inductive Fault where
  /-- Raised by `onTarget`, for every meaning: the command is addressed to an identifier that names no engine.
  The host cannot issue such a command (R70). Safe (log 11). -/
  | noSuchEngine
  /-- Raised by a tick, SlaveStep, PLUG or UNPLUG whose links lead to no engine or do not end within N_ENGINES
  links: the state breaks the topology invariant of R35, which no run does. Safe (log 12). -/
  | brokenTopology
  deriving DecidableEq, Repr

/-- The reasons an instruction has no meaning. -/
inductive Refusal where
  /-- Raised by exec's arm of an instruction that has no meaning yet (none in this model). Safe. -/
  | notModelled (mnemonic : String)
  deriving DecidableEq, Repr

/-- What power-on leaves unspecified in one engine: a draw from the legal range (R39, decision D7, I1, I2). -/
structure PowerOnDraw where
  clockCounter : BitVec 5
  divideBy6Counter : BitVec 4
  shiftRegister : BitVec 31
  tempo : Level
  volume : Level
  pitchControl : Level
  deriving DecidableEq, Repr

/-- One engine at its creation (R39, R231). -/
def Engine.powerOn (d : PowerOnDraw) : Engine where
  clockCounter := d.clockCounter
  divideBy6Counter := d.divideBy6Counter
  shiftRegister := d.shiftRegister
  interval := #v[0, 0, 0, 0]
  theme := #v[0, 0, 0, 0]
  restEnabled := true
  runMode := .off
  autoMode := .auto
  tempo := d.tempo
  volume := d.volume
  pitchControl := d.pitchControl
  slaveMode := 0#8
  slaveClockDivider := 0#8
  master := none
  subs := []

/-- A system at power-on, for any number of engines and any draws: nothing attached, no command delivered, nothing
responded (R39, R209). N_ENGINES is the number of draws. -/
def State.powerOn (draws : List PowerOnDraw) : State where
  engines := draws.map Engine.powerOn
  target := 0
  inbox := []
  responses := []
  errors := []

/-- The draw that State.reset names: zeros (DESIGN CHOICE, logs 2 and 3; unsafe to rely on). -/
def PowerOnDraw.zero : PowerOnDraw := ⟨0#5, 0#4, 0#31, 0, 0, 0⟩

/-- The machine right after power-on, with the number of engines and the draws this model names (DESIGN CHOICE,
logs 1, 2, 3). A claim about power-on is made of `State.powerOn`, for all draws. -/
def State.reset : State := State.powerOn [.zero, .zero, .zero]

end Sys2Proof.Machine
end

