-- ==== Sys2Proof/Machine/Ops.lean ====
section
/-! DEFINITION. The shared operations: access to the engines of a system, the read of a bus line, the response of a
command, and raising an error. -/

namespace Sys2Proof.Machine

/-- What a meaning answers. -/
abbrev Result := Host.Outcome State Fault Refusal

/-! Engines and the topology links (R11, R34). -/

/-- `e.master`; none also where e names no engine. -/
def masterOf (es : List Engine) (e : EngineId) : Option EngineId := es[e]?.bind Engine.master

/-- `e.subs`; empty where e names no engine. -/
def subsOf (es : List Engine) (e : EngineId) : List EngineId := (es[e]?.map Engine.subs).getD []

/-- The engine a command is addressed to, as every meaning reads it (R11, R70). A target that names no engine
stops the machine (log 11). -/
def onTarget (s : State) (k : Engine → Result) : Result :=
  match s.engines[s.target]? with
  | some g => k g
  | none => .fault .noSuchEngine

/-- Replaces the addressed engine's registers; every other engine keeps its own (R20). -/
def State.putEngine (s : State) (g : Engine) : State :=
  { s with engines := s.engines.set s.target g }

/-- Replaces the registers of all engines, as a cascade leaves them. -/
def State.putEngines (s : State) (es : List Engine) : State := { s with engines := es }

/-! The signal bus (20_memory.md). -/

/-- `Line(e, i)` for a legal address: the static address decoding of R51 and R52, a pure function of C, D and S. -/
def Engine.line (g : Engine) (i : LineAddr) : Bool :=
  if i.val = 0 then false
  else if i.val = 1 then true
  else if i.val ≤ 6 then g.clockCounter.getLsbD (i.val - 2)
  else if i.val = 7 then g.divideBy6Counter.getLsbD 2
  else if i.val = 8 then g.divideBy6Counter.getLsbD 3
  else g.shiftRegister.getLsbD (i.val - 9)

/-! Responses (30_encoding.md R88). -/

/-- A success response: bits 15 to 8 zero, bits 7 to 0 the data (R88). -/
def successWord (data : BitVec 8) : Word := 0#8 ++ data

/-- An error response: bit 15 one, bits 14 to 4 zero, bits 3 to 0 the code (R88). -/
def errorWord (code : BitVec 4) : Word := 1#1 ++ 0#11 ++ code

/-- The error codes of R202. -/
def CommandError.code (k : CommandError) : BitVec 4 :=
  match k with
  | .outOfRangeLine _ => 1#4
  | .invalidSwitchName _ _ => 2#4
  | .invalidControlValue _ => 3#4
  | .illegalCommand _ => 4#4
  | .syncTopologyError _ => 5#4

/-- `respond(v)`: the command completes with response data v (R12, R88). -/
def State.respond (s : State) (data : BitVec 8) : State :=
  { s with responses := s.responses ++ [successWord data] }

/-- `raise K(info)`, the block's one way of reporting an error: every engine as before the command, the error
response, the error recorded, the block ready for the next command (R12, R201, R202, R204). There is no handler,
no saved state and so no return from it (R204, R205). -/
def State.raiseError (s : State) (k : CommandError) : State :=
  { s with
    responses := s.responses ++ [errorWord k.code]
    errors := s.errors ++ [⟨s.target, k⟩] }

/-- A command of the addressed engine that raises an error. -/
def raise (k : CommandError) (s : State) : Result := onTarget s fun _ => .next (s.raiseError k)

/-- A command that changes the addressed engine's registers and responds 0 (R88). -/
def update (f : Engine → Engine) (s : State) : Result :=
  onTarget s fun g => .next ((s.putEngine (f g)).respond 0#8)

/-- A command that reads the addressed engine, changes nothing and responds what it read. -/
def observe (f : Engine → BitVec 8) (s : State) : Result := onTarget s fun g => .next (s.respond (f g))

end Sys2Proof.Machine
end

