-- ==== Sys2Proof/Machine/Flags.lean ====
section
/-! DEFINITION. The block has no flags or condition codes, and no command writes one (R37, 40_signal_bus.md). What
its commands test instead stands here: the clock phase bit, the falling edge, and the gate of the run-mode timer. -/

namespace Sys2Proof.Machine

/-- The clock phase bit `C[0]`, the bus line "C 1/2" (R16). -/
def Engine.phase (g : Engine) : Bool := g.clockCounter.getLsbD 0

/-- Whether arriving at this counter value is a falling edge: the new C is even (R15, R110). -/
def isFallingEdge (newC : BitVec 5) : Bool := !newC.getLsbD 0

/-- `transportOn` of R119, with START_TICKS (R8) as an argument. -/
def Engine.transportOn (startTicks : Bool) (g : Engine) : Bool :=
  g.runMode == .run || (g.runMode == .start && startTicks)

/-- The gate of TIMER (R119): the transport on, and AUTO, or HOLD with the clock low (conflict C7). -/
def Engine.timerGate (startTicks : Bool) (g : Engine) : Bool :=
  g.transportOn startTicks && (g.autoMode == .auto || (g.autoMode == .hold && !g.phase))

end Sys2Proof.Machine
end

