-- ==== Sys2Proof/Machine/NoteDecoder.lean ====
section
/-! DEFINITION. The note-address selector and the pitch decoder (42_note_decoder.md). -/

namespace Sys2Proof.Machine

/-- A decoded note: a pitch 0..24, or REST (R16, R143). -/
inductive Pitch where
  | rest
  | note (p : Nat)
  deriving DecidableEq, Repr

/-- `DecodeAddress(e)`: the bits dcba of the four interval lines, a in bit 0 and d in bit 3 (R140). -/
def Engine.decodeAddress (g : Engine) : BitVec 4 :=
  BitVec.ofBool (g.line g.interval[3]) ++ BitVec.ofBool (g.line g.interval[2]) ++
    BitVec.ofBool (g.line g.interval[1]) ++ BitVec.ofBool (g.line g.interval[0])

/-- MAJOR_SCALE, the diatonic major scale in semitones (R142). -/
def majorScale (scaleIndex : BitVec 3) : Nat :=
  match scaleIndex.toNat with
  | 0 => 0
  | 1 => 2
  | 2 => 4
  | 3 => 5
  | 4 => 7
  | 5 => 9
  | 6 => 11
  | _ => 12

/-- The pitch of a note address: the scale note of its low three bits, an octave up when bit 3 is set; pitch 0 is a
rest while restEnabled is 0 (R143). -/
def pitchOf (restEnabled : Bool) (dcba : BitVec 4) : Pitch :=
  let pitch := majorScale (dcba.extractLsb' 0 3) + 12 * (dcba.toNat / 8)
  if pitch = 0 ∧ restEnabled = false then .rest else .note pitch

/-- `DecodePitch(e)` (R143). -/
def Engine.decodePitch (g : Engine) : Pitch := pitchOf g.restEnabled g.decodeAddress

/-- A note as response data: 0x80 for REST (R88). -/
def Pitch.byte (p : Pitch) : BitVec 8 :=
  match p with
  | .rest => 0x80#8
  | .note n => BitVec.ofNat 8 n

/-- DECODE_ADDR (R141). -/
def execDecodeAddr (s : State) : Result := observe (fun g => g.decodeAddress.zeroExtend 8) s

/-- DECODE_PITCH (R144). -/
def execDecodePitch (s : State) : Result := observe (fun g => g.decodePitch.byte) s

end Sys2Proof.Machine
end

