-- ==== Sys2Proof/Machine/Chain.lean ====
section
/-! DEFINITION. The procedures behind the commands: Div6Next, ShiftIn, Tick, Reset (41_clock_engine.md), Broadcast
and SlaveStep (44_sync.md). -/

namespace Sys2Proof.Machine

/-- `Div6Next(d)`: one step of the 4-bit counter, and one more from a value that is 2 modulo 4 (R111). -/
def div6Next (d : BitVec 4) : BitVec 4 :=
  let d1 := d + 1#4
  if d1.extractLsb' 0 2 = 2#2 then d1 + 1#4 else d1

/-- `ShiftIn(s, fb)`: fb enters at bit 0, bit 30 is discarded (R112, conflict C6). -/
def shiftIn (s : BitVec 31) (fb : Bool) : BitVec 31 := (s <<< 1) ||| (BitVec.ofBool fb).zeroExtend 31

/-- The feedback bit of the bus as it stands: the XNOR of the four theme lines (R110 step 1, R112). -/
def Engine.feedback (g : Engine) : Bool :=
  true ^^ g.line g.theme[0] ^^ g.line g.theme[1] ^^ g.line g.theme[2] ^^ g.line g.theme[3]

/-- Steps 1 to 3 of `Tick(e)` and its DIV write (R110): the feedback is read before the counter steps; D and S step
on a falling edge only; DIV is cleared on every tick (D4). -/
def Engine.advance (g : Engine) : Engine :=
  { g with
    clockCounter := g.clockCounter + 1#5
    divideBy6Counter :=
      if isFallingEdge (g.clockCounter + 1#5) then div6Next g.divideBy6Counter else g.divideBy6Counter
    shiftRegister :=
      if isFallingEdge (g.clockCounter + 1#5) then shiftIn g.shiftRegister g.feedback else g.shiftRegister
    slaveClockDivider := 0#8 }

/-- `Reset(e)`: C = 1, D = 0, S = 0 and nothing else (R113, D8). -/
def Engine.resetChain (g : Engine) : Engine :=
  { g with clockCounter := 1#5, divideBy6Counter := 0#4, shiftRegister := 0#31 }

/-- `min(DIV + 1, 255)` (R33, R181). -/
def saturatingSucc (div : BitVec 8) : BitVec 8 := if div = 255#8 then 255#8 else div + 1#8

/-- A subordinate in a divided mode counts the received bit (R181). -/
def Engine.countBit (g : Engine) : Engine :=
  { g with slaveClockDivider := saturatingSucc g.slaveClockDivider }

/-- What an engine does with a received clock bit before any tick (R181): its DIV write, and whether it ticks. -/
def Engine.hear (g : Engine) (b : Bool) : Engine × Bool :=
  if g.autoMode ≠ .auto then (g, false)
  else if g.slaveMode = 0#8 then (g, false)
  else if g.slaveMode = 1#8 then (g, b != g.phase)
  else if g.slaveMode.getLsbD 0 = false then
    (g.countBit, !b && decide (g.slaveMode.toNat ≤ g.countBit.slaveClockDivider.toNat))
  else
    (g.countBit, decide (g.slaveMode.toNat ≤ g.countBit.slaveClockDivider.toNat))

/-- The engines after a nested procedure, or none where the links break R35 (log 12). -/
abbrev Cascade := Option (List Engine)

/-- `SlaveStep(s, b)` (R181), with the procedure that ticks an engine as an argument. -/
def slaveStepWith (tickEngine : EngineId → List Engine → Cascade) (b : Bool) (e : EngineId)
    (es : List Engine) : Cascade :=
  match es[e]? with
  | none => none
  | some g =>
    if (g.hear b).2 then tickEngine e (es.set e (g.hear b).1) else some (es.set e (g.hear b).1)

/-- The loop of `Broadcast(e)`: SlaveStep of each subordinate in registration order, each to completion (R180). -/
def broadcastWith (tickEngine : EngineId → List Engine → Cascade) (b : Bool) (subs : List EngineId)
    (es : List Engine) : Cascade :=
  match subs with
  | [] => some es
  | sub :: rest =>
    match slaveStepWith tickEngine b sub es with
    | none => none
    | some es' => broadcastWith tickEngine b rest es'

/-- `Tick(e)` with its broadcast, cascades included (R110, R180). `fuel` bounds the length of the chain of
subordinates followed; a forest of N engines has none longer than N (R35, R247). -/
def tickWith (fuel : Nat) (e : EngineId) (es : List Engine) : Cascade :=
  match fuel with
  | 0 => none
  | fuel' + 1 =>
    match es[e]? with
    | none => none
    | some g =>
      broadcastWith (tickWith fuel') g.advance.phase g.subs (es.set e g.advance)

/-- `Tick(e)` (R110). -/
def tick (e : EngineId) (es : List Engine) : Cascade := tickWith es.length e es

/-- `SlaveStep(e, b)` (R181). -/
def slaveStep (b : Bool) (e : EngineId) (es : List Engine) : Cascade := slaveStepWith (tickWith es.length) b e es

/-- A command whose engines are left as a cascade leaves them, with response data. -/
def finish (s : State) (data : BitVec 8) (c : Cascade) : Result :=
  match c with
  | none => .fault .brokenTopology
  | some es => .next ((s.putEngines es).respond data)

/-- Twice the period between TIMER commands, in the host's time unit: BASE_PERIOD + tempo². Informative: no
command reads it (R243). A whole number because BASE_PERIOD is taken to be one (DESIGN CHOICE, log 5). -/
def Engine.doubledTimerPeriod (g : Engine) : Nat := Config.basePeriod + g.tempo.val * g.tempo.val

end Sys2Proof.Machine
end

