-- ==== Sys2Proof/Machine/Operands.lean ====
section
/-! DEFINITION. The operand forms: which values of each field are legal, and the numbers that GET_CTL and the error
info show for the enumerated fields. The decoder checks none of this (R73). -/

namespace Sys2Proof.Machine

/-- A 6-bit bus address or switch code: legal when 0..39 (R50, R53, R150). -/
def lineOperand (line : BitVec 6) : Option LineAddr :=
  if h : line.toNat < 40 then some ⟨line.toNat, h⟩ else none

/-- An 8-bit control value: legal when 0..49 (R31, R163 to R165). -/
def levelOperand (v : BitVec 8) : Option Level :=
  if h : v.toNat < 50 then some ⟨v.toNat, h⟩ else none

/-- The operand of SET_RUN: 0 OFF, 1 RUN, 2 START (R160). -/
def runOperand (v : BitVec 8) : Option RunMode :=
  if v = 0#8 then some .off else if v = 1#8 then some .run else if v = 2#8 then some .start else none

/-- The operand of SET_SEQ: 0 AUTO, 1 HOLD; STEP is reached only by STEP_PRESS (R161). -/
def seqOperand (v : BitVec 8) : Option AutoMode :=
  if v = 0#8 then some .auto else if v = 1#8 then some .hold else none

/-- The selector slot `idx`, 0..3 (R73). -/
def slotOperand (idx : BitVec 2) : Fin 4 := idx.toFin

/-- The code of a transport position (R29). -/
def RunMode.code (m : RunMode) : BitVec 8 :=
  match m with
  | .off => 0#8
  | .run => 1#8
  | .start => 2#8

/-- The code of a sequencing position (R30). -/
def AutoMode.code (m : AutoMode) : BitVec 8 :=
  match m with
  | .auto => 0#8
  | .hold => 1#8
  | .step => 2#8

/-- One bit as response data. -/
def bitByte (b : Bool) : BitVec 8 := if b then 1#8 else 0#8

/-- A selector as response data. -/
def lineByte (l : LineAddr) : BitVec 8 := BitVec.ofNat 8 l.val

/-- A control as response data. -/
def levelByte (v : Level) : BitVec 8 := BitVec.ofNat 8 v.val

/-- `master` as response data: 0xFF for NONE (R167). Identifiers are below 255 (R7), so they fit. -/
def masterByte (m : Option EngineId) : BitVec 8 :=
  match m with
  | none => 0xFF#8
  | some e => BitVec.ofNat 8 e

/-- A switch code of a preset at position k: the selector it names, or InvalidSwitchName's info (R151, R202). -/
def codeOperand (k : Nat) (code : BitVec 6) : Except (Nat × BitVec 6) LineAddr :=
  match lineOperand code with
  | some l => .ok l
  | none => .error (k, code)

end Sys2Proof.Machine
end

