-- ==== Sys2Proof/Machine/ClockEngine.lean ====
section
/-! DEFINITION. The clock engine commands (41_clock_engine.md). -/

namespace Sys2Proof.Machine

/-- TICK (R114): one tick; responds the pitch of the post-tick bus, decoded before the broadcast (R110, D38). No
gate applies (D11). -/
def execTick (s : State) : Result :=
  onTarget s fun g => finish s g.advance.decodePitch.byte (tick s.target s.engines)

/-- RESET (R116). -/
def execReset (s : State) : Result := update Engine.resetChain s

/-- TIMER with START_TICKS as an argument (R119): a tick if the gate passes, the pitch discarded. -/
def timerWith (startTicks : Bool) (s : State) : Result :=
  onTarget s fun g =>
    if g.timerGate startTicks then finish s 0#8 (tick s.target s.engines)
    else .next (s.respond 0#8)

/-- TIMER (R119). -/
def execTimer (s : State) : Result := timerWith Config.startTicks s

/-- STEP_PRESS (R125): autoMode becomes STEP and the engine ticks once, whatever runMode is. -/
def execStepPress (s : State) : Result :=
  onTarget s fun g =>
    finish s 0#8 (tick s.target (s.engines.set s.target { g with autoMode := .step }))

/-- STEP_RELEASE (R126): refused unless autoMode is STEP; autoMode becomes HOLD, and the engine ticks once more if
the clock is low. -/
def execStepRelease (s : State) : Result :=
  onTarget s fun g =>
    if g.autoMode ≠ .step then .next (s.raiseError (.invalidControlValue g.autoMode.code))
    else if g.phase then .next ((s.putEngine { g with autoMode := .hold }).respond 0#8)
    else finish s 0#8 (tick s.target (s.engines.set s.target { g with autoMode := .hold }))

end Sys2Proof.Machine
end

