-- ==== Sys2Proof/Machine/PatchConfig.lean ====
section
/-! DEFINITION. The preset loader, the direct setters and the read-back (43_patch_config.md). -/

namespace Sys2Proof.Machine

/-- The preset's writes once all its codes are legal: selectors, restEnabled, then the reset (R151). -/
def Engine.loadPreset (g : Engine) (rest : Bool) (interval theme : Vector LineAddr 4) : Engine :=
  Engine.resetChain { g with interval := interval, theme := theme, restEnabled := rest }

/-- The operands of APPLY_PRESET, their codes checked in the order interval[0..3], theme[0..3]: the selectors they
name, or the first position whose code is 40..63, with the code (R151, R152). -/
def presetOperands (i0 i1 i2 i3 t0 t1 t2 t3 : BitVec 6) :
    Except (Nat × BitVec 6) (Vector LineAddr 4 × Vector LineAddr 4) := do
  let a0 ← codeOperand 0 i0
  let a1 ← codeOperand 1 i1
  let a2 ← codeOperand 2 i2
  let a3 ← codeOperand 3 i3
  let b0 ← codeOperand 4 t0
  let b1 ← codeOperand 5 t1
  let b2 ← codeOperand 6 t2
  let b3 ← codeOperand 7 t3
  return (#v[a0, a1, a2, a3], #v[b0, b1, b2, b3])

/-- APPLY_PRESET (R151, R152, R153): on an invalid code nothing changes; otherwise the selectors and restEnabled are
written and the engine is reset. -/
def execApplyPreset (rest : Bool) (i0 i1 i2 i3 t0 t1 t2 t3 : BitVec 6) (s : State) : Result :=
  match presetOperands i0 i1 i2 i3 t0 t1 t2 t3 with
  | .error (k, code) => raise (.invalidSwitchName k code) s
  | .ok (interval, theme) => update (fun g => g.loadPreset rest interval theme) s

/-- SET_INTERVAL (R158). -/
def execSetInterval (idx : BitVec 2) (line : BitVec 6) (s : State) : Result :=
  match lineOperand line with
  | none => raise (.invalidControlValue (line.zeroExtend 8)) s
  | some l =>
    update (fun g => { g with interval := g.interval.set (slotOperand idx).val l (slotOperand idx).isLt }) s

/-- SET_THEME (R159). -/
def execSetTheme (idx : BitVec 2) (line : BitVec 6) (s : State) : Result :=
  match lineOperand line with
  | none => raise (.invalidControlValue (line.zeroExtend 8)) s
  | some l =>
    update (fun g => { g with theme := g.theme.set (slotOperand idx).val l (slotOperand idx).isLt }) s

/-- SET_REST (R162): no reset. -/
def execSetRest (b : Bool) (s : State) : Result := update (fun g => { g with restEnabled := b }) s

/-- The write of the transport switch: entering OFF from another position resets the engine (R160, D36). -/
def Engine.setRun (g : Engine) (m : RunMode) : Engine :=
  if m = .off ∧ g.runMode ≠ .off then Engine.resetChain { g with runMode := m } else { g with runMode := m }

/-- SET_RUN (R160). -/
def execSetRun (v : BitVec 8) (s : State) : Result :=
  match runOperand v with
  | none => raise (.invalidControlValue v) s
  | some m => update (fun g => g.setRun m) s

/-- SET_SEQ (R161): no tick. -/
def execSetSeq (v : BitVec 8) (s : State) : Result :=
  match seqOperand v with
  | none => raise (.invalidControlValue v) s
  | some m => update (fun g => { g with autoMode := m }) s

/-- SET_TEMPO (R163). -/
def execSetTempo (v : BitVec 8) (s : State) : Result :=
  match levelOperand v with
  | none => raise (.invalidControlValue v) s
  | some t => update (fun g => { g with tempo := t }) s

/-- SET_VOLUME (R164). -/
def execSetVolume (v : BitVec 8) (s : State) : Result :=
  match levelOperand v with
  | none => raise (.invalidControlValue v) s
  | some t => update (fun g => { g with volume := t }) s

/-- SET_PITCHCTL (R165). -/
def execSetPitchCtl (v : BitVec 8) (s : State) : Result :=
  match levelOperand v with
  | none => raise (.invalidControlValue v) s
  | some t => update (fun g => { g with pitchControl := t }) s

/-- The value each GET_CTL selector shows (R167). All sixteen are defined. -/
def Engine.control (g : Engine) (sel : BitVec 4) : BitVec 8 :=
  match sel.toNat with
  | 0 => lineByte g.interval[0]
  | 1 => lineByte g.interval[1]
  | 2 => lineByte g.interval[2]
  | 3 => lineByte g.interval[3]
  | 4 => lineByte g.theme[0]
  | 5 => lineByte g.theme[1]
  | 6 => lineByte g.theme[2]
  | 7 => lineByte g.theme[3]
  | 8 => bitByte g.restEnabled
  | 9 => g.runMode.code
  | 10 => g.autoMode.code
  | 11 => levelByte g.tempo
  | 12 => levelByte g.volume
  | 13 => levelByte g.pitchControl
  | 14 => g.slaveMode
  | _ => masterByte g.master

/-- GET_CTL (R167). -/
def execGetCtl (sel : BitVec 4) (s : State) : Result := observe (fun g => g.control sel) s

end Sys2Proof.Machine
end

