-- ==== Sys2Proof/Syntax.lean ====
section
/-! DEFINITION. The commands, one constructor per row of spec/opcode_table.json (30_encoding.md R74, R75). -/

namespace Sys2Proof

/-- A command with its operands, each as wide as its field (R73). Whether an operand is legal is for the
command's rule to check, not for the decoder (R73). The last ten constructors are the reserved rows: `low` is
bits 10..0 of the word (log 13). -/
inductive Instr where
  | tick
  | reset
  | timer
  | stepPress
  | stepRelease
  | readLine (line : BitVec 6)
  | decodeAddr
  | decodePitch
  | setInterval (idx : BitVec 2) (line : BitVec 6)
  | setTheme (idx : BitVec 2) (line : BitVec 6)
  | setRest (b : Bool)
  | setRun (v : BitVec 8)
  | setSeq (v : BitVec 8)
  | setTempo (v : BitVec 8)
  | setVolume (v : BitVec 8)
  | setPitchCtl (v : BitVec 8)
  | setSlaveMode (v : BitVec 8)
  | slaveStep (b : Bool)
  | plug (v : BitVec 8)
  | unplug
  | applyPreset (rest : Bool) (i0 i1 i2 i3 t0 t1 t2 t3 : BitVec 6)
  | getCtl (sel : BitVec 4)
  | reservedOp00 (low : BitVec 11)
  | reservedOp17 (low : BitVec 11)
  | reservedOp18 (low : BitVec 11)
  | reservedOp19 (low : BitVec 11)
  | reservedOp1A (low : BitVec 11)
  | reservedOp1B (low : BitVec 11)
  | reservedOp1C (low : BitVec 11)
  | reservedOp1D (low : BitVec 11)
  | reservedOp1E (low : BitVec 11)
  | reservedOp1F (low : BitVec 11)
  deriving DecidableEq, Repr

end Sys2Proof
end

