-- ==== Sys2Proof/Decode.lean ====
section
/-! DEFINITION. Decoding a list of command words, total on any list (30_encoding.md R70 to R76), and the encoder
written from the same tables. -/

namespace Sys2Proof

/-- The word formats of R71, one operand layout each. -/
inductive Format where
  | n | b | l | s | v | g | p | reserved
  deriving DecidableEq, Repr

/-- `op = w0[15:11]` (R70). -/
def opcodeOf (w : Word) : BitVec 5 := w.extractLsb' 11 5

/-- The format of each opcode (the opcode map, R74). -/
def formatOf (op : BitVec 5) : Format :=
  match op.toNat with
  | 0x01 => .n
  | 0x02 => .n
  | 0x03 => .n
  | 0x04 => .n
  | 0x05 => .n
  | 0x06 => .l
  | 0x07 => .n
  | 0x08 => .n
  | 0x09 => .s
  | 0x0A => .s
  | 0x0B => .b
  | 0x0C => .v
  | 0x0D => .v
  | 0x0E => .v
  | 0x0F => .v
  | 0x10 => .v
  | 0x11 => .v
  | 0x12 => .b
  | 0x13 => .v
  | 0x14 => .n
  | 0x15 => .p
  | 0x16 => .g
  | _ => .reserved

/-- The operand bits of word 0 in each format (R71): every other bit below the opcode must be zero. A reserved
row's mask is 0xF800, so none of its low bits is fixed (R74). -/
def Format.operandBits (f : Format) : Word :=
  match f with
  | .n => 0x0000#16
  | .b => 0x0001#16
  | .l => 0x003F#16
  | .s => 0x063F#16
  | .v => 0x00FF#16
  | .g => 0x000F#16
  | .p => 0x0001#16
  | .reserved => 0x07FF#16

/-- A row's `match` value: the opcode above zeros (R74). -/
def matchOf (op : BitVec 5) : Word := op ++ 0#11

/-- The length in words, found from the opcode alone: APPLY_PRESET has five, every other command one (R70). -/
def commandLength (op : BitVec 5) : Nat := if op = 0x15#5 then 5 else 1

/-- The reserved-zero bits of an extension word (R72, R75 item 5). -/
def extensionReserved : Word := 0xC0C0#16

/-- What a list of words decodes to: an instruction, or IllegalCommand with the offending word (R76). -/
inductive Decoded where
  | instr (i : Instr)
  | illegal (w : Word)
  deriving DecidableEq, Repr

/-- Field `line = w[5:0]` (R73). -/
def fieldLine (w : Word) : BitVec 6 := w.extractLsb' 0 6
/-- Field `idx = w[10:9]` (R73). -/
def fieldIdx (w : Word) : BitVec 2 := w.extractLsb' 9 2
/-- Field `v = w[7:0]` (R73). -/
def fieldV (w : Word) : BitVec 8 := w.extractLsb' 0 8
/-- Fields `b = w[0]` and `E = w[0]` (R73). -/
def fieldB (w : Word) : Bool := w.getLsbD 0
/-- Field `sel = w[3:0]` (R73). -/
def fieldSel (w : Word) : BitVec 4 := w.extractLsb' 0 4
/-- Field `a = x[13:8]` of an extension word (R72, R73). -/
def fieldExtA (x : Word) : BitVec 6 := x.extractLsb' 8 6
/-- Field `b = x[5:0]` of an extension word (R72, R73). -/
def fieldExtB (x : Word) : BitVec 6 := x.extractLsb' 0 6
/-- Bits 10..0 of a word with a reserved opcode. -/
def fieldLow (w : Word) : BitVec 11 := w.extractLsb' 0 11

/-- The instruction of a word list that passed the checks of R76, its fields taken as R73 says. The last
alternative of op 0x15 cannot arise after the length check. -/
def instrOf (w : Word) (xs : List Word) : Decoded :=
  match (opcodeOf w).toNat with
  | 0x00 => .instr (.reservedOp00 (fieldLow w))
  | 0x01 => .instr .tick
  | 0x02 => .instr .reset
  | 0x03 => .instr .timer
  | 0x04 => .instr .stepPress
  | 0x05 => .instr .stepRelease
  | 0x06 => .instr (.readLine (fieldLine w))
  | 0x07 => .instr .decodeAddr
  | 0x08 => .instr .decodePitch
  | 0x09 => .instr (.setInterval (fieldIdx w) (fieldLine w))
  | 0x0A => .instr (.setTheme (fieldIdx w) (fieldLine w))
  | 0x0B => .instr (.setRest (fieldB w))
  | 0x0C => .instr (.setRun (fieldV w))
  | 0x0D => .instr (.setSeq (fieldV w))
  | 0x0E => .instr (.setTempo (fieldV w))
  | 0x0F => .instr (.setVolume (fieldV w))
  | 0x10 => .instr (.setPitchCtl (fieldV w))
  | 0x11 => .instr (.setSlaveMode (fieldV w))
  | 0x12 => .instr (.slaveStep (fieldB w))
  | 0x13 => .instr (.plug (fieldV w))
  | 0x14 => .instr .unplug
  | 0x15 =>
    match xs with
    | [x1, x2, x3, x4] =>
      .instr (.applyPreset (fieldB w) (fieldExtA x1) (fieldExtB x1) (fieldExtA x2) (fieldExtB x2)
        (fieldExtA x3) (fieldExtB x3) (fieldExtA x4) (fieldExtB x4))
    | _ => .illegal w
  | 0x16 => .instr (.getCtl (fieldSel w))
  | 0x17 => .instr (.reservedOp17 (fieldLow w))
  | 0x18 => .instr (.reservedOp18 (fieldLow w))
  | 0x19 => .instr (.reservedOp19 (fieldLow w))
  | 0x1A => .instr (.reservedOp1A (fieldLow w))
  | 0x1B => .instr (.reservedOp1B (fieldLow w))
  | 0x1C => .instr (.reservedOp1C (fieldLow w))
  | 0x1D => .instr (.reservedOp1D (fieldLow w))
  | 0x1E => .instr (.reservedOp1E (fieldLow w))
  | _ => .instr (.reservedOp1F (fieldLow w))

/-- The decoding procedure of R76. A one-word list with a reserved opcode decodes to that row's constructor, whose
meaning raises IllegalCommand of the word; every other refusal is `illegal` (log 13). -/
def decode (ws : List Word) : Decoded :=
  match ws with
  | [] => .illegal 0#16
  | w :: xs =>
    if xs.length + 1 ≠ commandLength (opcodeOf w) then .illegal w
    else if w &&& ~~~ (formatOf (opcodeOf w)).operandBits ≠ matchOf (opcodeOf w) then .illegal w
    else
      match xs.find? (fun x => x &&& extensionReserved != 0#16) with
      | some x => .illegal x
      | none => instrOf w xs

/-! The encoder, from the patterns of R71 and R72. -/

/-- Pattern `ooooo00000000000`. -/
def wordN (op : BitVec 5) : Word := op ++ 0#11
/-- Pattern `ooooo0000000000b` (formats B and P). -/
def wordB (op : BitVec 5) (b : Bool) : Word := op ++ 0#10 ++ BitVec.ofBool b
/-- Pattern `ooooo00000llllll`. -/
def wordL (op : BitVec 5) (line : BitVec 6) : Word := op ++ 0#5 ++ line
/-- Pattern `oooooii000llllll`. -/
def wordS (op : BitVec 5) (idx : BitVec 2) (line : BitVec 6) : Word := op ++ idx ++ 0#3 ++ line
/-- Pattern `ooooo000vvvvvvvv`. -/
def wordV (op : BitVec 5) (v : BitVec 8) : Word := op ++ 0#3 ++ v
/-- Pattern `ooooo0000000ssss`. -/
def wordG (op : BitVec 5) (sel : BitVec 4) : Word := op ++ 0#7 ++ sel
/-- A word with a reserved opcode and any low bits. -/
def wordReserved (op : BitVec 5) (low : BitVec 11) : Word := op ++ low
/-- Extension word X, pattern `00aaaaaa00bbbbbb`. -/
def wordX (a b : BitVec 6) : Word := 0#2 ++ a ++ 0#2 ++ b

/-- The words of an instruction, word 0 first (R71, R72, R74). -/
def encode (i : Instr) : List Word :=
  match i with
  | .tick => [wordN 0x01#5]
  | .reset => [wordN 0x02#5]
  | .timer => [wordN 0x03#5]
  | .stepPress => [wordN 0x04#5]
  | .stepRelease => [wordN 0x05#5]
  | .readLine line => [wordL 0x06#5 line]
  | .decodeAddr => [wordN 0x07#5]
  | .decodePitch => [wordN 0x08#5]
  | .setInterval idx line => [wordS 0x09#5 idx line]
  | .setTheme idx line => [wordS 0x0A#5 idx line]
  | .setRest b => [wordB 0x0B#5 b]
  | .setRun v => [wordV 0x0C#5 v]
  | .setSeq v => [wordV 0x0D#5 v]
  | .setTempo v => [wordV 0x0E#5 v]
  | .setVolume v => [wordV 0x0F#5 v]
  | .setPitchCtl v => [wordV 0x10#5 v]
  | .setSlaveMode v => [wordV 0x11#5 v]
  | .slaveStep b => [wordB 0x12#5 b]
  | .plug v => [wordV 0x13#5 v]
  | .unplug => [wordN 0x14#5]
  | .applyPreset rest i0 i1 i2 i3 t0 t1 t2 t3 =>
    [wordB 0x15#5 rest, wordX i0 i1, wordX i2 i3, wordX t0 t1, wordX t2 t3]
  | .getCtl sel => [wordG 0x16#5 sel]
  | .reservedOp00 low => [wordReserved 0x00#5 low]
  | .reservedOp17 low => [wordReserved 0x17#5 low]
  | .reservedOp18 low => [wordReserved 0x18#5 low]
  | .reservedOp19 low => [wordReserved 0x19#5 low]
  | .reservedOp1A low => [wordReserved 0x1A#5 low]
  | .reservedOp1B low => [wordReserved 0x1B#5 low]
  | .reservedOp1C low => [wordReserved 0x1C#5 low]
  | .reservedOp1D low => [wordReserved 0x1D#5 low]
  | .reservedOp1E low => [wordReserved 0x1E#5 low]
  | .reservedOp1F low => [wordReserved 0x1F#5 low]

/-! An instruction given as one number, the form the opcode table is numbered in: bit 0 is the least significant
bit of word 0, and a later word's bits count on from it. -/

/-- The words of the number `w` of `nbits` bits: as many as the opcode asks for (zeros above `nbits`), or as
`nbits` fills if that is more. -/
def tableWords (nbits w : Nat) : List Word :=
  let v := w % 2 ^ nbits
  let n := max (commandLength (opcodeOf (BitVec.ofNat 16 v))) ((nbits + 15) / 16)
  (List.range n).map fun k => BitVec.ofNat 16 (v / 2 ^ (16 * k))

/-- The instruction the decoder reads from such a number; none where it refuses. -/
def decodeTableWord (nbits w : Nat) : Option Instr :=
  match decode (tableWords nbits w) with
  | .instr i => some i
  | .illegal _ => none

end Sys2Proof
end

