-- ==== Sys2Proof/Machine/Reserved.lean ====
section
/-! DEFINITION. What the block does with words it refuses: IllegalCommand, and no state changes (30_encoding.md R75,
R76). The ten reserved rows of the opcode table each have their meaning here (log 13). -/

namespace Sys2Proof.Machine

/-- A word list that decodes to no command (R76). -/
def execIllegal (w : Word) (s : State) : Result := raise (.illegalCommand w) s

/-- Opcode 0x00, reserved so that an idle link is refused (R75). -/
def execReservedOp00 (low : BitVec 11) (s : State) : Result := execIllegal (wordReserved 0x00#5 low) s
/-- Opcode 0x17, reserved (R75). -/
def execReservedOp17 (low : BitVec 11) (s : State) : Result := execIllegal (wordReserved 0x17#5 low) s
/-- Opcode 0x18, reserved (R75). -/
def execReservedOp18 (low : BitVec 11) (s : State) : Result := execIllegal (wordReserved 0x18#5 low) s
/-- Opcode 0x19, reserved (R75). -/
def execReservedOp19 (low : BitVec 11) (s : State) : Result := execIllegal (wordReserved 0x19#5 low) s
/-- Opcode 0x1A, reserved (R75). -/
def execReservedOp1A (low : BitVec 11) (s : State) : Result := execIllegal (wordReserved 0x1A#5 low) s
/-- Opcode 0x1B, reserved (R75). -/
def execReservedOp1B (low : BitVec 11) (s : State) : Result := execIllegal (wordReserved 0x1B#5 low) s
/-- Opcode 0x1C, reserved (R75). -/
def execReservedOp1C (low : BitVec 11) (s : State) : Result := execIllegal (wordReserved 0x1C#5 low) s
/-- Opcode 0x1D, reserved (R75). -/
def execReservedOp1D (low : BitVec 11) (s : State) : Result := execIllegal (wordReserved 0x1D#5 low) s
/-- Opcode 0x1E, reserved (R75). -/
def execReservedOp1E (low : BitVec 11) (s : State) : Result := execIllegal (wordReserved 0x1E#5 low) s
/-- Opcode 0x1F, reserved (R75). -/
def execReservedOp1F (low : BitVec 11) (s : State) : Result := execIllegal (wordReserved 0x1F#5 low) s

end Sys2Proof.Machine
end

