-- ==== Sys2Proof/Machine/SignalBus.lean ====
section
/-! DEFINITION. The signal bus commands (40_signal_bus.md). -/

namespace Sys2Proof.Machine

/-- READ_LINE (R100): the bit of the bus line, or OutOfRangeLine for 40..63 (R53). -/
def execReadLine (line : BitVec 6) (s : State) : Result :=
  match lineOperand line with
  | none => raise (.outOfRangeLine line) s
  | some i => observe (fun g => bitByte (g.line i)) s

end Sys2Proof.Machine
end

