-- ==== Sys2Proof/Machine/Sync.lean ====
section
/-! DEFINITION. The commands of the master/slave synchroniser (44_sync.md). -/

namespace Sys2Proof.Machine

/-- SLAVE_STEP (R182): a clock bit from outside the modelled system. -/
def execSlaveStep (b : Bool) (s : State) : Result :=
  onTarget s fun _ => finish s 0#8 (slaveStep b s.target s.engines)

/-- SET_SLAVEMODE (R185): all values legal, DIV kept (D39). -/
def execSetSlaveMode (v : BitVec 8) (s : State) : Result := update (fun g => { g with slaveMode := v }) s

/-- PLUG's walk along master links from x (R186): whether it meets e. None where the links lead to no engine or do
not end within `fuel` engines (log 12). -/
def walkMeets (es : List Engine) (e : EngineId) (fuel : Nat) (x : EngineId) : Option Bool :=
  match fuel with
  | 0 => none
  | fuel' + 1 =>
    if x = e then some true
    else
      match es[x]? with
      | none => none
      | some g =>
        match g.master with
        | none => some false
        | some y => walkMeets es e fuel' y

/-- The engines after e is attached under m (R186): e last in m's registration order. -/
def attach (es : List Engine) (e m : EngineId) : List Engine :=
  (es.modify e fun g => { g with master := some m }).modify m fun g => { g with subs := g.subs ++ [e] }

/-- PLUG (R186): the four refusals in their order, then the attachment. -/
def execPlug (v : BitVec 8) (s : State) : Result :=
  onTarget s fun g =>
    if s.engines.length ≤ v.toNat then .next (s.raiseError (.syncTopologyError v))
    else if v.toNat = s.target then .next (s.raiseError (.syncTopologyError v))
    else if g.master ≠ none then .next (s.raiseError (.syncTopologyError v))
    else
      match walkMeets s.engines s.target s.engines.length v.toNat with
      | none => .fault .brokenTopology
      | some true => .next (s.raiseError (.syncTopologyError v))
      | some false => .next ((s.putEngines (attach s.engines s.target v.toNat)).respond 0#8)

/-- The engines after e, a subordinate of m, is detached (R188): e leaves m's list, the others keep their order, and
e has no master. -/
def detach (es : List Engine) (e m : EngineId) : List Engine :=
  (es.modify m fun g => { g with subs := g.subs.filter (· != e) }).modify e fun g => { g with master := none }

/-- UNPLUG (R188): detaches the engine if it has a master, and sets its slaveMode to 0. -/
def execUnplug (s : State) : Result :=
  onTarget s fun g =>
    match g.master with
    | none => .next ((s.putEngine { g with slaveMode := 0#8 }).respond 0#8)
    | some m =>
      if m < s.engines.length then
        .next ((s.putEngines
          ((detach s.engines s.target m).modify s.target fun h => { h with slaveMode := 0#8 })).respond 0#8)
      else .fault .brokenTopology

end Sys2Proof.Machine
end

