-- ==== Sys2Proof/Machine/Dispatch.lean ====
section
/-! DEFINITION. One arm per constructor of Instr, each one direct call of its meaning. -/

namespace Sys2Proof.Machine

def exec (i : Instr) (s : State) : Host.Outcome State Fault Refusal :=
  match i with
  -- 41_clock_engine.md
  | .tick => Sys2Proof.Machine.execTick s
  | .reset => Sys2Proof.Machine.execReset s
  | .timer => Sys2Proof.Machine.execTimer s
  | .stepPress => Sys2Proof.Machine.execStepPress s
  | .stepRelease => Sys2Proof.Machine.execStepRelease s
  -- 40_signal_bus.md
  | .readLine line => Sys2Proof.Machine.execReadLine line s
  -- 42_note_decoder.md
  | .decodeAddr => Sys2Proof.Machine.execDecodeAddr s
  | .decodePitch => Sys2Proof.Machine.execDecodePitch s
  -- 43_patch_config.md
  | .setInterval idx line => Sys2Proof.Machine.execSetInterval idx line s
  | .setTheme idx line => Sys2Proof.Machine.execSetTheme idx line s
  | .setRest b => Sys2Proof.Machine.execSetRest b s
  | .setRun v => Sys2Proof.Machine.execSetRun v s
  | .setSeq v => Sys2Proof.Machine.execSetSeq v s
  | .setTempo v => Sys2Proof.Machine.execSetTempo v s
  | .setVolume v => Sys2Proof.Machine.execSetVolume v s
  | .setPitchCtl v => Sys2Proof.Machine.execSetPitchCtl v s
  -- 44_sync.md
  | .setSlaveMode v => Sys2Proof.Machine.execSetSlaveMode v s
  | .slaveStep b => Sys2Proof.Machine.execSlaveStep b s
  | .plug v => Sys2Proof.Machine.execPlug v s
  | .unplug => Sys2Proof.Machine.execUnplug s
  -- 43_patch_config.md
  | .applyPreset rest i0 i1 i2 i3 t0 t1 t2 t3 => Sys2Proof.Machine.execApplyPreset rest i0 i1 i2 i3 t0 t1 t2 t3 s
  | .getCtl sel => Sys2Proof.Machine.execGetCtl sel s
  -- the reserved rows, 30_encoding.md R75
  | .reservedOp00 low => Sys2Proof.Machine.execReservedOp00 low s
  | .reservedOp17 low => Sys2Proof.Machine.execReservedOp17 low s
  | .reservedOp18 low => Sys2Proof.Machine.execReservedOp18 low s
  | .reservedOp19 low => Sys2Proof.Machine.execReservedOp19 low s
  | .reservedOp1A low => Sys2Proof.Machine.execReservedOp1A low s
  | .reservedOp1B low => Sys2Proof.Machine.execReservedOp1B low s
  | .reservedOp1C low => Sys2Proof.Machine.execReservedOp1C low s
  | .reservedOp1D low => Sys2Proof.Machine.execReservedOp1D low s
  | .reservedOp1E low => Sys2Proof.Machine.execReservedOp1E low s
  | .reservedOp1F low => Sys2Proof.Machine.execReservedOp1F low s

end Sys2Proof.Machine
end

