-- ==== Sys2Proof/Machine/Inbox.lean ====
section
/-! DEFINITION. The command interface's input side: how the block takes its next command (30_encoding.md R70,
20_memory.md R59; the block fetches no program, R3, R38). -/

namespace Sys2Proof.Machine

/-- The next command delivered, if any: its words, and the state with it taken and its engine addressed (log 6). -/
def takeCommand (s : State) : Option (List Word × State) :=
  match s.inbox with
  | [] => none
  | c :: rest => some (c.words, { s with inbox := rest, target := c.target })

/-- With no command delivered nothing changes: nothing is pending between commands (R206, log 7). -/
def execIdle (s : State) : Result := .next s

/-- Delivers a command to the addressed engine, ahead of all others. -/
def deliverFirst (s : State) (ws : List Word) : State := { s with inbox := ⟨s.target, ws⟩ :: s.inbox }

end Sys2Proof.Machine
end

