-- ==== Sys2Proof/Machine/Step.lean ====
section
/-! DEFINITION. One step: one whole command, from its words to its response (R14, R59). -/

namespace Sys2Proof.Machine

/-- Takes the next command, decodes its words (R76) and runs it to completion, cascades included. -/
def step (s : State) : Host.Outcome State Fault Refusal :=
  match takeCommand s with
  | none => execIdle s
  | some (ws, s') =>
    match decode ws with
    | .illegal w => execIllegal w s'
    | .instr i => exec i s'

/-- The state with the instruction numbered `w` (`nbits` bits, the table's numbering) delivered as the next command
of the addressed engine: the host's delivery of a program's next command (log 6). -/
def State.withFetchWord (s : State) (nbits w : Nat) : State := deliverFirst s (tableWords nbits w)

end Sys2Proof.Machine
end

