-- ==== Sys2Proof/Machine/Assembler.lean ====
section
/-! DEFINITION. The switch-name table (43_patch_config.md R150) and the assembly form of commands (30_encoding.md
R90, R91). The assembler is the host's: no command of the block reads anything here. -/

namespace Sys2Proof.Machine

/-- The fixed 40-entry name table, in address order (R150, R18). -/
def switchNames : List String :=
  ["OFF", "ON", "C 1/2", "C1", "C2", "C4", "C8", "C3", "C6"] ++
  ["B1", "B2", "B3", "B4", "B5", "B6", "B7", "B8", "B9", "B10"] ++
  ["B11", "B12", "B13", "B14", "B15", "B16", "B17", "B18", "B19", "B20"] ++
  ["B21", "B22", "B23", "B24", "B25", "B26", "B27", "B28", "B29", "B30", "B31"]

/-- The code of a switch name, matched exactly and case-sensitively; none for a name outside the table (R150, D20). -/
def switchCode (name : String) : Option (BitVec 6) := (switchNames.idxOf? name).map (BitVec.ofNat 6)

/-- A name in a preset: one outside the table assembles to code 63, which the block refuses (R90). -/
def presetCode (name : String) : BitVec 6 := (switchCode name).getD 63#6

/-- A resolved rest flag: E = 0 exactly for "REST" (R90, R151). -/
def restFlag (flag : String) : Bool := flag != "REST"

/-- The tokens of an assembly line (log 16). -/
inductive Token where
  | word (w : String)
  | number (n : Nat)
  | quoted (q : String)
  | comma
  | lbrack
  | rbrack
  | atSign
  deriving DecidableEq, Repr

/-- The operands of R90: a number, a bare word such as REST, a quoted string, or four quoted names in brackets. -/
inductive Operand where
  | number (n : Nat)
  | word (w : String)
  | quoted (q : String)
  | names (n0 n1 n2 n3 : String)
  deriving DecidableEq, Repr

/-- The value of a decimal digit. -/
def digitValue (c : Char) : Option Nat :=
  if '0' ≤ c ∧ c ≤ '9' then some (c.toNat - '0'.toNat) else none

/-- The number a run of decimal digits denotes; none if some character is no digit. -/
def decimalValue (acc : Nat) (cs : List Char) : Option Nat :=
  match cs with
  | [] => some acc
  | c :: rest =>
    match digitValue c with
    | some d => decimalValue (10 * acc + d) rest
    | none => none

/-- Puts the pending characters of a bare word, if any, before the tokens that follow. -/
def flushWord (w : List Char) (ts : List Token) : List Token :=
  match w with
  | [] => ts
  | _ :: _ =>
    match decimalValue 0 w with
    | some n => .number n :: ts
    | none => .word (String.ofList w) :: ts

/-- The tokens of a line. `w` holds the pending characters; inside quotes everything up to the next quote belongs to
the string. A semicolon outside quotes starts a comment (R90). -/
def tokens (inQuotes : Bool) (w : List Char) (cs : List Char) : Option (List Token) :=
  match cs with
  | [] => if inQuotes then none else some (flushWord w [])
  | c :: rest =>
    if inQuotes then
      if c = '"' then (tokens false [] rest).map (.quoted (String.ofList w) :: ·)
      else tokens true (w ++ [c]) rest
    else if c = ';' then some (flushWord w [])
    else if c = '"' then (tokens true [] rest).map (flushWord w)
    else if c = ' ' ∨ c = '\t' then (tokens false [] rest).map (flushWord w)
    else if c = ',' then (tokens false [] rest).map fun ts => flushWord w (.comma :: ts)
    else if c = '[' then (tokens false [] rest).map fun ts => flushWord w (.lbrack :: ts)
    else if c = ']' then (tokens false [] rest).map fun ts => flushWord w (.rbrack :: ts)
    else if c = '@' then (tokens false [] rest).map fun ts => flushWord w (.atSign :: ts)
    else tokens false (w ++ [c]) rest

/-- One operand at the head of the tokens. -/
def takeOperand (ts : List Token) : Option (Operand × List Token) :=
  match ts with
  | .number n :: rest => some (.number n, rest)
  | .word w :: rest => some (.word w, rest)
  | .quoted q :: rest => some (.quoted q, rest)
  | .lbrack :: .quoted a :: .comma :: .quoted b :: .comma :: .quoted c :: .comma :: .quoted d :: .rbrack :: rest =>
    some (.names a b c d, rest)
  | _ => none

/-- Operands separated by commas, to the end of the line. `fuel` bounds their number. -/
def takeOperands (fuel : Nat) (ts : List Token) : Option (List Operand) :=
  match fuel with
  | 0 => none
  | fuel' + 1 =>
    match takeOperand ts with
    | none => none
    | some (o, []) => some [o]
    | some (o, .comma :: rest) => (takeOperands fuel' rest).map (o :: ·)
    | some (_, _) => none

/-- A number operand of a field `w` bits wide. -/
def numberField (w : Nat) (o : Operand) : Option (BitVec w) :=
  match o with
  | .number n => if n < 2 ^ w then some (BitVec.ofNat w n) else none
  | _ => none

/-- A line operand: a number 0..63 or a quoted name of the table (R90). -/
def lineField (o : Operand) : Option (BitVec 6) :=
  match o with
  | .quoted q => switchCode q
  | _ => numberField 6 o

/-- A one-bit number operand. -/
def bitField (o : Operand) : Option Bool := (numberField 1 o).map (·.getLsbD 0)

/-- The operand of SET_REST: REST, NORM, 0 or 1 (R90). -/
def restField (o : Operand) : Option Bool :=
  if o = .word "REST" then some false else if o = .word "NORM" then some true else bitField o

/-- The operand of SET_RUN: OFF, RUN, START or a number 0..255 (R90). -/
def runField (o : Operand) : Option (BitVec 8) :=
  if o = .word "OFF" then some 0#8
  else if o = .word "RUN" then some 1#8
  else if o = .word "START" then some 2#8
  else numberField 8 o

/-- The operand of SET_SEQ: AUTO, HOLD or a number 0..255 (R90). -/
def seqField (o : Operand) : Option (BitVec 8) :=
  if o = .word "AUTO" then some 0#8 else if o = .word "HOLD" then some 1#8 else numberField 8 o

/-- The commands a mnemonic with its operands stands for: one, or a pseudo-instruction's expansion (R90, R91). -/
def assemble (mnemonic : String) (ops : List Operand) : Option (List Instr) :=
  match mnemonic, ops with
  | "TICK", [] => some [.tick]
  | "RESET", [] => some [.reset]
  | "TIMER", [] => some [.timer]
  | "STEP_PRESS", [] => some [.stepPress]
  | "STEP_RELEASE", [] => some [.stepRelease]
  | "READ_LINE", [l] => (lineField l).map fun line => [.readLine line]
  | "DECODE_ADDR", [] => some [.decodeAddr]
  | "DECODE_PITCH", [] => some [.decodePitch]
  | "SET_INTERVAL", [k, l] => (numberField 2 k).bind fun idx => (lineField l).map fun line => [.setInterval idx line]
  | "SET_THEME", [k, l] => (numberField 2 k).bind fun idx => (lineField l).map fun line => [.setTheme idx line]
  | "SET_REST", [o] => (restField o).map fun b => [.setRest b]
  | "SET_RUN", [o] => (runField o).map fun v => [.setRun v]
  | "SET_SEQ", [o] => (seqField o).map fun v => [.setSeq v]
  | "SET_TEMPO", [o] => (numberField 8 o).map fun v => [.setTempo v]
  | "SET_VOLUME", [o] => (numberField 8 o).map fun v => [.setVolume v]
  | "SET_PITCHCTL", [o] => (numberField 8 o).map fun v => [.setPitchCtl v]
  | "SET_SLAVEMODE", [o] => (numberField 8 o).map fun v => [.setSlaveMode v]
  | "SLAVE_STEP", [o] => (bitField o).map fun b => [.slaveStep b]
  | "PLUG", [o] => (numberField 8 o).map fun v => [.plug v]
  | "UNPLUG", [] => some [.unplug]
  | "APPLY_PRESET", [.names n0 n1 n2 n3, .names t0 t1 t2 t3, .quoted flag] =>
    some [.applyPreset (restFlag flag) (presetCode n0) (presetCode n1) (presetCode n2) (presetCode n3)
      (presetCode t0) (presetCode t1) (presetCode t2) (presetCode t3)]
  | "GET_CTL", [o] => (numberField 4 o).map fun sel => [.getCtl sel]
  | "STEP", [] => some [.stepPress, .stepRelease]
  | "TICKS", [.number n] => some (List.replicate n .tick)
  | "READ", [.quoted q] => (switchCode q).map fun line => [.readLine line]
  | _, _ => none

/-- A mnemonic and its operands, after any engine prefix. -/
def assembleTokens (ts : List Token) : Option (List Instr) :=
  match ts with
  | [] => some []
  | .word m :: [] => assemble m []
  | .word m :: rest => (takeOperands rest.length rest).bind (assemble m)
  | _ => none

/-- The commands of one assembly line, each as the host delivers it; none is an assembler error. A prefix `@e` names
the target engine, and without one the target is engine 0 (R90). -/
def assembleLine (line : String) : Option (List Command) :=
  match tokens false [] line.toList with
  | none => none
  | some (.atSign :: .number e :: ts) => (assembleTokens ts).map fun is => is.map fun i => ⟨e, encode i⟩
  | some ts => (assembleTokens ts).map fun is => is.map fun i => ⟨0, encode i⟩

end Sys2Proof.Machine
end

