-- ==== Sys2Proof/WellFormed.lean ====
section
/-! DEFINITION. Which terms of `Instr` are commands of the block. -/

namespace Sys2Proof

/-- A term is well formed when it is one of the 22 commands of R74. The ten reserved rows are not: they name
words the block refuses (R75 item 2). Every operand value its field can hold is well formed (R73). -/
def Instr.wellFormed (i : Instr) : Bool :=
  match i with
  | .tick => true
  | .reset => true
  | .timer => true
  | .stepPress => true
  | .stepRelease => true
  | .readLine _ => true
  | .decodeAddr => true
  | .decodePitch => true
  | .setInterval _ _ => true
  | .setTheme _ _ => true
  | .setRest _ => true
  | .setRun _ => true
  | .setSeq _ => true
  | .setTempo _ => true
  | .setVolume _ => true
  | .setPitchCtl _ => true
  | .setSlaveMode _ => true
  | .slaveStep _ => true
  | .plug _ => true
  | .unplug => true
  | .applyPreset _ _ _ _ _ _ _ _ _ => true
  | .getCtl _ => true
  | .reservedOp00 _ => false
  | .reservedOp17 _ => false
  | .reservedOp18 _ => false
  | .reservedOp19 _ => false
  | .reservedOp1A _ => false
  | .reservedOp1B _ => false
  | .reservedOp1C _ => false
  | .reservedOp1D _ => false
  | .reservedOp1E _ => false
  | .reservedOp1F _ => false

end Sys2Proof
end

