-- ==== Sys2Proof/Safety.lean ====
section
/-! DEFINITION. The invariant of a system (10_state.md R35, R40), and the spec's tables and rules in the terms claims
are stated in. Each of the latter is written from the spec's text, not from the meanings in Machine/. -/

namespace Sys2Proof.Machine

/-! The invariant. -/

/-- Whether following master links from x reaches NONE within `fuel` engines (R35). -/
def chainEnds (es : List Engine) (fuel : Nat) (x : EngineId) : Bool :=
  match fuel with
  | 0 => false
  | fuel' + 1 =>
    match masterOf es x with
    | none => true
    | some m => chainEnds es fuel' m

/-- The topology invariant of R35: the two links agree, no list repeats an identifier, and the links form a forest.
A chain of master links that reaches NONE visits no engine twice, since each engine has one master. -/
structure TopologyOk (es : List Engine) : Prop where
  linksAgree : ∀ m s, s ∈ subsOf es m ↔ masterOf es s = some m
  noRepeats : ∀ m, (subsOf es m).Nodup
  forest : ∀ x, ∃ fuel, chainEnds es fuel x = true

/-- What holds of every system (R7, R35, R40): 1 to 255 engines whose topology is a forest. The ranges of R40 that
concern one field are that field's type (log 14). -/
structure Inv (s : State) : Prop where
  atLeastOne : 1 ≤ s.engines.length
  atMostMax : s.engines.length ≤ Config.maxEngines
  topology : TopologyOk s.engines

/-- The commands in execution and in the inbox are addressed to engines of the system, as a host's are (R70). -/
def TargetsOk (s : State) : Prop :=
  s.target < s.engines.length ∧ ∀ c ∈ s.inbox, c.target < s.engines.length

/-- x is below e: following master links from x leads to e (R35). -/
inductive Below (es : List Engine) (e : EngineId) : EngineId → Prop where
  | direct {x : EngineId} : masterOf es x = some e → Below es e x
  | through {x m : EngineId} : masterOf es x = some m → Below es e m → Below es e x

/-! The spec's tables. -/

/-- The table of R111: Div6Next of 0 to 15. -/
def div6Table : List (BitVec 4) := [1, 3, 3, 4, 5, 7, 7, 8, 9, 11, 11, 12, 13, 15, 15, 0]

/-- The 12-value cycle of D from reset (R23, R130). -/
def dividerCycle : List (BitVec 4) := [0, 1, 3, 4, 5, 7, 8, 9, 11, 12, 13, 15]

/-- The address-to-pitch table of R145. -/
def pitchTable : List Nat := [0, 2, 4, 5, 7, 9, 11, 12, 12, 14, 16, 17, 19, 21, 23, 24]

/-- The `mask` column of the opcode map, by opcode 0x00 to 0x1F (R74). -/
def maskColumn : List Word :=
  [0xF800, 0xFFFF, 0xFFFF, 0xFFFF, 0xFFFF, 0xFFFF, 0xFFC0, 0xFFFF] ++
  [0xFFFF, 0xF9C0, 0xF9C0, 0xFFFE, 0xFF00, 0xFF00, 0xFF00, 0xFF00] ++
  [0xFF00, 0xFF00, 0xFFFE, 0xFF00, 0xFFFF, 0xFFFE, 0xFFF0, 0xF800] ++
  [0xF800, 0xF800, 0xF800, 0xF800, 0xF800, 0xF800, 0xF800, 0xF800]

/-- The `match` column of the opcode map, by opcode 0x00 to 0x1F (R74). -/
def matchColumn : List Word :=
  [0x0000, 0x0800, 0x1000, 0x1800, 0x2000, 0x2800, 0x3000, 0x3800] ++
  [0x4000, 0x4800, 0x5000, 0x5800, 0x6000, 0x6800, 0x7000, 0x7800] ++
  [0x8000, 0x8800, 0x9000, 0x9800, 0xA000, 0xA800, 0xB000, 0xB800] ++
  [0xC000, 0xC800, 0xD000, 0xD800, 0xE000, 0xE800, 0xF000, 0xF800]

/-! The rules. -/

/-- What a word list's word 0 must be (R75 items 2 to 4): a defined opcode, the right length, reserved bits zero. -/
def headOk (w : Word) (n : Nat) : Bool :=
  let op := (w >>> 11).toNat
  0x01 ≤ op && op ≤ 0x16 && n == (if op = 0x15 then 5 else 1) &&
    w &&& maskColumn.getD op 0xFFFF#16 == matchColumn.getD op 0#16

/-- Whether a list of words is a command (R75). -/
def isCommand (ws : List Word) : Bool :=
  match ws with
  | [] => false
  | w :: xs => headOk w ws.length && xs.all fun x => x &&& 0xC0C0#16 == 0#16

/-- The offending word of a list that is no command (R76). -/
def offendingWord (ws : List Word) : Word :=
  match ws with
  | [] => 0#16
  | w :: xs => if headOk w ws.length then (xs.find? fun x => x &&& 0xC0C0#16 != 0#16).getD w else w

/-- The engine after its own part of a tick: R110 steps 1 to 3 and the DIV write, with R111's table and R112's
shift. It leaves out the broadcast. -/
def tickedEngine (g : Engine) : Engine :=
  let c := g.clockCounter + 1#5
  { g with
    clockCounter := c
    divideBy6Counter := if c.toNat % 2 = 0 then div6Table.getD g.divideBy6Counter.toNat 0#4 else g.divideBy6Counter
    shiftRegister :=
      if c.toNat % 2 = 0 then
        g.shiftRegister.extractLsb' 0 30 ++
          BitVec.ofBool (!(g.line g.theme[0] ^^ g.line g.theme[1] ^^ g.line g.theme[2] ^^ g.line g.theme[3]))
      else g.shiftRegister
    slaveClockDivider := 0#8 }

/-- The note address of an engine as a number, bit i from the line of interval[i] (R140). -/
def noteAddress (g : Engine) : Nat :=
  (g.line g.interval[0]).toNat + 2 * (g.line g.interval[1]).toNat + 4 * (g.line g.interval[2]).toNat +
    8 * (g.line g.interval[3]).toNat

/-- The response word of an engine's decoded pitch: R145's table, 0x80 for the rest (R143, R144, R88). -/
def pitchResponse (g : Engine) : Word :=
  if noteAddress g = 0 ∧ g.restEnabled = false then 0x0080#16
  else BitVec.ofNat 16 (pitchTable.getD (noteAddress g) 0)

/-- Whether the condition of R119 holds: TIMER ticks the engine. -/
def timerTicks (g : Engine) : Prop :=
  (g.runMode = .run ∨ g.runMode = .start ∧ Config.startTicks = true) ∧
    (g.autoMode = .auto ∨ g.autoMode = .hold ∧ g.clockCounter.toNat % 2 = 0)

/-- The engine after its DIV write for a received bit (R181). -/
def counted (g : Engine) : Engine :=
  { g with slaveClockDivider := BitVec.ofNat 8 (min (g.slaveClockDivider.toNat + 1) 255) }

/-- Whether a received bit b ticks a subordinate (R181). -/
def bitTicks (g : Engine) (b : Bool) : Bool :=
  g.autoMode == .auto &&
    (if g.slaveMode.toNat = 0 then false
     else if g.slaveMode.toNat = 1 then b.toNat != g.clockCounter.toNat % 2
     else if g.slaveMode.toNat % 2 = 0 then
       b == false && g.slaveMode.toNat ≤ (counted g).slaveClockDivider.toNat
     else g.slaveMode.toNat ≤ (counted g).slaveClockDivider.toNat)

/-- The engine after a received bit (R181), its own broadcast left out: only in AUTO, DIV counts in the divided modes,
and the engine ticks where R181 says so. -/
def bitReaction (g : Engine) (b : Bool) : Engine :=
  let g' := if g.autoMode = .auto ∧ 2 ≤ g.slaveMode.toNat then counted g else g
  if bitTicks g b then tickedEngine g' else g'

/-- The bit engine x receives while engine e ticks: the new phase of its master, if its master ticks; followed up the
master links (R180, R181). It reads the links upward only, so it knows no registration order (R246). -/
def receives (es : List Engine) (e : EngineId) (fuel : Nat) (x : EngineId) : Option Bool :=
  match fuel with
  | 0 => none
  | fuel' + 1 =>
    match masterOf es x with
    | none => none
    | some m =>
      match es[m]? with
      | none => none
      | some h =>
        if m = e then some (h.clockCounter.toNat % 2 == 0)
        else
          match receives es e fuel' m with
          | none => none
          | some b => if bitTicks h b then some (h.clockCounter.toNat % 2 == 0) else none

/-- Engine x, in registers h, after a tick of engine e with every cascade complete (R110, R180, R181). -/
def afterTick (es : List Engine) (e x : EngineId) (h : Engine) : Engine :=
  if x = e then tickedEngine h
  else
    match receives es e es.length x with
    | none => h
    | some b => bitReaction h b

/-- Commands run one after another, each to completion (R59), on the engine addressed. -/
def execAll (is : List Instr) (s : State) : Result :=
  match is with
  | [] => .next s
  | i :: rest =>
    match exec i s with
    | .next t => execAll rest t
    | .fault r => .fault r
    | .refused r => .refused r

/-- The same engine with its subordinates registered in some order (R246). -/
def reordered (g g' : Engine) : Prop := ∃ l : List EngineId, l.Perm g.subs ∧ g' = { g with subs := l }

/-- Two states that differ in the order of registration at most, in any of their engines' lists (R246). -/
def sameButForOrder (s s' : State) : Prop :=
  List.Forall₂ reordered s.engines s'.engines ∧
    s'.target = s.target ∧ s'.inbox = s.inbox ∧ s'.responses = s.responses ∧ s'.errors = s.errors

/-- The number of falling edges among n ticks from a counter value (R129): ticks whose resulting C is even. -/
def fallingEdges (c n : Nat) : Nat := (c + n) / 2 - c / 2

end Sys2Proof.Machine
end

