-- ==== Sys2Proof/Certificates/Slice0/Obligations.lean ====
section
/-! DEFINITION. The statements about the model, one `def Obligations.<Name> : Prop` each. The vocabulary (the
invariant, the spec's tables and rules) is Safety.lean's. -/

open Sys2Proof Sys2Proof.Machine

/-! Encoding and decoding (30_encoding.md). -/

/-- R92: the spec's own encoding examples, as words and as assembly. -/
def Obligations.SpecEncodingExamplesDecode : Prop :=
  (decode [0x0800#16] = .instr .tick ∧ assembleLine "TICK" = some [⟨0, [0x0800#16]⟩]) ∧
  (0x3027#16 = 0x3000#16 ||| 39#16 ∧ decode [0x3027#16] = .instr (.readLine 39#6) ∧
    assembleLine "READ_LINE \"B31\"" = some [⟨0, [0x3027#16]⟩]) ∧
  (0x5224#16 = 0x5000#16 ||| (1#16 <<< 9) ||| 36#16 ∧ decode [0x5224#16] = .instr (.setTheme 1#2 36#6) ∧
    assembleLine "SET_THEME 1, \"B28\"" = some [⟨0, [0x5224#16]⟩]) ∧
  (decode [0x6001#16] = .instr (.setRun 1#8) ∧ assembleLine "SET_RUN RUN" = some [⟨0, [0x6001#16]⟩]) ∧
  (decode [0x9800#16] = .instr (.plug 0#8) ∧ assembleLine "@1 PLUG 0" = some [⟨1, [0x9800#16]⟩]) ∧
  (decode [0xA801#16, 0x0000#16, 0x0000#16, 0x0000#16, 0x0000#16] = .instr (.applyPreset true 0 0 0 0 0 0 0 0) ∧
    assembleLine
      "APPLY_PRESET [\"OFF\",\"OFF\",\"OFF\",\"OFF\"], [\"OFF\",\"OFF\",\"OFF\",\"OFF\"], \"NORM\"" =
      some [⟨0, [0xA801#16, 0x0000#16, 0x0000#16, 0x0000#16, 0x0000#16]⟩]) ∧
  (decode [0xB00F#16] = .instr (.getCtl 15#4) ∧ assembleLine "GET_CTL 15" = some [⟨0, [0xB00F#16]⟩]) ∧
  decode [0x0801#16] = .illegal 0x0801#16

/-- From R70 to R74: encoding and decoding lose nothing, for every instruction and every operand value. -/
def Obligations.DecodeOfEncodeIsTheInstruction : Prop :=
  ∀ i : Instr, decode (encode i) = .instr i

/-- From R70 to R76: a list of words that decodes to an instruction is that instruction's encoding, so no two lists
mean the same instruction. -/
def Obligations.DecodedWordsAreTheEncoding : Prop :=
  ∀ (ws : List Word) (i : Instr), decode ws = .instr i → ws = encode i

/-- From R74, R75: the decoder reads a command of the opcode map from exactly the lists that R75 does not refuse, by
the match and mask columns of R74. -/
def Obligations.DecoderAcceptsExactlyTheCommands : Prop :=
  ∀ ws : List Word, isCommand ws = true ↔ ∃ i, decode ws = .instr i ∧ i.wellFormed = true

/-- From R75, R76: words that are no command raise IllegalCommand with the offending word, and no engine's state changes.
That the command is taken from the inbox (log 6) and that the target is the engine it was addressed to (log 8) are the
model's conventions. -/
def Obligations.WordsThatAreNoCommandChangeNothing : Prop :=
  ∀ (s : State) (c : Command) (rest : List Command),
    s.inbox = c :: rest → c.target < s.engines.length → isCommand c.words = false →
    step s = .next
      { engines := s.engines
        target := c.target
        inbox := rest
        responses := s.responses ++ [0x8004#16]
        errors := s.errors ++ [⟨c.target, .illegalCommand (offendingWord c.words)⟩] }

/-- R75, for the ten reserved rows of the opcode table as instructions: each raises IllegalCommand of its word. -/
def Obligations.ReservedRowsRaiseIllegalCommand : Prop :=
  ∀ (s : State) (g : Engine) (low : BitVec 11), s.engines[s.target]? = some g →
    let refuses (i : Instr) (w : Word) : Prop :=
      exec i s = .next
        { s with
          responses := s.responses ++ [0x8004#16]
          errors := s.errors ++ [⟨s.target, .illegalCommand w⟩] }
    refuses (.reservedOp00 low) (0x0000#16 ||| low.zeroExtend 16) ∧
    refuses (.reservedOp17 low) (0xB800#16 ||| low.zeroExtend 16) ∧
    refuses (.reservedOp18 low) (0xC000#16 ||| low.zeroExtend 16) ∧
    refuses (.reservedOp19 low) (0xC800#16 ||| low.zeroExtend 16) ∧
    refuses (.reservedOp1A low) (0xD000#16 ||| low.zeroExtend 16) ∧
    refuses (.reservedOp1B low) (0xD800#16 ||| low.zeroExtend 16) ∧
    refuses (.reservedOp1C low) (0xE000#16 ||| low.zeroExtend 16) ∧
    refuses (.reservedOp1D low) (0xE800#16 ||| low.zeroExtend 16) ∧
    refuses (.reservedOp1E low) (0xF000#16 ||| low.zeroExtend 16) ∧
    refuses (.reservedOp1F low) (0xF800#16 ||| low.zeroExtend 16)

/-! The step (R14, R59, R70). -/

/-- From R14, R59, R70: a step takes the oldest delivered command and runs the instruction its words decode to on the
engine it names. -/
def Obligations.StepRunsTheDecodedCommand : Prop :=
  ∀ (s : State) (c : Command) (rest : List Command) (i : Instr),
    s.inbox = c :: rest → decode c.words = .instr i →
    step s = exec i { s with inbox := rest, target := c.target }

/-- The model's choice (log 6): an instruction given as a table number and delivered runs in the very next step. -/
def Obligations.DeliveredTableWordRunsNext : Prop :=
  ∀ (s : State) (nbits w : Nat) (i : Instr), decodeTableWord nbits w = some i →
    step (s.withFetchWord nbits w) = exec i s

/-- The model's choice (log 7): with no command delivered, a step changes nothing. -/
def Obligations.StepWithoutCommandChangesNothing : Prop :=
  ∀ s : State, s.inbox = [] → step s = .next s

/-- The model's choice (log 11): a command addressed to no engine of the system stops the machine. -/
def Obligations.CommandToNoEngineStops : Prop :=
  ∀ (s : State) (i : Instr), s.engines.length ≤ s.target → exec i s = .fault .noSuchEngine

/-! The invariant, completion, and what holds of every command. -/

/-- From R35, R40, R7: every step keeps the system's invariant, and with it the targets below N_ENGINES. -/
def Obligations.EveryStepKeepsTheInvariant : Prop :=
  ∀ s t : State, Inv s → step s = .next t → Inv t ∧ (TargetsOk s → TargetsOk t)

/-- From R7, R35, R39: the invariant holds at power-on, for every number of engines and every draw, and so at
State.reset. -/
def Obligations.PowerOnMeetsTheInvariant : Prop :=
  (∀ draws : List PowerOnDraw, 1 ≤ draws.length → draws.length ≤ 255 →
    Inv (State.powerOn draws) ∧ TargetsOk (State.powerOn draws)) ∧
  Inv State.reset ∧ TargetsOk State.reset

/-- R39: every field's value at power-on, for every draw of the unspecified ones, and after Reset(e). -/
def Obligations.PowerOnAndResetValues : Prop :=
  (∀ (draws : List PowerOnDraw) (e : EngineId) (d : PowerOnDraw), draws[e]? = some d →
    (State.powerOn draws).engines.length = draws.length ∧
    (State.powerOn draws).engines[e]? = some
      { clockCounter := d.clockCounter
        divideBy6Counter := d.divideBy6Counter
        shiftRegister := d.shiftRegister
        interval := #v[0, 0, 0, 0]
        theme := #v[0, 0, 0, 0]
        restEnabled := true
        runMode := .off
        autoMode := .auto
        tempo := d.tempo
        volume := d.volume
        pitchControl := d.pitchControl
        slaveMode := 0#8
        slaveClockDivider := 0#8
        master := none
        subs := [] }) ∧
  (∀ (s : State) (g : Engine), s.engines[s.target]? = some g →
    ∃ t, exec .reset s = .next t ∧
      t.engines = s.engines.set s.target
        { g with clockCounter := 1#5, divideBy6Counter := 0#4, shiftRegister := 0#31 })

/-- From R247, R201: no command stops a system that meets its invariant: every command completes, and every step. -/
def Obligations.EveryCommandCompletes : Prop :=
  (∀ (s : State) (i : Instr), Inv s → s.target < s.engines.length → ∃ t, exec i s = .next t) ∧
  (∀ s : State, Inv s → TargetsOk s → ∃ t, step s = .next t)

/-- From R88, R201: every command adds exactly one response word; it has the success layout and no error is recorded,
or it has the error layout with one error recorded and every engine as before. -/
def Obligations.EveryCommandRespondsOnce : Prop :=
  ∀ (s t : State) (i : Instr), exec i s = .next t →
    t.inbox = s.inbox ∧ t.target = s.target ∧
    ∃ r : Word, t.responses = s.responses ++ [r] ∧
      ((t.errors = s.errors ∧ r &&& 0xFF00#16 = 0#16) ∨
       (∃ k, t.errors = s.errors ++ [⟨s.target, k⟩] ∧ r &&& 0xFFF0#16 = 0x8000#16 ∧ t.engines = s.engines))

/-- From R201, R202: a command that raises an error changes nothing but the response and the record, and the response
carries the code of the error's kind. -/
def Obligations.RaisedErrorsLeaveTheEnginesAsBefore : Prop :=
  ∀ (s t : State) (i : Instr), exec i s = .next t → t.errors ≠ s.errors →
    ∃ k : CommandError,
      t = { s with
        responses := s.responses ++
          [match k with
            | .outOfRangeLine _ => 0x8001#16
            | .invalidSwitchName _ _ => 0x8002#16
            | .invalidControlValue _ => 0x8003#16
            | .illegalCommand _ => 0x8004#16
            | .syncTopologyError _ => 0x8005#16]
        errors := s.errors ++ [⟨s.target, k⟩] }

/-- From R200, R202, R203: a command raises an error of a kind, with its info, exactly for the cause that kind's row
gives. -/
def Obligations.EachErrorKindHasItsCause : Prop :=
  ∀ (s : State) (g : Engine) (i : Instr) (k : CommandError), Inv s → s.engines[s.target]? = some g →
    ((∃ t, exec i s = .next t ∧ t.errors = s.errors ++ [⟨s.target, k⟩]) ↔
      match k with
      | .outOfRangeLine l => i = .readLine l ∧ 40 ≤ l.toNat
      | .invalidSwitchName p c =>
        ∃ rest i0 i1 i2 i3 t0 t1 t2 t3, i = .applyPreset rest i0 i1 i2 i3 t0 t1 t2 t3 ∧
          [i0, i1, i2, i3, t0, t1, t2, t3][p]? = some c ∧ 40 ≤ c.toNat ∧
          ∀ j < p, ∀ d, [i0, i1, i2, i3, t0, t1, t2, t3][j]? = some d → d.toNat ≤ 39
      | .invalidControlValue v =>
        (i = .setRun v ∧ 3 ≤ v.toNat) ∨ (i = .setSeq v ∧ 2 ≤ v.toNat) ∨ (i = .setTempo v ∧ 50 ≤ v.toNat) ∨
          (i = .setVolume v ∧ 50 ≤ v.toNat) ∨ (i = .setPitchCtl v ∧ 50 ≤ v.toNat) ∨
          (∃ idx l, (i = .setInterval idx l ∨ i = .setTheme idx l) ∧ 40 ≤ l.toNat ∧ v = l.zeroExtend 8) ∨
          (i = .stepRelease ∧ (g.autoMode = .auto ∧ v = 0#8 ∨ g.autoMode = .hold ∧ v = 1#8))
      | .illegalCommand w => i.wellFormed = false ∧ encode i = [w]
      | .syncTopologyError m =>
        i = .plug m ∧ (s.engines.length ≤ m.toNat ∨ m.toNat = s.target ∨ g.master ≠ none ∨
          Below s.engines s.target m.toNat))

/-- From R204: the record of errors is never cleared. -/
def Obligations.ErrorRecordIsNeverCleared : Prop :=
  ∀ s t : State, step s = .next t → s.errors <+: t.errors

/-- From R20, R26 to R34, R230: each register has only the writers its rule names. Only a tick of the engine itself or
of one above it, or a reset, changes C, D, S or DIV; every other register is written only by its own commands. -/
def Obligations.EachRegisterHasOnlyItsWriters : Prop :=
  ∀ (s t : State) (i : Instr) (x : EngineId) (h : Engine), Inv s → exec i s = .next t → s.engines[x]? = some h →
    ∃ h', t.engines[x]? = some h' ∧ t.engines.length = s.engines.length ∧
      (h'.interval ≠ h.interval → x = s.target ∧
        ((∃ idx l, i = .setInterval idx l) ∨ ∃ r a b c d e f k l, i = .applyPreset r a b c d e f k l)) ∧
      (h'.theme ≠ h.theme → x = s.target ∧
        ((∃ idx l, i = .setTheme idx l) ∨ ∃ r a b c d e f k l, i = .applyPreset r a b c d e f k l)) ∧
      (h'.restEnabled ≠ h.restEnabled → x = s.target ∧
        ((∃ b, i = .setRest b) ∨ ∃ r a b c d e f k l, i = .applyPreset r a b c d e f k l)) ∧
      (h'.runMode ≠ h.runMode → x = s.target ∧ ∃ v, i = .setRun v) ∧
      (h'.autoMode ≠ h.autoMode → x = s.target ∧ ((∃ v, i = .setSeq v) ∨ i = .stepPress ∨ i = .stepRelease)) ∧
      (h'.autoMode = .step → h.autoMode ≠ .step → i = .stepPress) ∧
      (h'.tempo ≠ h.tempo → x = s.target ∧ ∃ v, i = .setTempo v) ∧
      (h'.volume ≠ h.volume → x = s.target ∧ ∃ v, i = .setVolume v) ∧
      (h'.pitchControl ≠ h.pitchControl → x = s.target ∧ ∃ v, i = .setPitchCtl v) ∧
      (h'.slaveMode ≠ h.slaveMode → x = s.target ∧ ((∃ v, i = .setSlaveMode v) ∨ i = .unplug)) ∧
      (h'.master ≠ h.master → x = s.target ∧ ((∃ v, i = .plug v) ∨ i = .unplug)) ∧
      (h'.subs ≠ h.subs → (∃ v, i = .plug v ∧ x = v.toNat) ∨ (i = .unplug ∧ masterOf s.engines s.target = some x)) ∧
      (h'.slaveClockDivider ≠ h.slaveClockDivider → (x = s.target ∨ Below s.engines s.target x) ∧
        (i = .tick ∨ i = .timer ∨ i = .stepPress ∨ i = .stepRelease ∨ ∃ b, i = .slaveStep b)) ∧
      ((h'.clockCounter ≠ h.clockCounter ∨ h'.divideBy6Counter ≠ h.divideBy6Counter ∨
          h'.shiftRegister ≠ h.shiftRegister) →
        ((x = s.target ∨ Below s.engines s.target x) ∧
          (i = .tick ∨ i = .timer ∨ i = .stepPress ∨ i = .stepRelease ∨ ∃ b, i = .slaveStep b)) ∨
        (x = s.target ∧ (i = .reset ∨ (i = .setRun 0#8 ∧ h.runMode ≠ .off) ∨
          ∃ r a b c d e f k l, i = .applyPreset r a b c d e f k l)))

/-- From R20, R209: engines share nothing. A command reaches no engine but the one addressed, those below it when it
ticks, the master PLUG names, and the master UNPLUG leaves. -/
def Obligations.OtherEnginesAreUntouched : Prop :=
  ∀ (s t : State) (i : Instr) (x : EngineId), Inv s → exec i s = .next t → x ≠ s.target →
    ¬ Below s.engines s.target x → (∀ v, i = .plug v → x ≠ v.toNat) →
    (i = .unplug → masterOf s.engines s.target ≠ some x) →
    t.engines[x]? = s.engines[x]?

/-! The signal bus (20_memory.md, 40_signal_bus.md). -/

/-- R52, R53, R100: READ_LINE responds the bit the address map gives, for every address 0 to 39, and raises
OutOfRangeLine for 40 to 63; it writes nothing. -/
def Obligations.ReadLineFollowsTheAddressMap : Prop :=
  (∀ line : BitVec 6, decode [0x3000#16 ||| line.zeroExtend 16] = .instr (.readLine line)) ∧
  ∀ (s : State) (g : Engine), s.engines[s.target]? = some g →
    let reads (line : Nat) (b : Bool) : Prop :=
      exec (.readLine (BitVec.ofNat 6 line)) s =
        .next { s with responses := s.responses ++ [if b then 0x0001#16 else 0x0000#16] }
    reads 0 false ∧
    reads 1 true ∧
    (∀ k < 5, reads (2 + k) (g.clockCounter.getLsbD k)) ∧
    reads 7 (g.divideBy6Counter.getLsbD 2) ∧
    reads 8 (g.divideBy6Counter.getLsbD 3) ∧
    (∀ k < 31, reads (9 + k) (g.shiftRegister.getLsbD k)) ∧
    (∀ line : BitVec 6, 40 ≤ line.toNat →
      exec (.readLine line) s = .next
        { s with
          responses := s.responses ++ [0x8001#16]
          errors := s.errors ++ [⟨s.target, .outOfRangeLine line⟩] })

/-- From R101, R210: reading a line, the note or a control has no effect on any later response: whatever commands
follow, they answer and leave the engines as they would have without the read. -/
def Obligations.ReadsHaveNoEffectOnLaterResponses : Prop :=
  ∀ (s t u : State) (i : Instr) (js : List Instr),
    ((∃ l, i = .readLine l) ∨ i = .decodeAddr ∨ i = .decodePitch ∨ ∃ sel, i = .getCtl sel) →
    exec i s = .next t → execAll js s = .next u →
    ∃ u' rs, execAll js t = .next u' ∧ u.responses = s.responses ++ rs ∧ u'.responses = t.responses ++ rs ∧
      u'.engines = u.engines

/-! The clock engine (41_clock_engine.md). -/

/-- From R110, R111, R112, R114, R180, R181: TICK, with its cascade complete: the engine addressed advances by R110's
steps, every engine below it reacts by R181 to the one bit it receives, every other engine is as before, and the
response is the pitch of the post-tick bus. -/
def Obligations.TickRunsTheWholeCascade : Prop :=
  decode [0x0800#16] = .instr .tick ∧
  ∀ (s : State) (g : Engine), Inv s → s.engines[s.target]? = some g →
    ∃ t, exec .tick s = .next t ∧
      t.engines.length = s.engines.length ∧
      (∀ x h, s.engines[x]? = some h → t.engines[x]? = some (afterTick s.engines s.target x h)) ∧
      t.responses = s.responses ++ [pitchResponse (tickedEngine g)] ∧
      t.errors = s.errors ∧ t.inbox = s.inbox ∧ t.target = s.target

/-- From R110 to R112: TICK of an engine with no subordinates, in full: its registers, the response, and nothing
else. -/
def Obligations.TickWithoutSubordinates : Prop :=
  ∀ (s : State) (g : Engine), s.engines[s.target]? = some g → g.subs = [] →
    exec .tick s = .next
      { s with
        engines := s.engines.set s.target (tickedEngine g)
        responses := s.responses ++ [pitchResponse (tickedEngine g)] }

/-- R113, R116: RESET sets C = 1, D = 0 and S = 0 of the engine addressed and changes nothing else anywhere: no
broadcast, no DIV, no selector, control or topology field. -/
def Obligations.ResetWritesTheChainOnly : Prop :=
  decode [0x1000#16] = .instr .reset ∧
  ∀ (s : State) (g : Engine), s.engines[s.target]? = some g →
    exec .reset s = .next
      { s with
        engines := s.engines.set s.target
          { g with clockCounter := 1#5, divideBy6Counter := 0#4, shiftRegister := 0#31 }
        responses := s.responses ++ [0x0000#16] }

/-- R117: RESET twice leaves the state that RESET once leaves. -/
def Obligations.ResetTwiceIsResetOnce : Prop :=
  ∀ (s : State) (g : Engine), s.engines[s.target]? = some g →
    ∃ t u, exec .reset s = .next t ∧ exec .reset t = .next u ∧ u.engines = t.engines

/-- R119: TIMER ticks the engine, cascade included, exactly when the transport is on and sequencing is AUTO, or HOLD
with the clock low; otherwise it changes nothing. It responds 0. -/
def Obligations.TimerTicksExactlyThroughItsGate : Prop :=
  decode [0x1800#16] = .instr .timer ∧
  ∀ (s : State) (g : Engine), Inv s → s.engines[s.target]? = some g →
    (¬ timerTicks g → exec .timer s = .next { s with responses := s.responses ++ [0x0000#16] }) ∧
    (timerTicks g → ∃ t, exec .timer s = .next t ∧
      t.engines.length = s.engines.length ∧
      (∀ x h, s.engines[x]? = some h → t.engines[x]? = some (afterTick s.engines s.target x h)) ∧
      t.responses = s.responses ++ [0x0000#16] ∧
      t.errors = s.errors ∧ t.inbox = s.inbox ∧ t.target = s.target)

/-- From R120: an engine in HOLD with the clock high stays still, C[0] = 1, through any run of TIMER and SLAVE_STEP
commands; with the clock low and the transport on, one TIMER ticks it once, to the high phase. -/
def Obligations.HoldParksHigh : Prop :=
  ∀ (s : State) (g : Engine), Inv s → s.engines[s.target]? = some g → g.autoMode = .hold →
    (g.clockCounter.toNat % 2 = 1 →
      ∀ js : List Instr, (∀ j ∈ js, j = .timer ∨ ∃ b, j = .slaveStep b) →
        ∃ t, execAll js s = .next t ∧ t.engines = s.engines) ∧
    (g.clockCounter.toNat % 2 = 0 → g.runMode = .run →
      ∃ t g', exec .timer s = .next t ∧ t.engines[s.target]? = some g' ∧
        g'.clockCounter = g.clockCounter + 1#5 ∧ g'.clockCounter.toNat % 2 = 1 ∧ g'.autoMode = .hold)

/-- R125: STEP_PRESS puts the sequencing switch in STEP and ticks the engine once, whatever runMode and autoMode are,
cascade included; it responds 0. -/
def Obligations.StepPressEntersStepAndTicks : Prop :=
  decode [0x2000#16] = .instr .stepPress ∧
  ∀ (s : State) (g : Engine), Inv s → s.engines[s.target]? = some g →
    ∃ t, exec .stepPress s = .next t ∧
      t.engines.length = s.engines.length ∧
      (∀ x h, s.engines[x]? = some h → t.engines[x]? = some
        (if x = s.target then tickedEngine { g with autoMode := .step } else afterTick s.engines s.target x h)) ∧
      t.responses = s.responses ++ [0x0000#16] ∧
      t.errors = s.errors ∧ t.inbox = s.inbox ∧ t.target = s.target

/-- R126: STEP_RELEASE is refused unless autoMode is STEP; otherwise it leaves autoMode = HOLD, and ticks the engine
once more exactly when the clock phase bit is 0. -/
def Obligations.StepReleaseEntersHoldAndParks : Prop :=
  decode [0x2800#16] = .instr .stepRelease ∧
  ∀ (s : State) (g : Engine), Inv s → s.engines[s.target]? = some g →
    (g.autoMode ≠ .step → exec .stepRelease s = .next
      { s with
        responses := s.responses ++ [0x8003#16]
        errors := s.errors ++ [⟨s.target, .invalidControlValue (if g.autoMode = .hold then 1#8 else 0#8)⟩] }) ∧
    (g.autoMode = .step → g.clockCounter.toNat % 2 = 1 → exec .stepRelease s = .next
      { s with
        engines := s.engines.set s.target { g with autoMode := .hold }
        responses := s.responses ++ [0x0000#16] }) ∧
    (g.autoMode = .step → g.clockCounter.toNat % 2 = 0 → ∃ t, exec .stepRelease s = .next t ∧
      t.engines.length = s.engines.length ∧
      (∀ x h, s.engines[x]? = some h → t.engines[x]? = some
        (if x = s.target then tickedEngine { g with autoMode := .hold } else afterTick s.engines s.target x h)) ∧
      t.responses = s.responses ++ [0x0000#16] ∧
      t.errors = s.errors ∧ t.inbox = s.inbox ∧ t.target = s.target)

/-- R127: a press and release starting with the clock high ticks exactly twice, over one falling edge; starting with
the clock low, once, over none; both end with the clock high and autoMode = HOLD. -/
def Obligations.PressAndReleaseEndsHighInHold : Prop :=
  ∀ (s : State) (g : Engine), Inv s → s.engines[s.target]? = some g →
    ∃ t u g', exec .stepPress s = .next t ∧ exec .stepRelease t = .next u ∧ u.engines[s.target]? = some g' ∧
      g'.autoMode = .hold ∧ g'.clockCounter.toNat % 2 = 1 ∧
      (g.clockCounter.toNat % 2 = 1 →
        g'.clockCounter = g.clockCounter + 2#5 ∧
        g'.divideBy6Counter = div6Table.getD g.divideBy6Counter.toNat 0#4 ∧
        g'.shiftRegister = (tickedEngine g).shiftRegister) ∧
      (g.clockCounter.toNat % 2 = 0 →
        g'.clockCounter = g.clockCounter + 1#5 ∧
        g'.divideBy6Counter = g.divideBy6Counter ∧ g'.shiftRegister = g.shiftRegister)

/-- From R128, R129: after n TICK commands C has counted n modulo 32, D has taken one step of R111's table per falling
edge, and S has shifted once per falling edge. -/
def Obligations.CountersAfterAnyNumberOfTicks : Prop :=
  ∀ (s : State) (g : Engine) (n : Nat), Inv s → s.engines[s.target]? = some g →
    ∃ t g', execAll (List.replicate n .tick) s = .next t ∧ t.engines[s.target]? = some g' ∧
      g'.clockCounter.toNat = (g.clockCounter.toNat + n) % 32 ∧
      g'.divideBy6Counter =
        Nat.repeat (fun d => div6Table.getD d.toNat 0#4) (fallingEdges g.clockCounter.toNat n) g.divideBy6Counter ∧
      (∀ j, j + fallingEdges g.clockCounter.toNat n < 31 →
        g'.shiftRegister.getLsbD (j + fallingEdges g.clockCounter.toNat n) = g.shiftRegister.getLsbD j)

/-- From R130, R23: the clock lines n ticks after a RESET: C counts from 1, D runs through its 12-value cycle, line 7
follows 0,0,0,1,1,1 and line 8 six 0s and six 1s over the falling edges. -/
def Obligations.ClockLinesAfterReset : Prop :=
  ∀ (s : State) (g : Engine) (n : Nat), Inv s → s.engines[s.target]? = some g →
    ∃ t g', execAll (.reset :: List.replicate n .tick) s = .next t ∧ t.engines[s.target]? = some g' ∧
      g'.clockCounter.toNat = (1 + n) % 32 ∧
      dividerCycle[(n + 1) / 2 % 12]? = some g'.divideBy6Counter ∧
      (∀ j, (hj : j < 5) → g'.line ⟨2 + j, by omega⟩ = decide ((1 + n) / 2 ^ j % 2 = 1)) ∧
      g'.line 7 = decide (3 ≤ (n + 1) / 2 % 6) ∧
      g'.line 8 = decide (6 ≤ (n + 1) / 2 % 12)

/-- From R23: once no engine's D is 2, 6, 10 or 14, as after a reset of each, none ever is again. -/
def Obligations.DividerStaysOnItsCycle : Prop :=
  ∀ s t : State, Inv s → step s = .next t →
    (∀ g ∈ s.engines, g.divideBy6Counter ∈ dividerCycle) → ∀ g ∈ t.engines, g.divideBy6Counter ∈ dividerCycle

/-! The note decoder (42_note_decoder.md). -/

/-- R140, R141: DECODE_ADDR responds the four interval lines as a number, interval[0] in bit 0, and changes
nothing. -/
def Obligations.DecodeAddrRespondsTheNoteAddress : Prop :=
  decode [0x3800#16] = .instr .decodeAddr ∧
  ∀ (s : State) (g : Engine), s.engines[s.target]? = some g →
    exec .decodeAddr s = .next { s with responses := s.responses ++ [BitVec.ofNat 16 (noteAddress g)] }

/-- R144, R145: DECODE_PITCH responds the pitch of the address-to-pitch table, 0x80 for a rest exactly when the address
is 0 and restEnabled is 0, and changes nothing. -/
def Obligations.DecodePitchFollowsTheTable : Prop :=
  decode [0x4000#16] = .instr .decodePitch ∧
  ∀ (s : State) (g : Engine), s.engines[s.target]? = some g →
    exec .decodePitch s = .next { s with responses := s.responses ++ [pitchResponse g] } ∧
    noteAddress g < 16 ∧
    (pitchResponse g = 0x0080#16 ↔ noteAddress g = 0 ∧ g.restEnabled = false) ∧
    (pitchResponse g ≠ 0x0080#16 → (pitchResponse g).toNat ≤ 24)

/-! The preset loader and the control registers (43_patch_config.md). -/

/-- R151, R152, R153: APPLY_PRESET with eight legal codes writes the selectors and restEnabled and resets the engine,
and changes nothing else; with an illegal code it reports the first one, and nothing changes. -/
def Obligations.ApplyPresetLoadsOrReportsTheFirstBadName : Prop :=
  (∀ (rest : Bool) (i0 i1 i2 i3 t0 t1 t2 t3 : BitVec 6),
    let ext (a b : BitVec 6) : Word := a.zeroExtend 16 <<< 8 ||| b.zeroExtend 16
    decode [if rest then 0xA801#16 else 0xA800#16, ext i0 i1, ext i2 i3, ext t0 t1, ext t2 t3] =
      .instr (.applyPreset rest i0 i1 i2 i3 t0 t1 t2 t3)) ∧
  ∀ (s : State) (g : Engine) (rest : Bool), s.engines[s.target]? = some g →
    (∀ iv tv : Vector LineAddr 4,
      let code (l : LineAddr) : BitVec 6 := BitVec.ofNat 6 l.val
      exec (.applyPreset rest (code iv[0]) (code iv[1]) (code iv[2]) (code iv[3])
          (code tv[0]) (code tv[1]) (code tv[2]) (code tv[3])) s = .next
        { s with
          engines := s.engines.set s.target
            { g with
              interval := iv, theme := tv, restEnabled := rest
              clockCounter := 1#5, divideBy6Counter := 0#4, shiftRegister := 0#31 }
          responses := s.responses ++ [0x0000#16] }) ∧
    (∀ (i0 i1 i2 i3 t0 t1 t2 t3 c : BitVec 6) (k : Nat),
      [i0, i1, i2, i3, t0, t1, t2, t3][k]? = some c → 40 ≤ c.toNat →
      (∀ j < k, ∀ d, [i0, i1, i2, i3, t0, t1, t2, t3][j]? = some d → d.toNat ≤ 39) →
      exec (.applyPreset rest i0 i1 i2 i3 t0 t1 t2 t3) s = .next
        { s with
          responses := s.responses ++ [0x8002#16]
          errors := s.errors ++ [⟨s.target, .invalidSwitchName k c⟩] })

/-- R158, R159: SET_INTERVAL and SET_THEME write one selector and nothing else; for line 40 to 63 they raise
InvalidControlValue and nothing changes. -/
def Obligations.SelectorSettersWriteOneSlot : Prop :=
  (∀ (idx : BitVec 2) (line : BitVec 6),
    decode [0x4800#16 ||| idx.zeroExtend 16 <<< 9 ||| line.zeroExtend 16] = .instr (.setInterval idx line) ∧
    decode [0x5000#16 ||| idx.zeroExtend 16 <<< 9 ||| line.zeroExtend 16] = .instr (.setTheme idx line)) ∧
  ∀ (s : State) (g : Engine) (idx : BitVec 2) (line : BitVec 6), s.engines[s.target]? = some g →
    (∀ hl : line.toNat < 40,
      exec (.setInterval idx line) s = .next
        { s with
          engines := s.engines.set s.target
            { g with interval := g.interval.set idx.toNat ⟨line.toNat, hl⟩ idx.isLt }
          responses := s.responses ++ [0x0000#16] } ∧
      exec (.setTheme idx line) s = .next
        { s with
          engines := s.engines.set s.target { g with theme := g.theme.set idx.toNat ⟨line.toNat, hl⟩ idx.isLt }
          responses := s.responses ++ [0x0000#16] }) ∧
    (40 ≤ line.toNat → ∀ i, i = .setInterval idx line ∨ i = .setTheme idx line →
      exec i s = .next
        { s with
          responses := s.responses ++ [0x8003#16]
          errors := s.errors ++ [⟨s.target, .invalidControlValue (line.zeroExtend 8)⟩] })

/-- R162: SET_REST writes restEnabled and nothing else; no reset. -/
def Obligations.SetRestWritesRestEnabled : Prop :=
  decode [0x5801#16] = .instr (.setRest true) ∧ decode [0x5800#16] = .instr (.setRest false) ∧
  ∀ (s : State) (g : Engine) (b : Bool), s.engines[s.target]? = some g →
    exec (.setRest b) s = .next
      { s with
        engines := s.engines.set s.target { g with restEnabled := b }
        responses := s.responses ++ [0x0000#16] }

/-- R160: SET_RUN writes the transport switch; entering OFF from another position resets the engine, and no other
write does; values 3 to 255 are refused. -/
def Obligations.SetRunResetsOnEnteringOff : Prop :=
  (∀ v : BitVec 8, decode [0x6000#16 ||| v.zeroExtend 16] = .instr (.setRun v)) ∧
  ∀ (s : State) (g : Engine) (v : BitVec 8), s.engines[s.target]? = some g →
    let becomes (g' : Engine) : Prop :=
      exec (.setRun v) s = .next
        { s with engines := s.engines.set s.target g', responses := s.responses ++ [0x0000#16] }
    (v.toNat = 0 → g.runMode ≠ .off → becomes
      { g with runMode := .off, clockCounter := 1#5, divideBy6Counter := 0#4, shiftRegister := 0#31 }) ∧
    (v.toNat = 0 → g.runMode = .off → becomes { g with runMode := .off }) ∧
    (v.toNat = 1 → becomes { g with runMode := .run }) ∧
    (v.toNat = 2 → becomes { g with runMode := .start }) ∧
    (3 ≤ v.toNat → exec (.setRun v) s = .next
      { s with
        responses := s.responses ++ [0x8003#16]
        errors := s.errors ++ [⟨s.target, .invalidControlValue v⟩] })

/-- R161: SET_SEQ writes AUTO or HOLD and does not tick; values 2 to 255, STEP among them, are refused. -/
def Obligations.SetSeqWritesAutoOrHold : Prop :=
  (∀ v : BitVec 8, decode [0x6800#16 ||| v.zeroExtend 16] = .instr (.setSeq v)) ∧
  ∀ (s : State) (g : Engine) (v : BitVec 8), s.engines[s.target]? = some g →
    let becomes (m : AutoMode) : Prop :=
      exec (.setSeq v) s = .next
        { s with
          engines := s.engines.set s.target { g with autoMode := m }
          responses := s.responses ++ [0x0000#16] }
    (v.toNat = 0 → becomes .auto) ∧
    (v.toNat = 1 → becomes .hold) ∧
    (2 ≤ v.toNat → exec (.setSeq v) s = .next
      { s with
        responses := s.responses ++ [0x8003#16]
        errors := s.errors ++ [⟨s.target, .invalidControlValue v⟩] })

/-- R163, R164, R165: SET_TEMPO, SET_VOLUME and SET_PITCHCTL write their control, 0 to 49, and nothing else; values 50
to 255 are refused. -/
def Obligations.LevelSettersWriteTheirControl : Prop :=
  (∀ v : BitVec 8,
    decode [0x7000#16 ||| v.zeroExtend 16] = .instr (.setTempo v) ∧
    decode [0x7800#16 ||| v.zeroExtend 16] = .instr (.setVolume v) ∧
    decode [0x8000#16 ||| v.zeroExtend 16] = .instr (.setPitchCtl v)) ∧
  ∀ (s : State) (g : Engine) (v : BitVec 8), s.engines[s.target]? = some g →
    let becomes (i : Instr) (g' : Engine) : Prop :=
      exec i s = .next { s with engines := s.engines.set s.target g', responses := s.responses ++ [0x0000#16] }
    (∀ hv : v.toNat < 50,
      becomes (.setTempo v) { g with tempo := ⟨v.toNat, hv⟩ } ∧
      becomes (.setVolume v) { g with volume := ⟨v.toNat, hv⟩ } ∧
      becomes (.setPitchCtl v) { g with pitchControl := ⟨v.toNat, hv⟩ }) ∧
    (50 ≤ v.toNat → ∀ i, i = .setTempo v ∨ i = .setVolume v ∨ i = .setPitchCtl v →
      exec i s = .next
        { s with
          responses := s.responses ++ [0x8003#16]
          errors := s.errors ++ [⟨s.target, .invalidControlValue v⟩] })

/-- R167: what each of the sixteen GET_CTL selectors responds; nothing changes. -/
def Obligations.GetCtlReadsEachControl : Prop :=
  (∀ sel : BitVec 4, decode [0xB000#16 ||| sel.zeroExtend 16] = .instr (.getCtl sel)) ∧
  ∀ (s : State) (g : Engine), Inv s → s.engines[s.target]? = some g →
    let reads (sel : Nat) (n : Nat) : Prop :=
      n < 256 ∧ exec (.getCtl (BitVec.ofNat 4 sel)) s =
        .next { s with responses := s.responses ++ [BitVec.ofNat 16 n] }
    (∀ k, (hk : k < 4) → reads k g.interval[k].val) ∧
    (∀ k, (hk : k < 4) → reads (4 + k) g.theme[k].val) ∧
    reads 8 g.restEnabled.toNat ∧
    reads 9 (match g.runMode with | .off => 0 | .run => 1 | .start => 2) ∧
    reads 10 (match g.autoMode with | .auto => 0 | .hold => 1 | .step => 2) ∧
    reads 11 g.tempo.val ∧
    reads 12 g.volume.val ∧
    reads 13 g.pitchControl.val ∧
    reads 14 g.slaveMode.toNat ∧
    (g.master = none → reads 15 0xFF) ∧
    (∀ m, g.master = some m → m < 0xFF ∧ reads 15 m)

/-! The synchroniser (44_sync.md). -/

/-- R181, R182: SLAVE_STEP: the engine addressed reacts to the bit by R181, and if that ticks it, the cascade below it
runs; it responds 0. -/
def Obligations.SlaveStepReactsToTheBit : Prop :=
  decode [0x9001#16] = .instr (.slaveStep true) ∧ decode [0x9000#16] = .instr (.slaveStep false) ∧
  ∀ (s : State) (g : Engine) (b : Bool), Inv s → s.engines[s.target]? = some g →
    ∃ t, exec (.slaveStep b) s = .next t ∧
      t.engines.length = s.engines.length ∧
      (∀ x h, s.engines[x]? = some h → t.engines[x]? = some
        (if x = s.target then bitReaction g b
         else if bitTicks g b then afterTick s.engines s.target x h else h)) ∧
      t.responses = s.responses ++ [0x0000#16] ∧
      t.errors = s.errors ∧ t.inbox = s.inbox ∧ t.target = s.target

/-- R185: SET_SLAVEMODE writes slaveMode, every value legal, and nothing else; DIV is kept. -/
def Obligations.SetSlaveModeWritesSlaveMode : Prop :=
  (∀ v : BitVec 8, decode [0x8800#16 ||| v.zeroExtend 16] = .instr (.setSlaveMode v)) ∧
  ∀ (s : State) (g : Engine) (v : BitVec 8), s.engines[s.target]? = some g →
    exec (.setSlaveMode v) s = .next
      { s with
        engines := s.engines.set s.target { g with slaveMode := v }
        responses := s.responses ++ [0x0000#16] }

/-- R186: PLUG raises SyncTopologyError for an unknown master, the engine itself, an engine that has a master, and an
attachment that would make a cycle; otherwise it attaches the engine, last in the master's list, and changes nothing
else. -/
def Obligations.PlugAttachesOrRefuses : Prop :=
  (∀ v : BitVec 8, decode [0x9800#16 ||| v.zeroExtend 16] = .instr (.plug v)) ∧
  ∀ (s : State) (g : Engine) (v : BitVec 8), Inv s → s.engines[s.target]? = some g →
    ((s.engines.length ≤ v.toNat ∨ v.toNat = s.target ∨ g.master ≠ none ∨ Below s.engines s.target v.toNat) →
      exec (.plug v) s = .next
        { s with
          responses := s.responses ++ [0x8005#16]
          errors := s.errors ++ [⟨s.target, .syncTopologyError v⟩] }) ∧
    (∀ h, s.engines[v.toNat]? = some h → v.toNat ≠ s.target → g.master = none →
      ¬ Below s.engines s.target v.toNat →
      exec (.plug v) s = .next
        { s with
          engines := (s.engines.set s.target { g with master := some v.toNat }).set v.toNat
            { h with subs := h.subs ++ [s.target] }
          responses := s.responses ++ [0x0000#16] })

/-- R188: UNPLUG takes the engine out of its master's list, the others keeping their order, leaves it with no master
and slaveMode 0, and changes nothing else; with no master it only clears slaveMode. -/
def Obligations.UnplugDetaches : Prop :=
  decode [0xA000#16] = .instr .unplug ∧
  ∀ (s : State) (g : Engine), Inv s → s.engines[s.target]? = some g →
    (g.master = none → exec .unplug s = .next
      { s with
        engines := s.engines.set s.target { g with slaveMode := 0#8 }
        responses := s.responses ++ [0x0000#16] }) ∧
    (∀ m, g.master = some m → ∃ h, s.engines[m]? = some h ∧ m ≠ s.target ∧ s.target ∈ h.subs ∧
      exec .unplug s = .next
        { s with
          engines := (s.engines.set m { h with subs := h.subs.erase s.target }).set s.target
            { g with master := none, slaveMode := 0#8 }
          responses := s.responses ++ [0x0000#16] })

/-- From R183: a unison subordinate in AUTO ticks at its master's TICK exactly when it was in phase with the master
before it, and is in phase afterwards whether it was or not. -/
def Obligations.UnisonSubordinateEndsInPhase : Prop :=
  ∀ (s : State) (g h : Engine) (x : EngineId), Inv s → s.engines[s.target]? = some g → s.engines[x]? = some h →
    h.master = some s.target → h.autoMode = .auto → h.slaveMode = 1#8 →
    ∃ t g' h', exec .tick s = .next t ∧ t.engines[s.target]? = some g' ∧ t.engines[x]? = some h' ∧
      h'.clockCounter.toNat % 2 = g'.clockCounter.toNat % 2 ∧
      (h.clockCounter.toNat % 2 = g.clockCounter.toNat % 2 → h' = tickedEngine h) ∧
      (h.clockCounter.toNat % 2 ≠ g.clockCounter.toNat % 2 → h' = h)

/-- From R184: a divided subordinate in AUTO with DIV = 0, under a master whose clock is high, over n TICKs of the
master: for odd N it ticks n / N times, for even N (n − 1) / N times. -/
def Obligations.DividedSubordinateTicksOncePerN : Prop :=
  ∀ (s : State) (g h : Engine) (x : EngineId) (n : Nat), Inv s → s.engines[s.target]? = some g →
    g.clockCounter.toNat % 2 = 1 → s.engines[x]? = some h → h.master = some s.target → h.autoMode = .auto →
    2 ≤ h.slaveMode.toNat → h.slaveClockDivider = 0#8 →
    ∃ t h', execAll (List.replicate n .tick) s = .next t ∧ t.engines[x]? = some h' ∧
      h'.clockCounter.toNat =
        (h.clockCounter.toNat +
          (if h.slaveMode.toNat % 2 = 1 then n / h.slaveMode.toNat else (n - 1) / h.slaveMode.toNat)) % 32

/-- From R246: no state shows the order in which subordinates were registered. In two states that differ only in that
order, in any of the lists, every instruction and every step answer the same response, the same record and the same
engines, again but for that order; so no sequence of commands, to any engines, tells the two apart. -/
def Obligations.RegistrationOrderIsInvisible : Prop :=
  ∀ s s' t : State, Inv s → sameButForOrder s s' →
    (∀ i : Instr, exec i s = .next t → ∃ t', exec i s' = .next t' ∧ sameButForOrder t t') ∧
    (step s = .next t → ∃ t', step s' = .next t' ∧ sameButForOrder t t')

/-! The host's assembler (43_patch_config.md R150, 30_encoding.md R91). -/

/-- R150: the fixed 40-entry name table: each name has the code of its address, Bn has code 8 + n, and a name outside
the table has none. -/
def Obligations.SwitchNamesHaveTheirCodes : Prop :=
  switchNames.length = 40 ∧
  (∀ k, (hk : k < switchNames.length) → switchCode switchNames[k] = some (BitVec.ofNat 6 k)) ∧
  (switchCode "OFF" = some 0#6 ∧ switchCode "ON" = some 1#6 ∧ switchCode "C 1/2" = some 2#6 ∧
    switchCode "C1" = some 3#6 ∧ switchCode "C2" = some 4#6 ∧ switchCode "C4" = some 5#6 ∧
    switchCode "C8" = some 6#6 ∧ switchCode "C3" = some 7#6 ∧ switchCode "C6" = some 8#6) ∧
  (∀ n, 1 ≤ n → n ≤ 31 → switchCode ("B" ++ toString n) = some (BitVec.ofNat 6 (8 + n))) ∧
  (∀ name, name ∉ switchNames → switchCode name = none)

/-- R91: the expansions of the pseudo-instructions. -/
def Obligations.PseudoInstructionsExpand : Prop :=
  assemble "STEP" [] = some [.stepPress, .stepRelease] ∧
  (∀ n, assemble "TICKS" [.number n] = some (List.replicate n .tick)) ∧
  (∀ name, assemble "READ" [.quoted name] = assemble "READ_LINE" [.quoted name])
end

