-- ==== Sys2Proof/Laws/State.lean ====
section
/-! SUPPORT. What each named update leaves in each field, one lemma per field, so that no proof unfolds an update. -/

namespace Sys2Proof.Machine

/-! The updates of State. -/

@[simp] theorem State.putEngine_engines (s : State) (g : Engine) : (s.putEngine g).engines = s.engines.set s.target g := rfl
@[simp] theorem State.putEngine_target (s : State) (g : Engine) : (s.putEngine g).target = s.target := rfl
@[simp] theorem State.putEngine_inbox (s : State) (g : Engine) : (s.putEngine g).inbox = s.inbox := rfl
@[simp] theorem State.putEngine_responses (s : State) (g : Engine) : (s.putEngine g).responses = s.responses := rfl
@[simp] theorem State.putEngine_errors (s : State) (g : Engine) : (s.putEngine g).errors = s.errors := rfl

@[simp] theorem State.putEngines_engines (s : State) (es : List Engine) : (s.putEngines es).engines = es := rfl
@[simp] theorem State.putEngines_target (s : State) (es : List Engine) : (s.putEngines es).target = s.target := rfl
@[simp] theorem State.putEngines_inbox (s : State) (es : List Engine) : (s.putEngines es).inbox = s.inbox := rfl
@[simp] theorem State.putEngines_responses (s : State) (es : List Engine) : (s.putEngines es).responses = s.responses := rfl
@[simp] theorem State.putEngines_errors (s : State) (es : List Engine) : (s.putEngines es).errors = s.errors := rfl

@[simp] theorem State.respond_engines (s : State) (v : BitVec 8) : (s.respond v).engines = s.engines := rfl
@[simp] theorem State.respond_target (s : State) (v : BitVec 8) : (s.respond v).target = s.target := rfl
@[simp] theorem State.respond_inbox (s : State) (v : BitVec 8) : (s.respond v).inbox = s.inbox := rfl
@[simp] theorem State.respond_responses (s : State) (v : BitVec 8) : (s.respond v).responses = s.responses ++ [successWord v] := rfl
@[simp] theorem State.respond_errors (s : State) (v : BitVec 8) : (s.respond v).errors = s.errors := rfl

@[simp] theorem State.raiseError_engines (s : State) (k : CommandError) : (s.raiseError k).engines = s.engines := rfl
@[simp] theorem State.raiseError_target (s : State) (k : CommandError) : (s.raiseError k).target = s.target := rfl
@[simp] theorem State.raiseError_inbox (s : State) (k : CommandError) : (s.raiseError k).inbox = s.inbox := rfl
@[simp] theorem State.raiseError_responses (s : State) (k : CommandError) : (s.raiseError k).responses = s.responses ++ [errorWord k.code] := rfl
@[simp] theorem State.raiseError_errors (s : State) (k : CommandError) : (s.raiseError k).errors = s.errors ++ [⟨s.target, k⟩] := rfl

/-! The updates of an engine. -/

@[simp] theorem Engine.resetChain_clockCounter (g : Engine) : (g.resetChain).clockCounter = 1#5 := rfl
@[simp] theorem Engine.resetChain_divideBy6Counter (g : Engine) : (g.resetChain).divideBy6Counter = 0#4 := rfl
@[simp] theorem Engine.resetChain_shiftRegister (g : Engine) : (g.resetChain).shiftRegister = 0#31 := rfl
@[simp] theorem Engine.resetChain_interval (g : Engine) : (g.resetChain).interval = g.interval := rfl
@[simp] theorem Engine.resetChain_theme (g : Engine) : (g.resetChain).theme = g.theme := rfl
@[simp] theorem Engine.resetChain_restEnabled (g : Engine) : (g.resetChain).restEnabled = g.restEnabled := rfl
@[simp] theorem Engine.resetChain_runMode (g : Engine) : (g.resetChain).runMode = g.runMode := rfl
@[simp] theorem Engine.resetChain_autoMode (g : Engine) : (g.resetChain).autoMode = g.autoMode := rfl
@[simp] theorem Engine.resetChain_tempo (g : Engine) : (g.resetChain).tempo = g.tempo := rfl
@[simp] theorem Engine.resetChain_volume (g : Engine) : (g.resetChain).volume = g.volume := rfl
@[simp] theorem Engine.resetChain_pitchControl (g : Engine) : (g.resetChain).pitchControl = g.pitchControl := rfl
@[simp] theorem Engine.resetChain_slaveMode (g : Engine) : (g.resetChain).slaveMode = g.slaveMode := rfl
@[simp] theorem Engine.resetChain_slaveClockDivider (g : Engine) : (g.resetChain).slaveClockDivider = g.slaveClockDivider := rfl
@[simp] theorem Engine.resetChain_master (g : Engine) : (g.resetChain).master = g.master := rfl
@[simp] theorem Engine.resetChain_subs (g : Engine) : (g.resetChain).subs = g.subs := rfl

@[simp] theorem Engine.countBit_clockCounter (g : Engine) : (g.countBit).clockCounter = g.clockCounter := rfl
@[simp] theorem Engine.countBit_divideBy6Counter (g : Engine) : (g.countBit).divideBy6Counter = g.divideBy6Counter := rfl
@[simp] theorem Engine.countBit_shiftRegister (g : Engine) : (g.countBit).shiftRegister = g.shiftRegister := rfl
@[simp] theorem Engine.countBit_interval (g : Engine) : (g.countBit).interval = g.interval := rfl
@[simp] theorem Engine.countBit_theme (g : Engine) : (g.countBit).theme = g.theme := rfl
@[simp] theorem Engine.countBit_restEnabled (g : Engine) : (g.countBit).restEnabled = g.restEnabled := rfl
@[simp] theorem Engine.countBit_runMode (g : Engine) : (g.countBit).runMode = g.runMode := rfl
@[simp] theorem Engine.countBit_autoMode (g : Engine) : (g.countBit).autoMode = g.autoMode := rfl
@[simp] theorem Engine.countBit_tempo (g : Engine) : (g.countBit).tempo = g.tempo := rfl
@[simp] theorem Engine.countBit_volume (g : Engine) : (g.countBit).volume = g.volume := rfl
@[simp] theorem Engine.countBit_pitchControl (g : Engine) : (g.countBit).pitchControl = g.pitchControl := rfl
@[simp] theorem Engine.countBit_slaveMode (g : Engine) : (g.countBit).slaveMode = g.slaveMode := rfl
@[simp] theorem Engine.countBit_slaveClockDivider (g : Engine) : (g.countBit).slaveClockDivider = saturatingSucc g.slaveClockDivider := rfl
@[simp] theorem Engine.countBit_master (g : Engine) : (g.countBit).master = g.master := rfl
@[simp] theorem Engine.countBit_subs (g : Engine) : (g.countBit).subs = g.subs := rfl

@[simp] theorem Engine.loadPreset_clockCounter (g : Engine) (r : Bool) (i t : Vector LineAddr 4) : (g.loadPreset r i t).clockCounter = 1#5 := rfl
@[simp] theorem Engine.loadPreset_divideBy6Counter (g : Engine) (r : Bool) (i t : Vector LineAddr 4) : (g.loadPreset r i t).divideBy6Counter = 0#4 := rfl
@[simp] theorem Engine.loadPreset_shiftRegister (g : Engine) (r : Bool) (i t : Vector LineAddr 4) : (g.loadPreset r i t).shiftRegister = 0#31 := rfl
@[simp] theorem Engine.loadPreset_interval (g : Engine) (r : Bool) (i t : Vector LineAddr 4) : (g.loadPreset r i t).interval = i := rfl
@[simp] theorem Engine.loadPreset_theme (g : Engine) (r : Bool) (i t : Vector LineAddr 4) : (g.loadPreset r i t).theme = t := rfl
@[simp] theorem Engine.loadPreset_restEnabled (g : Engine) (r : Bool) (i t : Vector LineAddr 4) : (g.loadPreset r i t).restEnabled = r := rfl
@[simp] theorem Engine.loadPreset_runMode (g : Engine) (r : Bool) (i t : Vector LineAddr 4) : (g.loadPreset r i t).runMode = g.runMode := rfl
@[simp] theorem Engine.loadPreset_autoMode (g : Engine) (r : Bool) (i t : Vector LineAddr 4) : (g.loadPreset r i t).autoMode = g.autoMode := rfl
@[simp] theorem Engine.loadPreset_tempo (g : Engine) (r : Bool) (i t : Vector LineAddr 4) : (g.loadPreset r i t).tempo = g.tempo := rfl
@[simp] theorem Engine.loadPreset_volume (g : Engine) (r : Bool) (i t : Vector LineAddr 4) : (g.loadPreset r i t).volume = g.volume := rfl
@[simp] theorem Engine.loadPreset_pitchControl (g : Engine) (r : Bool) (i t : Vector LineAddr 4) : (g.loadPreset r i t).pitchControl = g.pitchControl := rfl
@[simp] theorem Engine.loadPreset_slaveMode (g : Engine) (r : Bool) (i t : Vector LineAddr 4) : (g.loadPreset r i t).slaveMode = g.slaveMode := rfl
@[simp] theorem Engine.loadPreset_slaveClockDivider (g : Engine) (r : Bool) (i t : Vector LineAddr 4) : (g.loadPreset r i t).slaveClockDivider = g.slaveClockDivider := rfl
@[simp] theorem Engine.loadPreset_master (g : Engine) (r : Bool) (i t : Vector LineAddr 4) : (g.loadPreset r i t).master = g.master := rfl
@[simp] theorem Engine.loadPreset_subs (g : Engine) (r : Bool) (i t : Vector LineAddr 4) : (g.loadPreset r i t).subs = g.subs := rfl

/-! The fields a tick leaves alone, and those it writes (R110). -/

@[simp] theorem Engine.advance_clockCounter (g : Engine) : g.advance.clockCounter = g.clockCounter + 1#5 := rfl
@[simp] theorem Engine.advance_divideBy6Counter (g : Engine) : g.advance.divideBy6Counter =
    if isFallingEdge (g.clockCounter + 1#5) then div6Next g.divideBy6Counter else g.divideBy6Counter := rfl
@[simp] theorem Engine.advance_shiftRegister (g : Engine) : g.advance.shiftRegister =
    if isFallingEdge (g.clockCounter + 1#5) then shiftIn g.shiftRegister g.feedback else g.shiftRegister := rfl
@[simp] theorem Engine.advance_interval (g : Engine) : g.advance.interval = g.interval := rfl
@[simp] theorem Engine.advance_theme (g : Engine) : g.advance.theme = g.theme := rfl
@[simp] theorem Engine.advance_restEnabled (g : Engine) : g.advance.restEnabled = g.restEnabled := rfl
@[simp] theorem Engine.advance_runMode (g : Engine) : g.advance.runMode = g.runMode := rfl
@[simp] theorem Engine.advance_autoMode (g : Engine) : g.advance.autoMode = g.autoMode := rfl
@[simp] theorem Engine.advance_tempo (g : Engine) : g.advance.tempo = g.tempo := rfl
@[simp] theorem Engine.advance_volume (g : Engine) : g.advance.volume = g.volume := rfl
@[simp] theorem Engine.advance_pitchControl (g : Engine) : g.advance.pitchControl = g.pitchControl := rfl
@[simp] theorem Engine.advance_slaveMode (g : Engine) : g.advance.slaveMode = g.slaveMode := rfl
@[simp] theorem Engine.advance_slaveClockDivider (g : Engine) : g.advance.slaveClockDivider = 0#8 := rfl
@[simp] theorem Engine.advance_master (g : Engine) : g.advance.master = g.master := rfl
@[simp] theorem Engine.advance_subs (g : Engine) : g.advance.subs = g.subs := rfl

/-! The transport switch (R160): only C, D, S and runMode can change. -/

@[simp] theorem Engine.setRun_clockCounter (g : Engine) (m : RunMode) : (g.setRun m).clockCounter =
    if m = .off ∧ g.runMode ≠ .off then 1#5 else g.clockCounter := by
  unfold Engine.setRun; split <;> rfl
@[simp] theorem Engine.setRun_divideBy6Counter (g : Engine) (m : RunMode) : (g.setRun m).divideBy6Counter =
    if m = .off ∧ g.runMode ≠ .off then 0#4 else g.divideBy6Counter := by
  unfold Engine.setRun; split <;> rfl
@[simp] theorem Engine.setRun_shiftRegister (g : Engine) (m : RunMode) : (g.setRun m).shiftRegister =
    if m = .off ∧ g.runMode ≠ .off then 0#31 else g.shiftRegister := by
  unfold Engine.setRun; split <;> rfl
@[simp] theorem Engine.setRun_interval (g : Engine) (m : RunMode) : (g.setRun m).interval = g.interval := by
  unfold Engine.setRun; split <;> rfl
@[simp] theorem Engine.setRun_theme (g : Engine) (m : RunMode) : (g.setRun m).theme = g.theme := by
  unfold Engine.setRun; split <;> rfl
@[simp] theorem Engine.setRun_restEnabled (g : Engine) (m : RunMode) : (g.setRun m).restEnabled = g.restEnabled := by
  unfold Engine.setRun; split <;> rfl
@[simp] theorem Engine.setRun_runMode (g : Engine) (m : RunMode) : (g.setRun m).runMode = m := by
  unfold Engine.setRun; split <;> rfl
@[simp] theorem Engine.setRun_autoMode (g : Engine) (m : RunMode) : (g.setRun m).autoMode = g.autoMode := by
  unfold Engine.setRun; split <;> rfl
@[simp] theorem Engine.setRun_tempo (g : Engine) (m : RunMode) : (g.setRun m).tempo = g.tempo := by
  unfold Engine.setRun; split <;> rfl
@[simp] theorem Engine.setRun_volume (g : Engine) (m : RunMode) : (g.setRun m).volume = g.volume := by
  unfold Engine.setRun; split <;> rfl
@[simp] theorem Engine.setRun_pitchControl (g : Engine) (m : RunMode) : (g.setRun m).pitchControl = g.pitchControl := by
  unfold Engine.setRun; split <;> rfl
@[simp] theorem Engine.setRun_slaveMode (g : Engine) (m : RunMode) : (g.setRun m).slaveMode = g.slaveMode := by
  unfold Engine.setRun; split <;> rfl
@[simp] theorem Engine.setRun_slaveClockDivider (g : Engine) (m : RunMode) : (g.setRun m).slaveClockDivider = g.slaveClockDivider := by
  unfold Engine.setRun; split <;> rfl
@[simp] theorem Engine.setRun_master (g : Engine) (m : RunMode) : (g.setRun m).master = g.master := by
  unfold Engine.setRun; split <;> rfl
@[simp] theorem Engine.setRun_subs (g : Engine) (m : RunMode) : (g.setRun m).subs = g.subs := by
  unfold Engine.setRun; split <;> rfl

/-! Hearing a bit (R181): only DIV can change before any tick. -/

@[simp] theorem Engine.hear_clockCounter (g : Engine) (b : Bool) : (g.hear b).1.clockCounter = g.clockCounter := by
  unfold Engine.hear; repeat' split
  all_goals rfl
@[simp] theorem Engine.hear_divideBy6Counter (g : Engine) (b : Bool) : (g.hear b).1.divideBy6Counter = g.divideBy6Counter := by
  unfold Engine.hear; repeat' split
  all_goals rfl
@[simp] theorem Engine.hear_shiftRegister (g : Engine) (b : Bool) : (g.hear b).1.shiftRegister = g.shiftRegister := by
  unfold Engine.hear; repeat' split
  all_goals rfl
@[simp] theorem Engine.hear_interval (g : Engine) (b : Bool) : (g.hear b).1.interval = g.interval := by
  unfold Engine.hear; repeat' split
  all_goals rfl
@[simp] theorem Engine.hear_theme (g : Engine) (b : Bool) : (g.hear b).1.theme = g.theme := by
  unfold Engine.hear; repeat' split
  all_goals rfl
@[simp] theorem Engine.hear_restEnabled (g : Engine) (b : Bool) : (g.hear b).1.restEnabled = g.restEnabled := by
  unfold Engine.hear; repeat' split
  all_goals rfl
@[simp] theorem Engine.hear_runMode (g : Engine) (b : Bool) : (g.hear b).1.runMode = g.runMode := by
  unfold Engine.hear; repeat' split
  all_goals rfl
@[simp] theorem Engine.hear_autoMode (g : Engine) (b : Bool) : (g.hear b).1.autoMode = g.autoMode := by
  unfold Engine.hear; repeat' split
  all_goals rfl
@[simp] theorem Engine.hear_tempo (g : Engine) (b : Bool) : (g.hear b).1.tempo = g.tempo := by
  unfold Engine.hear; repeat' split
  all_goals rfl
@[simp] theorem Engine.hear_volume (g : Engine) (b : Bool) : (g.hear b).1.volume = g.volume := by
  unfold Engine.hear; repeat' split
  all_goals rfl
@[simp] theorem Engine.hear_pitchControl (g : Engine) (b : Bool) : (g.hear b).1.pitchControl = g.pitchControl := by
  unfold Engine.hear; repeat' split
  all_goals rfl
@[simp] theorem Engine.hear_slaveMode (g : Engine) (b : Bool) : (g.hear b).1.slaveMode = g.slaveMode := by
  unfold Engine.hear; repeat' split
  all_goals rfl
@[simp] theorem Engine.hear_master (g : Engine) (b : Bool) : (g.hear b).1.master = g.master := by
  unfold Engine.hear; repeat' split
  all_goals rfl
@[simp] theorem Engine.hear_subs (g : Engine) (b : Bool) : (g.hear b).1.subs = g.subs := by
  unfold Engine.hear; repeat' split
  all_goals rfl

end Sys2Proof.Machine
end

