-- ==== Sys2Proof/Laws/Topology.lean ====
section
/-! SUPPORT. The topology links: reading them through updates, chains of master links, and the bound of R247. -/

namespace Sys2Proof.Machine

variable {es es' : List Engine} {e m s x y : EngineId} {f k : Nat}

/-! Reading the links. -/

theorem masterOf_of_getElem? {g : Engine} (h : es[x]? = some g) : masterOf es x = g.master := by
  simp [masterOf, h]

theorem subsOf_of_getElem? {g : Engine} (h : es[x]? = some g) : subsOf es x = g.subs := by
  simp [subsOf, h]

theorem exists_of_masterOf (h : masterOf es x = some m) : ∃ g, es[x]? = some g ∧ g.master = some m := by
  simpa [masterOf, Option.bind_eq_some_iff] using h

theorem exists_of_mem_subsOf (h : s ∈ subsOf es m) : ∃ g, es[m]? = some g ∧ s ∈ g.subs := by
  cases hg : es[m]? with
  | none => simp [subsOf, hg] at h
  | some g => exact ⟨g, rfl, by simpa [subsOf, hg] using h⟩

/-- Updates that keep each engine's master keep every master link. -/
theorem masterOf_congr {F : EngineId → Engine → Engine} (h : ∀ x, es'[x]? = es[x]?.map (F x))
    (hF : ∀ x g, (F x g).master = g.master) : masterOf es' = masterOf es := by
  funext x
  cases hx : es[x]? <;> simp [masterOf, h x, hx, hF]

/-- Updates that keep each engine's subordinates keep every list of subordinates. -/
theorem subsOf_congr {F : EngineId → Engine → Engine} (h : ∀ x, es'[x]? = es[x]?.map (F x))
    (hF : ∀ x g, (F x g).subs = g.subs) : subsOf es' = subsOf es := by
  funext x
  cases hx : es[x]? <;> simp [subsOf, h x, hx, hF]

theorem length_eq_of_getElem?_map {F : EngineId → Engine → Engine} (h : ∀ x, es'[x]? = es[x]?.map (F x)) :
    es'.length = es.length := by
  have key : ∀ n, es'.length ≤ n ↔ es.length ≤ n := fun n => by
    rw [← List.getElem?_eq_none_iff, ← List.getElem?_eq_none_iff, h n, Option.map_eq_none_iff]
  have h1 := key es.length
  have h2 := key es'.length
  omega

/-- One engine replaced, as an update of every engine. -/
theorem getElem?_set_map (g g' : Engine) (hg : es[e]? = some g) (x : EngineId) :
    (es.set e g')[x]? = es[x]?.map fun h => if x = e then g' else h := by
  obtain ⟨he, rfl⟩ := List.getElem?_eq_some_iff.mp hg
  by_cases hx : x = e
  · subst hx; simp [he]
  · simp [List.getElem?_set_ne (Ne.symm hx), hx]

theorem topologyOk_congr (hm : masterOf es' = masterOf es) (hs : subsOf es' = subsOf es) (h : TopologyOk es) :
    TopologyOk es' := by
  have hc : ∀ f x, chainEnds es' f x = chainEnds es f x := by
    intro f
    induction f with
    | zero => intro x; rfl
    | succ f ih => intro x; simp [chainEnds, hm, ih]
  exact ⟨by simpa [hm, hs] using h.linksAgree, by simpa [hs] using h.noRepeats, by simpa [hc] using h.forest⟩

theorem chainEnds_congr (hm : masterOf es' = masterOf es) (f : Nat) (x : EngineId) :
    chainEnds es' f x = chainEnds es f x := by
  induction f generalizing x with
  | zero => rfl
  | succ f ih => simp [chainEnds, hm, ih]

theorem below_congr (hm : masterOf es' = masterOf es) : Below es' e x ↔ Below es e x := by
  constructor
  · intro h
    induction h with
    | direct h => exact .direct (hm ▸ h)
    | through h _ ih => exact .through (hm ▸ h) ih
  · intro h
    induction h with
    | direct h => exact .direct (by rw [hm]; exact h)
    | through h _ ih => exact .through (by rw [hm]; exact h) ih

/-! Chains of master links. -/

theorem chainEnds_of_master (h : masterOf es x = some m) (f : Nat) : chainEnds es (f + 1) x = chainEnds es f m := by
  simp [chainEnds, h]

theorem chainEnds_succ (h : chainEnds es f x = true) : chainEnds es (f + 1) x = true := by
  induction f generalizing x with
  | zero => simp [chainEnds] at h
  | succ f ih =>
    cases hx : masterOf es x with
    | none => simp [chainEnds, hx]
    | some m => rw [chainEnds_of_master hx] at h ⊢; exact ih h

theorem chainEnds_mono (h : chainEnds es f x = true) (hk : f ≤ k) : chainEnds es k x = true := by
  induction hk with
  | refl => exact h
  | step _ ih => exact chainEnds_succ ih

/-- An engine above x has a shorter chain. -/
theorem chainEnds_of_below (hb : Below es e x) (h : chainEnds es f x = true) :
    ∃ f' < f, chainEnds es f' e = true := by
  induction hb generalizing f with
  | direct hx =>
    cases f with
    | zero => simp [chainEnds] at h
    | succ f => exact ⟨f, by omega, by rwa [chainEnds_of_master hx] at h⟩
  | through hx _ ih =>
    cases f with
    | zero => simp [chainEnds] at h
    | succ f =>
      rw [chainEnds_of_master hx] at h
      obtain ⟨f', hf', h'⟩ := ih h
      exact ⟨f', by omega, h'⟩

/-- In a forest no engine is below itself. -/
theorem not_below_self (h : chainEnds es f x = true) : ¬ Below es x x := by
  induction f using Nat.strongRecOn with
  | ind f ih =>
    intro hb
    obtain ⟨f', hf', h'⟩ := chainEnds_of_below hb h
    exact ih f' hf' h' hb

theorem TopologyOk.irrefl (h : TopologyOk es) (x : EngineId) : ¬ Below es x x :=
  let ⟨_, hf⟩ := h.forest x
  not_below_self hf

theorem Below.trans (h1 : Below es e m) (h2 : Below es m x) : Below es e x := by
  induction h2 with
  | direct h => exact .through h h1
  | through h _ ih => exact .through h ih

/-- Below e is below a subordinate of e, or is one. -/
theorem below_iff_subs (h : TopologyOk es) :
    Below es e x ↔ ∃ s ∈ subsOf es e, x = s ∨ Below es s x := by
  constructor
  · intro hb
    induction hb with
    | @direct x hx => exact ⟨x, (h.linksAgree _ _).mpr hx, .inl rfl⟩
    | through hx _ ih =>
      obtain ⟨s, hs, rfl | hb⟩ := ih
      · exact ⟨_, hs, .inr (.direct hx)⟩
      · exact ⟨s, hs, .inr (.through hx hb)⟩
  · rintro ⟨s, hs, rfl | hb⟩
    · exact .direct ((h.linksAgree _ _).mp hs)
    · exact Below.trans (.direct ((h.linksAgree _ _).mp hs)) hb

/-- Two engines above the same one lie on one chain. -/
theorem below_comparable (h1 : Below es e x) (h2 : Below es m x) : e = m ∨ Below es e m ∨ Below es m e := by
  induction h1 with
  | direct hx =>
    cases h2 with
    | direct hx' => rw [hx] at hx'; exact .inl (Option.some.inj hx')
    | through hx' hb => rw [hx] at hx'; cases hx'; exact .inr (.inr hb)
  | through hx hb ih =>
    cases h2 with
    | direct hx' => rw [hx] at hx'; cases hx'; exact .inr (.inl hb)
    | through hx' hb' => rw [hx] at hx'; cases hx'; exact ih hb'

/-- Masters are engines of the system. -/
theorem TopologyOk.master_lt (h : TopologyOk es) (hx : masterOf es x = some m) : m < es.length := by
  obtain ⟨g, hg, _⟩ := exists_of_mem_subsOf ((h.linksAgree m x).mpr hx)
  exact (List.getElem?_eq_some_iff.mp hg).1

theorem lt_of_masterOf (hx : masterOf es x = some m) : x < es.length := by
  obtain ⟨g, hg, _⟩ := exists_of_masterOf hx
  exact (List.getElem?_eq_some_iff.mp hg).1

/-- The engines on a chain, none twice. -/
theorem TopologyOk.chain_nodes (h : TopologyOk es) (hx : x < es.length) (hf : chainEnds es f x = true) :
    ∃ l : List EngineId, l.Nodup ∧ (∀ y ∈ l, y < es.length ∧ (y = x ∨ Below es y x)) ∧
      chainEnds es l.length x = true := by
  induction f generalizing x with
  | zero => simp [chainEnds] at hf
  | succ f ih =>
    cases hm : masterOf es x with
    | none => exact ⟨[x], by simp, by simp [hx], by simp [chainEnds, hm]⟩
    | some m =>
      rw [chainEnds_of_master hm] at hf
      obtain ⟨l, hn, hl, hc⟩ := ih (h.master_lt hm) hf
      refine ⟨x :: l, List.nodup_cons.mpr ⟨fun hxl => ?_, hn⟩, fun y hy => ?_, ?_⟩
      · obtain rfl | hb := (hl x hxl).2
        · exact h.irrefl _ (.direct hm)
        · exact h.irrefl _ (.through hm hb)
      · rcases List.mem_cons.mp hy with rfl | hy
        · exact ⟨hx, .inl rfl⟩
        · refine ⟨(hl y hy).1, .inr ?_⟩
          obtain rfl | hb := (hl y hy).2
          · exact .direct hm
          · exact .through hm hb
      · rw [List.length_cons, chainEnds_of_master hm]; exact hc

/-- A chain of a forest of N engines ends within N links (R35, R247). -/
theorem TopologyOk.chain_bounded (h : TopologyOk es) (hx : x < es.length) : chainEnds es es.length x = true := by
  obtain ⟨f, hf⟩ := h.forest x
  obtain ⟨l, hn, hl, hc⟩ := h.chain_nodes hx hf
  refine chainEnds_mono hc ?_
  have hsub : l ⊆ List.range es.length := fun y hy => List.mem_range.mpr (hl y hy).1
  simpa using (List.subperm_of_subset hn hsub).length_le

/-- The same for any identifier, where there is an engine. -/
theorem TopologyOk.chain_bounded' (h : TopologyOk es) (hn : 0 < es.length) (x : EngineId) :
    chainEnds es es.length x = true := by
  by_cases hx : x < es.length
  · exact h.chain_bounded hx
  · have hm : masterOf es x = none := by
      simp [masterOf, List.getElem?_eq_none (Nat.le_of_not_lt hx)]
    obtain ⟨n, hn'⟩ : ∃ n, es.length = n + 1 := ⟨es.length - 1, by omega⟩
    rw [hn']; simp [chainEnds, hm]

/-! A check of the invariant that can be evaluated. -/

/-- The topology invariant of R35, engine by engine. -/
def topologyCheck (es : List Engine) : Bool :=
  (List.range es.length).all fun x =>
    (subsOf es x).all (fun s => masterOf es s == some x) && decide (subsOf es x).Nodup && chainEnds es es.length x &&
      match masterOf es x with
      | none => true
      | some m => (subsOf es m).contains x

theorem topologyOk_of_check (h : topologyCheck es = true) : TopologyOk es := by
  have hx : ∀ x, x < es.length → (∀ s ∈ subsOf es x, masterOf es s = some x) ∧ (subsOf es x).Nodup ∧
      chainEnds es es.length x = true ∧ ∀ m, masterOf es x = some m → x ∈ subsOf es m := by
    intro x hx
    have := List.all_eq_true.mp h x (List.mem_range.mpr hx)
    simp only [Bool.and_eq_true, List.all_eq_true, beq_iff_eq, decide_eq_true_eq] at this
    obtain ⟨⟨⟨h1, h2⟩, h3⟩, h4⟩ := this
    refine ⟨h1, h2, h3, fun m hm => ?_⟩
    rw [hm] at h4
    simpa using h4
  refine ⟨fun m s => ⟨fun hs => ?_, fun hs => ?_⟩, fun m => ?_, fun x => ?_⟩
  · obtain ⟨g, hg, _⟩ := exists_of_mem_subsOf hs
    exact (hx m (List.getElem?_eq_some_iff.mp hg).1).1 s hs
  · exact (hx s (lt_of_masterOf hs)).2.2.2 m hs
  · by_cases hm : m < es.length
    · exact (hx m hm).2.1
    · simp [subsOf, List.getElem?_eq_none (Nat.le_of_not_lt hm)]
  · by_cases hl : x < es.length
    · exact ⟨_, (hx x hl).2.2.1⟩
    · exact ⟨1, by simp [chainEnds, masterOf, List.getElem?_eq_none (Nat.le_of_not_lt hl)]⟩

end Sys2Proof.Machine
end

