-- ==== Sys2Proof/Laws/Chain.lean ====
section
/-! SUPPORT. What a tick, a received bit and a whole cascade do, each said once: the procedures of Machine/Chain.lean
against the rules as Safety.lean writes them. -/

namespace Sys2Proof.Machine

variable {es es' : List Engine} {e m s x : EngineId} {f : Nat}

/-! One engine. -/

theorem isFallingEdge_iff (c : BitVec 5) : isFallingEdge c = true ↔ c.toNat % 2 = 0 := by
  revert c; decide

theorem div6Next_eq_table (d : BitVec 4) : div6Next d = div6Table.getD d.toNat 0#4 := by
  revert d; decide

theorem shiftIn_eq_append (r : BitVec 31) (b : Bool) : shiftIn r b = r.extractLsb' 0 30 ++ BitVec.ofBool b := by
  apply BitVec.eq_of_getLsbD_eq
  intro i hi
  have h2 := BitVec.getLsbD_append (x := r.extractLsb' 0 30) (y := BitVec.ofBool b) (i := i)
  refine Eq.trans ?_ h2.symm
  rcases i with _ | i
  · simp [shiftIn]
  · have : i < 30 := by omega
    simp [shiftIn, hi, this]
    exact (BitVec.getLsbD_eq_getElem (by omega)).symm

/-- The feedback bit is the XNOR of the four theme lines (R112). -/
theorem feedback_eq (g : Engine) :
    g.feedback = !(g.line g.theme[0] ^^ g.line g.theme[1] ^^ g.line g.theme[2] ^^ g.line g.theme[3]) := by
  unfold Engine.feedback
  cases g.line g.theme[0] <;> cases g.line g.theme[1] <;> cases g.line g.theme[2] <;> cases g.line g.theme[3] <;> rfl

theorem advance_eq_tickedEngine (g : Engine) : g.advance = tickedEngine g := by
  simp only [Engine.advance, tickedEngine, isFallingEdge_iff, div6Next_eq_table, shiftIn_eq_append, feedback_eq]

theorem phase_eq (g : Engine) : g.phase = (g.clockCounter.toNat % 2 == 1) := by
  have h : ∀ c : BitVec 5, c.getLsbD 0 = (c.toNat % 2 == 1) := by decide
  exact h _

/-- A tick inverts the clock phase (R110). -/
theorem phase_advance (g : Engine) : g.advance.phase = (g.clockCounter.toNat % 2 == 0) := by
  have h : ∀ c : BitVec 5, (c + 1#5).getLsbD 0 = (c.toNat % 2 == 0) := by decide
  exact h _

theorem countBit_eq_counted (g : Engine) : g.countBit = counted g := by
  have h : ∀ d : BitVec 8, saturatingSucc d = BitVec.ofNat 8 (min (d.toNat + 1) 255) := by decide
  simp only [Engine.countBit, counted, h]

theorem hear_snd (g : Engine) (b : Bool) : (g.hear b).2 = bitTicks g b := by
  have hn : ∀ n : BitVec 8, n[0] = (n.toNat % 2 == 1) := by decide
  unfold Engine.hear bitTicks
  rw [countBit_eq_counted]
  by_cases ha : g.autoMode = .auto
  · by_cases h0 : g.slaveMode = 0#8
    · simp [ha, h0]
    · by_cases h1 : g.slaveMode = 1#8
      · rw [phase_eq]
        rcases Nat.mod_two_eq_zero_or_one g.clockCounter.toNat with h | h <;> cases b <;> simp [ha, h1, h]
      · have h0' : g.slaveMode.toNat ≠ 0 := fun h => h0 (BitVec.eq_of_toNat_eq h)
        have h1' : g.slaveMode.toNat ≠ 1 := fun h => h1 (BitVec.eq_of_toNat_eq h)
        rcases Nat.mod_two_eq_zero_or_one g.slaveMode.toNat with h | h <;> cases b <;>
          simp [ha, h0, h1, h0', h1', hn, h]
  · simp [ha]

theorem hear_fst (g : Engine) (b : Bool) :
    (g.hear b).1 = if g.autoMode = .auto ∧ 2 ≤ g.slaveMode.toNat then counted g else g := by
  unfold Engine.hear
  rw [countBit_eq_counted]
  by_cases ha : g.autoMode = .auto
  · by_cases h0 : g.slaveMode = 0#8
    · simp [ha, h0]
    · by_cases h1 : g.slaveMode = 1#8
      · simp [ha, h1]
      · have h0' : g.slaveMode.toNat ≠ 0 := fun h => h0 (BitVec.eq_of_toNat_eq h)
        have h1' : g.slaveMode.toNat ≠ 1 := fun h => h1 (BitVec.eq_of_toNat_eq h)
        have h2 : 2 ≤ g.slaveMode.toNat := by omega
        by_cases hl : g.slaveMode[0] = false <;> simp [ha, h0, h1, h2, hl]
  · simp [ha]

theorem bitReaction_of_ticks {g : Engine} {b : Bool} (h : bitTicks g b = true) :
    bitReaction g b = tickedEngine (g.hear b).1 := by
  simp [bitReaction, h, hear_fst]

theorem bitReaction_of_not_ticks {g : Engine} {b : Bool} (h : bitTicks g b = false) :
    bitReaction g b = (g.hear b).1 := by
  simp [bitReaction, h, hear_fst]

/-! What no tick and no reaction writes: the fields only other commands write (R26 to R34). -/

/-- The registers outside the chain: selectors, controls and topology. -/
def sameSettings (g h : Engine) : Prop :=
  h.interval = g.interval ∧ h.theme = g.theme ∧ h.restEnabled = g.restEnabled ∧ h.runMode = g.runMode ∧
    h.autoMode = g.autoMode ∧ h.tempo = g.tempo ∧ h.volume = g.volume ∧ h.pitchControl = g.pitchControl ∧
    h.slaveMode = g.slaveMode ∧ h.master = g.master ∧ h.subs = g.subs

theorem tickedEngine_sameSettings (g : Engine) : sameSettings g (tickedEngine g) := by
  simp [sameSettings, tickedEngine]

theorem bitReaction_sameSettings (g : Engine) (b : Bool) : sameSettings g (bitReaction g b) := by
  unfold bitReaction
  simp only
  split <;> split <;> simp [sameSettings, tickedEngine, counted]

theorem afterTick_sameSettings (es : List Engine) (e x : EngineId) (h : Engine) :
    sameSettings h (afterTick es e x h) := by
  unfold afterTick
  split
  · exact tickedEngine_sameSettings h
  · split
    · simp [sameSettings]
    · exact bitReaction_sameSettings h _

theorem afterTick_master (es : List Engine) (e x : EngineId) (h : Engine) :
    (afterTick es e x h).master = h.master := (afterTick_sameSettings es e x h).2.2.2.2.2.2.2.2.2.1

theorem afterTick_subs (es : List Engine) (e x : EngineId) (h : Engine) :
    (afterTick es e x h).subs = h.subs := (afterTick_sameSettings es e x h).2.2.2.2.2.2.2.2.2.2

/-! The bit an engine receives. -/

/-- An engine that is not below e receives nothing while e ticks. -/
theorem receives_eq_none (h : ¬ Below es e x) : receives es e f x = none := by
  induction f generalizing x with
  | zero => rfl
  | succ f ih =>
    unfold receives
    cases hx : masterOf es x with
    | none => rfl
    | some m =>
      have hme : m ≠ e := fun hm => h (.direct (hm ▸ hx))
      have hr : receives es e f m = none := ih fun hb => h (.through hx hb)
      cases hg : es[m]? <;> simp [hg, hme, hr]

/-- A chain's length is fuel enough. -/
theorem receives_succ (h : chainEnds es f x = true) : receives es e (f + 1) x = receives es e f x := by
  induction f generalizing x with
  | zero => simp [chainEnds] at h
  | succ f ih =>
    cases hx : masterOf es x with
    | none => simp [receives, hx]
    | some m =>
      rw [chainEnds_of_master hx] at h
      rw [receives, hx, receives, hx]
      simp only [ih h]

/-- The bit received from a master that is e itself. -/
theorem receives_of_master (hc : chainEnds es f x = true) (hx : masterOf es x = some e) {g : Engine}
    (hg : es[e]? = some g) : receives es e f x = some (g.clockCounter.toNat % 2 == 0) := by
  rw [← receives_succ hc, receives, hx]
  simp [hg]

/-- The bit received from a master below e. -/
theorem receives_of_master_ne (hc : chainEnds es f x = true) (hx : masterOf es x = some m) (hm : m ≠ e) {h : Engine}
    (hh : es[m]? = some h) :
    receives es e f x = match receives es e f m with
      | none => none
      | some b => if bitTicks h b then some (h.clockCounter.toNat % 2 == 0) else none := by
  rw [← receives_succ hc, receives, hx]
  cases hr : receives es e f m <;> simp [hh, hm, hr]

/-- Below a subordinate s of e, what e's tick delivers is what s's own tick would deliver, if s ticks. -/
theorem receives_through (ht : TopologyOk es) (hc : ∀ y, chainEnds es f y = true) (hs : masterOf es s = some e)
    {h : Engine} (hh : es[s]? = some h) {b : Bool} (hb : receives es e f s = some b) (hx : Below es s x) :
    receives es e f x = if bitTicks h b then receives es s f x else none := by
  have hse : s ≠ e := fun h => ht.irrefl s (.direct (by rw [hs, h]))
  induction hx with
  | direct hx =>
    rw [receives_of_master_ne (hc _) hx hse hh, hb, receives_of_master (hc _) hx hh]
  | @through x m hx hm ih =>
    obtain ⟨k, hk, _⟩ := exists_of_mem_subsOf ((ht.linksAgree _ _).mpr hx)
    have hme : m ≠ e := fun h => ht.irrefl s (Below.trans (h ▸ hm) (.direct (h ▸ hs)))
    have hms : m ≠ s := fun h => ht.irrefl s (h ▸ hm)
    rw [receives_of_master_ne (hc _) hx hme hk, ih, receives_of_master_ne (hc _) hx hms hk]
    cases bitTicks h b <;> simp

/-- What is received below s depends on s's phase and on the engines below s only. -/
theorem receives_congr (hm : masterOf es' = masterOf es)
    (hs : es'[s]?.map Engine.clockCounter = es[s]?.map Engine.clockCounter)
    (hb : ∀ y, Below es s y → es'[y]? = es[y]?) : receives es' s f x = receives es s f x := by
  induction f generalizing x with
  | zero => rfl
  | succ f ih =>
    rw [receives, receives, hm]
    cases hx : masterOf es x with
    | none => rfl
    | some m =>
      by_cases hms : m = s
      · subst hms
        cases h1 : es[m]? <;> cases h2 : es'[m]? <;> simp_all
      · simp only [hms, if_false, ih]
        by_cases hbm : Below es s m
        · rw [hb m hbm]
        · rw [receives_eq_none hbm]
          cases es[m]? <;> cases es'[m]? <;> rfl

/-! The whole cascade. -/

/-- x is one of the engines in `done`, or below one of them. -/
def InTrees (es : List Engine) (done : List EngineId) (x : EngineId) : Prop := ∃ d ∈ done, x = d ∨ Below es d x

/-- Part way through e's broadcast: e has ticked, the subordinates in `done` and all below them are final, and every
other engine is as before. -/
noncomputable def midBroadcast (es : List Engine) (e : EngineId) (done : List EngineId) (x : EngineId) (h : Engine) :
    Engine :=
  open Classical in
  if x = e then tickedEngine h else if InTrees es done x then afterTick es e x h else h

theorem midBroadcast_congr {d1 d2 : List EngineId} (h : InTrees es d1 x ↔ InTrees es d2 x) (e : EngineId)
    (k : Engine) : midBroadcast es e d1 x k = midBroadcast es e d2 x k := by
  unfold midBroadcast
  rw [propext h]

theorem midBroadcast_links (es : List Engine) (e : EngineId) (done : List EngineId) (x : EngineId) (h : Engine) :
    (midBroadcast es e done x h).master = h.master ∧ (midBroadcast es e done x h).subs = h.subs := by
  unfold midBroadcast
  split
  · exact ⟨rfl, rfl⟩
  · split
    · exact ⟨afterTick_master .., afterTick_subs ..⟩
    · exact ⟨rfl, rfl⟩

/-- With every subordinate done, the broadcast has left each engine as `afterTick` says. -/
theorem midBroadcast_all (ht : TopologyOk es) (x : EngineId) (h : Engine) :
    midBroadcast es e (subsOf es e) x h = afterTick es e x h := by
  unfold midBroadcast
  split
  · simp [afterTick, *]
  · rename_i hx
    split
    · rfl
    · rename_i hd
      have : ¬ Below es e x := fun hb => hd ((below_iff_subs ht).mp hb)
      simp [afterTick, hx, receives_eq_none this]

/-- What the spec lemma of a tick says of engine e with a given fuel. -/
def TickSpec (fuel : Nat) : Prop :=
  ∀ (es : List Engine) (e : EngineId) (g : Engine), TopologyOk es → fuel ≤ es.length →
    chainEnds es (es.length - fuel) e = false → es[e]? = some g →
    ∃ es', tickWith fuel e es = some es' ∧ ∀ x, es'[x]? = es[x]?.map (afterTick es e x)

/-- One turn of the broadcast loop (R180): subordinate s and everything below it become final. -/
theorem slaveStepWith_spec {fuel : Nat} (ih : TickSpec fuel) {es cur : List Engine} {e s : EngineId} {g : Engine}
    {done : List EngineId} (ht : TopologyOk es) (hf : fuel + 1 ≤ es.length)
    (hc : chainEnds es (es.length - (fuel + 1)) e = false) (hg : es[e]? = some g)
    (hs : masterOf es s = some e) (hd : ∀ d ∈ done, masterOf es d = some e) (hsd : s ∉ done)
    (hcur : ∀ x, cur[x]? = es[x]?.map (midBroadcast es e done x)) :
    ∃ cur', slaveStepWith (tickWith fuel) g.advance.phase s cur = some cur' ∧
      ∀ x, cur'[x]? = es[x]?.map (midBroadcast es e (s :: done) x) := by
  have hall : ∀ y, chainEnds es es.length y = true := ht.chain_bounded' (by omega)
  have hse : s ≠ e := fun h => ht.irrefl s (.direct (by rw [hs, h]))
  obtain ⟨h, hh, -⟩ := exists_of_masterOf hs
  -- no engine of an earlier subordinate's tree is s or below s
  have hdisj : ∀ x, x = s ∨ Below es s x → ¬ InTrees es done x := by
    rintro x hx ⟨d, hdm, hxd⟩
    have hde := hd d hdm
    have hne : s ≠ d := fun h => hsd (h ▸ hdm)
    have hnb : ∀ {a b : EngineId}, masterOf es a = some e → masterOf es b = some e → ¬ Below es a b := by
      intro a b ha hb hab
      cases hab with
      | direct h => rw [hb] at h; cases h; exact ht.irrefl e (.direct ha)
      | through h h' => rw [hb] at h; cases h; exact ht.irrefl _ (Below.trans (.direct ha) h')
    rcases hx with rfl | hx <;> rcases hxd with rfl | hxd
    · exact hne rfl
    · exact hnb hde hs hxd
    · exact hnb hs hde hx
    · rcases below_comparable hx hxd with h | h | h
      · exact hne h
      · exact hnb hs hde h
      · exact hnb hde hs h
  have hxe : ∀ x, x = s ∨ Below es s x → x ≠ e := by
    rintro x (rfl | hx) rfl
    · exact hse rfl
    · exact ht.irrefl _ (Below.trans hx (.direct hs))
  have hcur_tree : ∀ x, x = s ∨ Below es s x → cur[x]? = es[x]? := by
    intro x hx
    have h1 : ∀ k, midBroadcast es e done x k = k := fun k => by
      simp [midBroadcast, hxe x hx, hdisj x hx]
    rw [hcur x]
    cases es[x]? <;> simp [h1]
  have hrs : receives es e es.length s = some g.advance.phase := by
    rw [receives_of_master (hall s) hs hg, phase_advance]
  have hout : ∀ x k, ¬ (x = s ∨ Below es s x) →
      midBroadcast es e (s :: done) x k = midBroadcast es e done x k := by
    intro x k hx
    exact midBroadcast_congr (by simp only [InTrees, List.mem_cons, exists_eq_or_imp, hx, false_or]) e k
  have hin : ∀ x k, x = s ∨ Below es s x → midBroadcast es e (s :: done) x k = afterTick es e x k := by
    intro x k hx
    have : InTrees es (s :: done) x := ⟨s, by simp, hx⟩
    simp [midBroadcast, this, hxe x hx]
  have hafter_s : afterTick es e s h = bitReaction h g.advance.phase := by
    simp [afterTick, hse, hrs]
  -- the bit heard: DIV is written
  have hset : ∀ x, (cur.set s (h.hear g.advance.phase).1)[x]? =
      cur[x]?.map fun k => if x = s then (h.hear g.advance.phase).1 else k :=
    getElem?_set_map h _ ((hcur_tree s (.inl rfl)).trans hh)
  unfold slaveStepWith
  rw [hcur_tree s (.inl rfl), hh]
  simp only [hear_snd]
  cases hb : bitTicks h g.advance.phase with
  | false =>
    refine ⟨cur.set s (h.hear g.advance.phase).1, by simp, fun x => ?_⟩
    rw [hset x]
    by_cases hx : x = s ∨ Below es s x
    · rw [hcur_tree x hx]
      cases hk : es[x]? with
      | none => rfl
      | some k =>
        simp only [Option.map_some, hin x k hx, Option.some.injEq]
        by_cases hxs : x = s
        · subst hxs
          rw [hh] at hk; cases hk
          simp [hafter_s, bitReaction_of_not_ticks hb]
        · have hbx : Below es s x := hx.resolve_left hxs
          have : receives es e es.length x = none := by
            rw [receives_through ht hall hs hh hrs hbx, hb]; simp
          simp [hxs, afterTick, hxe x hx, this]
    · rw [hcur x]
      have hxs : x ≠ s := fun h => hx (.inl h)
      cases es[x]? <;> simp [hout x _ hx, hxs]
  | true =>
    have hmap : ∀ x, (cur.set s (h.hear g.advance.phase).1)[x]? = es[x]?.map
        fun k => if x = s then (h.hear g.advance.phase).1 else midBroadcast es e done x k := by
      intro x
      rw [hset x, hcur x, Option.map_map]; rfl
    have hlinks : ∀ x k, es[x]? = some k →
        ((if x = s then (h.hear g.advance.phase).1 else midBroadcast es e done x k).master = k.master ∧
          (if x = s then (h.hear g.advance.phase).1 else midBroadcast es e done x k).subs = k.subs) := by
      intro x k hk
      by_cases hxs : x = s
      · subst hxs
        rw [hh] at hk; cases hk
        simp
      · simp [hxs, midBroadcast_links]
    have hm : masterOf (cur.set s (h.hear g.advance.phase).1) = masterOf es := by
      funext x
      cases hk : es[x]? with
      | none => simp [masterOf, hmap x, hk]
      | some k => simp [masterOf, hmap x, hk, (hlinks x k hk).1]
    have hsb : subsOf (cur.set s (h.hear g.advance.phase).1) = subsOf es := by
      funext x
      cases hk : es[x]? with
      | none => simp [subsOf, hmap x, hk]
      | some k => simp [subsOf, hmap x, hk, (hlinks x k hk).2]
    have hlen : (cur.set s (h.hear g.advance.phase).1).length = es.length := length_eq_of_getElem?_map hmap
    have hchain : chainEnds es (es.length - fuel) s = false := by
      rw [show es.length - fuel = es.length - (fuel + 1) + 1 by omega, chainEnds_of_master hs]; exact hc
    have hs1 : (cur.set s (h.hear g.advance.phase).1)[s]? = some (h.hear g.advance.phase).1 := by
      rw [hmap s, hh]; simp
    obtain ⟨cur', htick, hres⟩ := ih _ s _ (topologyOk_congr hm hsb ht) (by omega)
      (by rw [hlen, chainEnds_congr hm]; exact hchain) hs1
    refine ⟨cur', by simpa using htick, fun x => ?_⟩
    rw [hres x, hmap x, Option.map_map]
    have hrec : ∀ y, receives (cur.set s (h.hear g.advance.phase).1) s es.length y = receives es s es.length y := by
      intro y
      refine receives_congr hm ?_ fun z hz => ?_
      · rw [hs1, hh]; simp
      · rw [hmap z]
        have hzs : z ≠ s := fun h => ht.irrefl s (h ▸ hz)
        have : ∀ k, midBroadcast es e done z k = k := fun k => by
          simp [midBroadcast, hxe z (.inr hz), hdisj z (.inr hz)]
        cases es[z]? <;> simp [hzs, this]
    cases hk : es[x]? with
    | none => rfl
    | some k =>
      simp only [Option.map_some, Function.comp_apply, Option.some.injEq]
      by_cases hx : x = s ∨ Below es s x
      · rw [hin x k hx]
        by_cases hxs : x = s
        · subst hxs
          rw [hh] at hk; cases hk
          rw [hafter_s, bitReaction_of_ticks hb]
          simp [afterTick]
        · have hbx : Below es s x := hx.resolve_left hxs
          have h1 : midBroadcast es e done x k = k := by simp [midBroadcast, hxe x hx, hdisj x hx]
          have h2 : receives es e es.length x = receives es s es.length x := by
            rw [receives_through ht hall hs hh hrs hbx, hb]; simp
          simp only [afterTick, hxs, if_false, h1, hlen, hrec, hxe x hx, h2]
      · have hxs : x ≠ s := fun h => hx (.inl h)
        have h1 : receives es s es.length x = none := receives_eq_none fun hb => hx (.inr hb)
        simp only [hxs, if_false, hout x k hx]
        simp only [afterTick, hxs, if_false, hlen, hrec, h1]

/-- The loop of the broadcast (R180). -/
theorem broadcastWith_spec {fuel : Nat} (ih : TickSpec fuel) {es : List Engine} {e : EngineId} {g : Engine}
    (ht : TopologyOk es) (hf : fuel + 1 ≤ es.length) (hc : chainEnds es (es.length - (fuel + 1)) e = false)
    (hg : es[e]? = some g) :
    ∀ (todo done : List EngineId) (cur : List Engine), (∀ s ∈ todo, masterOf es s = some e) →
      (∀ d ∈ done, masterOf es d = some e) → (todo ++ done).Nodup →
      (∀ x, cur[x]? = es[x]?.map (midBroadcast es e done x)) →
      ∃ cur', broadcastWith (tickWith fuel) g.advance.phase todo cur = some cur' ∧
        ∀ x, cur'[x]? = es[x]?.map (midBroadcast es e (todo ++ done) x) := by
  intro todo
  induction todo with
  | nil => intro done cur _ _ _ hcur; exact ⟨cur, rfl, hcur⟩
  | cons s rest ihl =>
    intro done cur hto hdo hnd hcur
    rw [List.cons_append, List.nodup_cons] at hnd
    have hsd : s ∉ done := fun h => hnd.1 (List.mem_append_right _ h)
    obtain ⟨cur1, h1, hcur1⟩ := slaveStepWith_spec ih ht hf hc hg (hto s (by simp)) hdo hsd hcur
    obtain ⟨cur2, h2, hcur2⟩ := ihl (s :: done) cur1 (fun d hd => hto d (by simp [hd]))
      (by intro d hd; rcases List.mem_cons.mp hd with rfl | hd
          · exact hto d (by simp)
          · exact hdo d hd)
      (by
        have : (rest ++ s :: done).Perm (s :: (rest ++ done)) := List.perm_middle
        exact this.nodup_iff.mpr (List.nodup_cons.mpr hnd))
      hcur1
    refine ⟨cur2, by simp [broadcastWith, h1, h2], fun x => ?_⟩
    rw [hcur2 x]
    have hsame : ∀ k, midBroadcast es e (rest ++ s :: done) x k = midBroadcast es e (s :: rest ++ done) x k := by
      intro k
      refine midBroadcast_congr ?_ e k
      simp only [InTrees, List.mem_append, List.mem_cons, List.cons_append]
      constructor <;> rintro ⟨d, hd, hx⟩ <;> exact ⟨d, by tauto, hx⟩
    cases es[x]? <;> simp [hsame]

/-- A tick with fuel for its depth completes, and leaves every engine as `afterTick` says (R110, R180, R181, R247). -/
theorem tickSpec (fuel : Nat) : TickSpec fuel := by
  induction fuel with
  | zero =>
    intro es e g ht _ hc hg
    have hn : 0 < es.length := Nat.lt_of_le_of_lt (Nat.zero_le e) (List.getElem?_eq_some_iff.mp hg).1
    rw [Nat.sub_zero, ht.chain_bounded' hn e] at hc
    cases hc
  | succ fuel ih =>
    intro es e g ht hf hc hg
    have hsubs : g.subs = subsOf es e := (subsOf_of_getElem? hg).symm
    have hstart : ∀ x, (es.set e g.advance)[x]? = es[x]?.map (midBroadcast es e [] x) := by
      intro x
      rw [getElem?_set_map g _ hg x]
      cases hk : es[x]? with
      | none => rfl
      | some k =>
        by_cases hx : x = e
        · subst hx
          rw [hg] at hk; cases hk
          simp [midBroadcast, advance_eq_tickedEngine]
        · simp [midBroadcast, InTrees, hx]
    obtain ⟨es', h1, h2⟩ := broadcastWith_spec ih ht hf hc hg g.subs [] (es.set e g.advance)
      (fun s hs => (ht.linksAgree _ _).mp (hsubs ▸ hs)) (by simp)
      (by rw [List.append_nil, hsubs]; exact ht.noRepeats e) hstart
    refine ⟨es', by simp [tickWith, hg, h1], fun x => ?_⟩
    rw [h2 x, List.append_nil, hsubs]
    cases es[x]? <;> simp [midBroadcast_all ht]

/-- The spec lemma of `tick`: in a forest it completes, and every engine is as `afterTick` says. -/
theorem tick_spec (ht : TopologyOk es) {g : Engine} (hg : es[e]? = some g) :
    ∃ es', tick e es = some es' ∧ ∀ x, es'[x]? = es[x]?.map (afterTick es e x) :=
  tickSpec es.length es e g ht (Nat.le_refl _) (by simp [chainEnds]) hg

/-- A tick of e after e's registers, but not its links or its C, were replaced (as by STEP_PRESS or a DIV write). -/
theorem tick_set_spec (ht : TopologyOk es) {g g' : Engine} (hg : es[e]? = some g) (hm : g'.master = g.master)
    (hs : g'.subs = g.subs) (hc : g'.clockCounter = g.clockCounter) :
    ∃ es', tick e (es.set e g') = some es' ∧
      ∀ x, es'[x]? = es[x]?.map fun h => if x = e then tickedEngine g' else afterTick es e x h := by
  have hset := getElem?_set_map g g' hg
  have hlinks : ∀ x k, es[x]? = some k →
      ((if x = e then g' else k).master = k.master ∧ (if x = e then g' else k).subs = k.subs) := by
    intro x k hk
    by_cases hx : x = e
    · subst hx
      rw [hg] at hk; cases hk
      simp [hm, hs]
    · simp [hx]
  have hmm : masterOf (es.set e g') = masterOf es := by
    funext x
    cases hk : es[x]? with
    | none => simp [masterOf, hset x, hk]
    | some k => simp [masterOf, hset x, hk, (hlinks x k hk).1]
  have hss : subsOf (es.set e g') = subsOf es := by
    funext x
    cases hk : es[x]? with
    | none => simp [subsOf, hset x, hk]
    | some k => simp [subsOf, hset x, hk, (hlinks x k hk).2]
  have hself : (es.set e g')[e]? = some g' := by rw [hset e, hg]; simp
  obtain ⟨es', h1, h2⟩ := tick_spec (topologyOk_congr hmm hss ht) hself
  refine ⟨es', h1, fun x => ?_⟩
  rw [h2 x, hset x, Option.map_map]
  have hrec : ∀ y, receives (es.set e g') e es.length y = receives es e es.length y := by
    intro y
    refine receives_congr hmm (by rw [hself, hg]; simp [hc]) fun z hz => ?_
    have hze : z ≠ e := fun h => ht.irrefl e (h ▸ hz)
    rw [hset z]
    cases es[z]? <;> simp [hze]
  cases es[x]? with
  | none => rfl
  | some k =>
    by_cases hx : x = e
    · simp [hx, afterTick]
    · simp [hx, afterTick, hrec]

/-- Engine x, in registers h, after engine e received bit b, with every cascade complete (R181). -/
def afterBit (es : List Engine) (e : EngineId) (g : Engine) (b : Bool) (x : EngineId) (h : Engine) : Engine :=
  if x = e then bitReaction g b else if bitTicks g b then afterTick es e x h else h

/-- The spec lemma of `slaveStep` (R181). -/
theorem slaveStep_spec (ht : TopologyOk es) {g : Engine} (hg : es[e]? = some g) (b : Bool) :
    ∃ es', slaveStep b e es = some es' ∧ ∀ x, es'[x]? = es[x]?.map (afterBit es e g b x) := by
  unfold slaveStep slaveStepWith
  simp only [hg, hear_snd]
  cases hb : bitTicks g b with
  | false =>
    refine ⟨es.set e (g.hear b).1, by simp, fun x => ?_⟩
    rw [getElem?_set_map g _ hg x]
    cases es[x]? with
    | none => rfl
    | some k => simp [afterBit, hb, bitReaction_of_not_ticks hb]
  | true =>
    obtain ⟨es', h1, h2⟩ := tick_set_spec ht hg (Engine.hear_master g b) (Engine.hear_subs g b)
      (Engine.hear_clockCounter g b)
    refine ⟨es', by simpa [tick] using h1, fun x => ?_⟩
    rw [h2 x]
    cases es[x]? with
    | none => rfl
    | some k => simp [afterBit, hb, bitReaction_of_ticks hb]

end Sys2Proof.Machine
end

