-- ==== Sys2Proof/Laws/Ops.lean ====
section
/-! SUPPORT. What each shared operation of Machine/Ops.lean answers, said once: on an addressed engine, and read back
from a next state. -/

namespace Sys2Proof.Machine

variable {s t : State} {g : Engine}

theorem onTarget_of_getElem? (h : s.engines[s.target]? = some g) (k : Engine → Result) : onTarget s k = k g := by
  simp [onTarget, h]

theorem onTarget_eq_next {k : Engine → Result} :
    onTarget s k = .next t ↔ ∃ g, s.engines[s.target]? = some g ∧ k g = .next t := by
  unfold onTarget
  cases h : s.engines[s.target]? <;> simp

theorem raise_of_getElem? (h : s.engines[s.target]? = some g) (k : CommandError) :
    raise k s = .next (s.raiseError k) := onTarget_of_getElem? h _

theorem raise_eq_next {k : CommandError} (h : raise k s = .next t) : t = s.raiseError k := by
  obtain ⟨_, -, h⟩ := onTarget_eq_next.mp h
  cases h; rfl

theorem update_of_getElem? (h : s.engines[s.target]? = some g) (f : Engine → Engine) :
    update f s = .next ((s.putEngine (f g)).respond 0#8) := onTarget_of_getElem? h _

theorem update_eq_next {f : Engine → Engine} (h : update f s = .next t) :
    ∃ g, s.engines[s.target]? = some g ∧ t = (s.putEngine (f g)).respond 0#8 := by
  obtain ⟨g, hg, h⟩ := onTarget_eq_next.mp h
  cases h; exact ⟨g, hg, rfl⟩

theorem observe_of_getElem? (h : s.engines[s.target]? = some g) (f : Engine → BitVec 8) :
    observe f s = .next (s.respond (f g)) := onTarget_of_getElem? h _

theorem observe_eq_next {f : Engine → BitVec 8} (h : observe f s = .next t) :
    ∃ g, s.engines[s.target]? = some g ∧ t = s.respond (f g) := by
  obtain ⟨g, hg, h⟩ := onTarget_eq_next.mp h
  cases h; exact ⟨g, hg, rfl⟩

theorem finish_some (s : State) (v : BitVec 8) (es : List Engine) :
    finish s v (some es) = .next ((s.putEngines es).respond v) := rfl

theorem finish_eq_next {v : BitVec 8} {c : Cascade} (h : finish s v c = .next t) :
    ∃ es, c = some es ∧ t = (s.putEngines es).respond v := by
  cases c with
  | none => simp [finish] at h
  | some es => exact ⟨es, rfl, by simpa [finish] using h.symm⟩

/-- The response words, as the numbers R88 gives. -/
theorem successWord_zero : successWord 0#8 = 0x0000#16 := by decide

theorem errorWord_code (k : CommandError) :
    errorWord k.code = match k with
      | .outOfRangeLine _ => 0x8001#16
      | .invalidSwitchName _ _ => 0x8002#16
      | .invalidControlValue _ => 0x8003#16
      | .illegalCommand _ => 0x8004#16
      | .syncTopologyError _ => 0x8005#16 := by
  cases k <;> simp only [CommandError.code] <;> decide

theorem takeCommand_cons {c : Command} {rest : List Command} (h : s.inbox = c :: rest) :
    takeCommand s = some (c.words, { s with inbox := rest, target := c.target }) := by
  simp [takeCommand, h]

/-! The operands. -/

theorem lineOperand_of_le {l : BitVec 6} (h : l.toNat < 40) : lineOperand l = some ⟨l.toNat, h⟩ := by
  simp [lineOperand, h]

theorem lineOperand_of_gt {l : BitVec 6} (h : 40 ≤ l.toNat) : lineOperand l = none := by
  simp [lineOperand, Nat.not_lt.mpr h]

theorem levelOperand_of_le {v : BitVec 8} (h : v.toNat < 50) : levelOperand v = some ⟨v.toNat, h⟩ := by
  simp [levelOperand, h]

theorem levelOperand_of_gt {v : BitVec 8} (h : 50 ≤ v.toNat) : levelOperand v = none := by
  simp [levelOperand, Nat.not_lt.mpr h]

theorem codeOperand_of_le {k : Nat} {c : BitVec 6} (h : c.toNat < 40) : codeOperand k c = .ok ⟨c.toNat, h⟩ := by
  simp [codeOperand, lineOperand_of_le h]

theorem codeOperand_of_gt {k : Nat} {c : BitVec 6} (h : 40 ≤ c.toNat) : codeOperand k c = .error (k, c) := by
  simp [codeOperand, lineOperand_of_gt h]

end Sys2Proof.Machine
end

