-- ==== Sys2Proof/Laws/Commands.lean ====
section
/-! SUPPORT. The small facts the commands' statements rest on: the decoder and the gates against the rules as
Safety.lean writes them, the operands by cases, and the invariant through an update of every engine. -/

namespace Sys2Proof.Machine

variable {s t : State} {g : Engine}

/-! The note decoder. -/

theorem decodeAddress_toNat (g : Engine) : g.decodeAddress.toNat = noteAddress g := by
  unfold Engine.decodeAddress noteAddress
  cases g.line g.interval[0] <;> cases g.line g.interval[1] <;> cases g.line g.interval[2] <;>
    cases g.line g.interval[3] <;> rfl

/-- The pitch response of the model is the one of R145's table. -/
theorem successWord_decodePitch (g : Engine) : successWord g.decodePitch.byte = pitchResponse g := by
  unfold Engine.decodePitch pitchResponse
  rw [← decodeAddress_toNat]
  generalize g.decodeAddress = a
  generalize g.restEnabled = r
  revert a r; decide

theorem successWord_bitByte (b : Bool) : successWord (bitByte b) = if b then 0x0001#16 else 0x0000#16 := by
  cases b <;> decide

theorem successWord_ofNat {n : Nat} (h : n < 256) : successWord (BitVec.ofNat 8 n) = BitVec.ofNat 16 n := by
  have : ∀ v : BitVec 8, successWord v = BitVec.ofNat 16 v.toNat := by decide
  rw [this]; congr 1; simp; omega

theorem successWord_and_high (v : BitVec 8) : successWord v &&& 0xFF00#16 = 0#16 := by revert v; decide

theorem errorWord_and_high (v : BitVec 4) : errorWord v &&& 0xFFF0#16 = 0x8000#16 := by revert v; decide

/-! The gates. -/

theorem timerGate_iff (g : Engine) : g.timerGate Config.startTicks = true ↔ timerTicks g := by
  unfold Engine.timerGate Engine.transportOn timerTicks
  rw [phase_eq]
  generalize Config.startTicks = b
  cases g.runMode <;> cases g.autoMode <;> cases b <;> simp [Nat.mod_two_not_eq_one]

/-! One tick, by the phase before it. -/

theorem tickedEngine_of_low (h : g.clockCounter.toNat % 2 = 0) :
    (tickedEngine g).divideBy6Counter = g.divideBy6Counter ∧ (tickedEngine g).shiftRegister = g.shiftRegister := by
  have hc : (g.clockCounter + 1#5).toNat % 2 = (g.clockCounter.toNat + 1) % 2 := by simp
  simp only [tickedEngine, hc]
  rw [if_neg (by omega), if_neg (by omega)]; exact ⟨rfl, rfl⟩

theorem tickedEngine_of_high (h : g.clockCounter.toNat % 2 = 1) :
    (tickedEngine g).divideBy6Counter = div6Table.getD g.divideBy6Counter.toNat 0#4 ∧
      ∀ j < 30, (tickedEngine g).shiftRegister.getLsbD (j + 1) = g.shiftRegister.getLsbD j := by
  have hc : (g.clockCounter + 1#5).toNat % 2 = (g.clockCounter.toNat + 1) % 2 := by simp
  have hf : isFallingEdge (g.clockCounter + 1#5) = true := by rw [isFallingEdge_iff]; omega
  rw [← advance_eq_tickedEngine]
  simp only [Engine.advance, hf, if_true, div6Next_eq_table]
  refine ⟨trivial, fun j hj => ?_⟩
  have : j + 1 < 31 := by omega
  simp [shiftIn, this, BitVec.getLsbD_eq_getElem (show j < 31 by omega)]

/-! The operands by cases. -/

theorem lineOperand_cases (l : BitVec 6) :
    (∃ h : l.toNat < 40, lineOperand l = some ⟨l.toNat, h⟩) ∨ (40 ≤ l.toNat ∧ lineOperand l = none) := by
  by_cases h : l.toNat < 40
  · exact .inl ⟨h, lineOperand_of_le h⟩
  · exact .inr ⟨by omega, lineOperand_of_gt (by omega)⟩

theorem levelOperand_cases (v : BitVec 8) :
    (∃ h : v.toNat < 50, levelOperand v = some ⟨v.toNat, h⟩) ∨ (50 ≤ v.toNat ∧ levelOperand v = none) := by
  by_cases h : v.toNat < 50
  · exact .inl ⟨h, levelOperand_of_le h⟩
  · exact .inr ⟨by omega, levelOperand_of_gt (by omega)⟩

theorem runOperand_cases (v : BitVec 8) :
    (v = 0#8 ∧ runOperand v = some .off) ∨ (v = 1#8 ∧ runOperand v = some .run) ∨
      (v = 2#8 ∧ runOperand v = some .start) ∨ (3 ≤ v.toNat ∧ runOperand v = none) := by
  revert v; decide

theorem seqOperand_cases (v : BitVec 8) :
    (v = 0#8 ∧ seqOperand v = some .auto) ∨ (v = 1#8 ∧ seqOperand v = some .hold) ∨
      (2 ≤ v.toNat ∧ seqOperand v = none) := by
  revert v; decide

/-! Updates of every engine. -/

/-- The registers of one engine, read through such an update. -/
theorem getElem?_of_map {es es' : List Engine} {F : EngineId → Engine → Engine}
    (h : ∀ x, es'[x]? = es[x]?.map (F x)) {x : EngineId} {k : Engine} (hk : es[x]? = some k) :
    es'[x]? = some (F x k) := by
  rw [h x, hk]; rfl

/-- An update of every engine that keeps the links keeps the invariant. -/
theorem inv_of_map {F : EngineId → Engine → Engine} (h : ∀ x, t.engines[x]? = s.engines[x]?.map (F x))
    (hF : ∀ x k, s.engines[x]? = some k → (F x k).master = k.master ∧ (F x k).subs = k.subs) (hi : Inv s) : Inv t := by
  have hl := length_eq_of_getElem?_map h
  refine ⟨by rw [hl]; exact hi.atLeastOne, by rw [hl]; exact hi.atMostMax, topologyOk_congr ?_ ?_ hi.topology⟩
  · funext x
    cases hx : s.engines[x]? with
    | none => simp [masterOf, h x, hx]
    | some k => simp [masterOf, h x, hx, (hF x k hx).1]
  · funext x
    cases hx : s.engines[x]? with
    | none => simp [subsOf, h x, hx]
    | some k => simp [subsOf, h x, hx, (hF x k hx).2]

/-- Of an engine that is not e and not below it, a tick of e leaves every register. -/
theorem afterTick_of_not_below {es : List Engine} {e x : EngineId} (hx : x ≠ e) (hb : ¬ Below es e x) (h : Engine) :
    afterTick es e x h = h := by
  simp [afterTick, hx, receives_eq_none hb]

/-! Commands one after another. -/

theorem execAll_snoc {is : List Instr} {i : Instr} (h : execAll is s = .next t) : execAll (is ++ [i]) s = exec i t := by
  induction is generalizing s with
  | nil => simp only [execAll, Host.Outcome.next.injEq] at h; subst h; simp [execAll]; cases exec i s <;> rfl
  | cons j js ih =>
    simp only [execAll, List.cons_append] at h ⊢
    cases hj : exec j s with
    | next u => rw [hj] at h; exact ih h
    | fault r => rw [hj] at h; cases h
    | refused r => rw [hj] at h; cases h

end Sys2Proof.Machine
end

