-- ==== Sys2Proof/Laws/Decode.lean ====
section
/-! SUPPORT. Words as an opcode above eleven low bits: every format is one, its fields read back, and the checks of
R76 are about the low bits. -/

namespace Sys2Proof

/-! Every format as an opcode above its low bits. -/

theorem wordN_eq (op : BitVec 5) : wordN op = wordReserved op 0#11 := rfl

theorem wordB_eq (op : BitVec 5) (b : Bool) : wordB op b = wordReserved op (0#10 ++ BitVec.ofBool b) :=
  BitVec.append_assoc

theorem wordL_eq (op : BitVec 5) (l : BitVec 6) : wordL op l = wordReserved op (0#5 ++ l) := BitVec.append_assoc

theorem wordS_eq (op : BitVec 5) (idx : BitVec 2) (l : BitVec 6) :
    wordS op idx l = wordReserved op (idx ++ (0#3 ++ l)) := by
  have h : wordS op idx l = (op ++ idx) ++ (0#3 ++ l) := BitVec.append_assoc (x₁ := op ++ idx)
  rw [h]; exact BitVec.append_assoc

theorem wordV_eq (op : BitVec 5) (v : BitVec 8) : wordV op v = wordReserved op (0#3 ++ v) := BitVec.append_assoc

theorem wordG_eq (op : BitVec 5) (sel : BitVec 4) : wordG op sel = wordReserved op (0#7 ++ sel) :=
  BitVec.append_assoc

theorem matchOf_eq (op : BitVec 5) : matchOf op = wordReserved op 0#11 := rfl

/-! The opcode and the low bits read back. -/

theorem opcodeOf_wordReserved (op : BitVec 5) (low : BitVec 11) : opcodeOf (wordReserved op low) = op := by
  ext i hi
  have h := BitVec.getLsbD_append (x := op) (y := low) (i := 11 + i)
  have h' : (wordReserved op low).getLsbD (11 + i) = op.getLsbD i := h.trans (by simp)
  simpa [opcodeOf, hi, BitVec.getLsbD_eq_getElem] using h'

theorem fieldLow_wordReserved (op : BitVec 5) (low : BitVec 11) : fieldLow (wordReserved op low) = low := by
  ext i hi
  have h := BitVec.getLsbD_append (x := op) (y := low) (i := i)
  have h' : (wordReserved op low).getLsbD i = low.getLsbD i := h.trans (by simp [hi])
  simpa [fieldLow, hi, BitVec.getLsbD_eq_getElem] using h'

/-- A word is its opcode above its low bits. -/
theorem word_eq_wordReserved (w : Word) : w = wordReserved (opcodeOf w) (fieldLow w) := by
  apply BitVec.eq_of_getLsbD_eq
  intro i hi
  refine Eq.trans ?_ (BitVec.getLsbD_append (x := opcodeOf w) (y := fieldLow w) (i := i)).symm
  by_cases h : i < 11
  · simp [h, fieldLow]
  · have h5 : i - 11 < 5 := by omega
    have h11 : 11 + (i - 11) = i := by omega
    simp [h, opcodeOf, h5, h11]

/-- A field of the low bits is that field of the word. -/
theorem extractLsb'_fieldLow (w : Word) (lo n : Nat) (h : lo + n ≤ 11) :
    (fieldLow w).extractLsb' lo n = w.extractLsb' lo n := by
  ext i hi
  have : lo + i < 11 := by omega
  simp [fieldLow, this]

/-- The reserved-bit check of R76 is a check of the low bits. -/
theorem reservedBits_iff (op : BitVec 5) (low m : BitVec 11) :
    (wordReserved op low &&& ~~~ (wordReserved 0#5 m) = matchOf op) ↔ low &&& ~~~ m = 0#11 := by
  have h : wordReserved op low &&& ~~~ (wordReserved 0#5 m) = wordReserved op (low &&& ~~~ m) := by
    apply BitVec.eq_of_getLsbD_eq
    intro i hi
    have e (o : BitVec 5) (l : BitVec 11) :
        (wordReserved o l).getLsbD i = if i < 11 then l.getLsbD i else o.getLsbD (i - 11) := BitVec.getLsbD_append
    rw [BitVec.getLsbD_and, BitVec.getLsbD_not, e, e, e]
    by_cases h : i < 11 <;> simp [h, hi]
  rw [h]
  refine ⟨fun h2 => ?_, fun h2 => by rw [h2]; rfl⟩
  have := congrArg fieldLow h2
  rwa [fieldLow_wordReserved, matchOf_eq, fieldLow_wordReserved] at this

/-- The low operand bits of each format (R71). -/
def Format.lowBits (f : Format) : BitVec 11 := fieldLow f.operandBits

theorem Format.operandBits_eq (f : Format) : f.operandBits = wordReserved 0#5 f.lowBits := by
  cases f <;> decide

/-! Extension words (R72). -/

theorem getLsbD_wordX (a b : BitVec 6) (i : Nat) :
    (wordX a b).getLsbD i = if i < 6 then b.getLsbD i else if i < 8 then false else a.getLsbD (i - 8) := by
  have h (x : BitVec 10) (y : BitVec 6) (i : Nat) := BitVec.getLsbD_append (x := x) (y := y) (i := i)
  rw [wordX, h, BitVec.getLsbD_append (x := 0#2 ++ a) (y := 0#2), BitVec.getLsbD_append (x := 0#2) (y := a)]
  by_cases h6 : i < 6
  · simp [h6]
  · by_cases h8 : i < 8
    · have : i - 6 < 2 := by omega
      simp [h6, h8, this]
    · have h2 : ¬ i - 6 < 2 := by omega
      have he : i - 6 - 2 = i - 8 := by omega
      by_cases h14 : i - 8 < 6
      · simp [h6, h8, h2, he, h14]
      · simp [h6, h8, h2, he, h14, BitVec.getLsbD_of_ge _ _ (Nat.le_of_not_lt h14)]

/-- Extension word X as the two codes at their places. -/
theorem wordX_eq_or (a b : BitVec 6) : wordX a b = a.zeroExtend 16 <<< 8 ||| b.zeroExtend 16 := by
  apply BitVec.eq_of_getLsbD_eq
  intro i hi
  rw [getLsbD_wordX]
  interval_cases i <;> simp

theorem fieldExtA_wordX (a b : BitVec 6) : fieldExtA (wordX a b) = a := by
  apply BitVec.eq_of_getLsbD_eq
  intro i hi
  have h6 : ¬ 8 + i < 6 := by omega
  simp [fieldExtA, hi, getLsbD_wordX, h6]

theorem fieldExtB_wordX (a b : BitVec 6) : fieldExtB (wordX a b) = b := by
  apply BitVec.eq_of_getLsbD_eq
  intro i hi
  simp [fieldExtB, hi, getLsbD_wordX]

theorem wordX_and_reserved (a b : BitVec 6) : wordX a b &&& extensionReserved = 0#16 := by
  apply BitVec.eq_of_getLsbD_eq
  intro i hi
  rw [BitVec.getLsbD_and, getLsbD_wordX]
  interval_cases i <;> simp [extensionReserved]

/-! The opcode map, row by row (R74). -/

/-- The model's match values and masks are the columns of R74. -/
theorem opcode_map_rows (op : BitVec 5) :
    matchOf op = Machine.matchColumn.getD op.toNat 0#16 ∧
      ~~~ (formatOf op).operandBits = Machine.maskColumn.getD op.toNat 0#16 := by
  revert op; decide

/-! The operand fields of a word, as fields of its low bits (R73). -/

theorem fieldIdx_wordReserved (op : BitVec 5) (low : BitVec 11) :
    fieldIdx (wordReserved op low) = low.extractLsb' 9 2 := by
  have h := extractLsb'_fieldLow (wordReserved op low) 9 2 (by omega)
  rw [fieldLow_wordReserved] at h; exact h.symm

theorem fieldLine_wordReserved (op : BitVec 5) (low : BitVec 11) :
    fieldLine (wordReserved op low) = low.extractLsb' 0 6 := by
  have h := extractLsb'_fieldLow (wordReserved op low) 0 6 (by omega)
  rw [fieldLow_wordReserved] at h; exact h.symm

theorem fieldV_wordReserved (op : BitVec 5) (low : BitVec 11) :
    fieldV (wordReserved op low) = low.extractLsb' 0 8 := by
  have h := extractLsb'_fieldLow (wordReserved op low) 0 8 (by omega)
  rw [fieldLow_wordReserved] at h; exact h.symm

theorem fieldSel_wordReserved (op : BitVec 5) (low : BitVec 11) :
    fieldSel (wordReserved op low) = low.extractLsb' 0 4 := by
  have h := extractLsb'_fieldLow (wordReserved op low) 0 4 (by omega)
  rw [fieldLow_wordReserved] at h; exact h.symm

theorem fieldB_wordReserved (op : BitVec 5) (low : BitVec 11) : fieldB (wordReserved op low) = low.getLsbD 0 :=
  (BitVec.getLsbD_append (x := op) (y := low) (i := 0)).trans (by simp)

/-- An extension word whose reserved bits are zero is the word of its two codes (R72). -/
theorem wordX_of_fields {x : Word} (h : x &&& extensionReserved = 0#16) : x = wordX (fieldExtA x) (fieldExtB x) := by
  have hb : ∀ i, (x &&& extensionReserved).getLsbD i = false := by intro i; rw [h]; simp
  have h14 := hb 14; have h15 := hb 15; have h6 := hb 6; have h7 := hb 7
  apply BitVec.eq_of_getLsbD_eq
  intro i hi
  refine Eq.trans ?_ (BitVec.getLsbD_append (x := 0#2 ++ fieldExtA x ++ 0#2) (y := fieldExtB x) (i := i)).symm
  rw [BitVec.getLsbD_append (x := 0#2 ++ fieldExtA x) (y := 0#2) (i := i - 6),
    BitVec.getLsbD_append (x := 0#2) (y := fieldExtA x) (i := i - 6 - 2)]
  simp [extensionReserved] at h14 h15 h6 h7
  interval_cases i <;> simp [fieldExtA, fieldExtB] <;> assumption

/-- What a list of words that decodes to an instruction went through (R76). -/
theorem decode_eq_instr {ws : List Word} {i : Instr} (h : decode ws = .instr i) :
    ∃ op low xs, ws = wordReserved op low :: xs ∧ xs.length + 1 = commandLength op ∧
      low &&& ~~~ (formatOf op).lowBits = 0#11 ∧ (∀ x ∈ xs, x &&& extensionReserved = 0#16) ∧
      instrOf (wordReserved op low) xs = .instr i := by
  cases ws with
  | nil => simp [decode] at h
  | cons w xs =>
    refine ⟨opcodeOf w, fieldLow w, xs, by rw [← word_eq_wordReserved], ?_⟩
    rw [← word_eq_wordReserved]
    simp only [decode] at h
    split at h
    · cases h
    · split at h
      · cases h
      · rename_i h1 h2
        split at h
        · cases h
        · rename_i h3
          refine ⟨by simpa using h1, ?_, fun x hx => by simpa using List.find?_eq_none.mp h3 x hx, h⟩
          rw [word_eq_wordReserved w, opcodeOf_wordReserved, Format.operandBits_eq] at h2
          exact (reservedBits_iff (opcodeOf w) (fieldLow w) (formatOf (opcodeOf w)).lowBits).mp (by simpa using h2)

end Sys2Proof
end

