-- ==== Sys2Proof/Laws/Links.lean ====
section
/-! SUPPORT. PLUG's walk, and what attaching and detaching an engine do to the links: each keeps the invariant of
R35. -/

namespace Sys2Proof.Machine

variable {es : List Engine} {e m x : EngineId}

/-- PLUG's walk completes in a forest, and says whether it meets e (R186). -/
theorem walkMeets_spec (ht : TopologyOk es) {f : Nat} (hx : x < es.length) (hf : chainEnds es f x = true) :
    ∃ b, walkMeets es e f x = some b ∧ (b = true ↔ x = e ∨ Below es e x) := by
  induction f generalizing x with
  | zero => simp [chainEnds] at hf
  | succ f ih =>
    unfold walkMeets
    by_cases hxe : x = e
    · exact ⟨true, by simp [hxe], by simp [hxe]⟩
    · obtain ⟨g, hg⟩ : ∃ g, es[x]? = some g := ⟨_, List.getElem?_eq_getElem hx⟩
      simp only [hxe, if_false, hg, false_or]
      cases hm : g.master with
      | none =>
        refine ⟨false, rfl, ?_⟩
        have hmx : masterOf es x = none := by rw [masterOf_of_getElem? hg, hm]
        simp only [Bool.false_eq_true, false_iff]
        intro hb
        cases hb with
        | direct h => rw [hmx] at h; cases h
        | through h _ => rw [hmx] at h; cases h
      | some y =>
        have hmx : masterOf es x = some y := by rw [masterOf_of_getElem? hg, hm]
        rw [chainEnds_of_master hmx] at hf
        obtain ⟨b, h1, h2⟩ := ih (ht.master_lt hmx) hf
        refine ⟨b, h1, h2.trans ⟨?_, ?_⟩⟩
        · rintro (rfl | hb)
          · exact .direct hmx
          · exact .through hmx hb
        · intro hb
          cases hb with
          | direct h => rw [hmx] at h; cases h; exact .inl rfl
          | through h hb => rw [hmx] at h; cases h; exact .inr hb

/-- An attachment, as two engines replaced (R186). -/
theorem attach_eq_set (hem : e ≠ m) {g h : Engine} (hg : es[e]? = some g) (hh : es[m]? = some h) :
    attach es e m = (es.set e { g with master := some m }).set m { h with subs := h.subs ++ [e] } := by
  apply List.ext_getElem?
  intro x
  simp only [attach, List.getElem?_modify, List.getElem?_set, List.length_set]
  obtain ⟨he, rfl⟩ := List.getElem?_eq_some_iff.mp hg
  obtain ⟨hm, rfl⟩ := List.getElem?_eq_some_iff.mp hh
  by_cases hxm : m = x
  · subst hxm
    have : ¬ e = m := hem
    simp [this, hm]
  · by_cases hxe : e = x
    · subst hxe
      simp [hxm, he]
    · simp [hxm, hxe]

/-- A detachment and UNPLUG's write, as two engines replaced (R188). -/
theorem detach_eq_set (hem : e ≠ m) {g h : Engine} (hg : es[e]? = some g) (hh : es[m]? = some h) :
    (detach es e m).modify e (fun h => { h with slaveMode := 0#8 }) =
      (es.set m { h with subs := h.subs.filter (· != e) }).set e { g with master := none, slaveMode := 0#8 } := by
  apply List.ext_getElem?
  intro x
  simp only [detach, List.getElem?_modify, List.getElem?_set, List.length_set]
  obtain ⟨he, rfl⟩ := List.getElem?_eq_some_iff.mp hg
  obtain ⟨hm, rfl⟩ := List.getElem?_eq_some_iff.mp hh
  by_cases hxe : e = x
  · subst hxe
    have : ¬ m = e := Ne.symm hem
    simp [this, he]
  · by_cases hxm : m = x
    · subst hxm
      simp [hxe, hm]
    · simp [hxm, hxe]

theorem masterOf_set_set {a b : EngineId} {p q : Engine} (ha : a < es.length) (hb : b < es.length) :
    masterOf ((es.set a p).set b q) x = if b = x then q.master else if a = x then p.master else masterOf es x := by
  simp only [masterOf, List.getElem?_set, List.length_set]
  by_cases h1 : b = x
  · subst h1; simp [hb]
  · by_cases h2 : a = x
    · subst h2; simp [h1, ha]
    · simp [h1, h2]

theorem subsOf_set_set {a b : EngineId} {p q : Engine} (ha : a < es.length) (hb : b < es.length) :
    subsOf ((es.set a p).set b q) x = if b = x then q.subs else if a = x then p.subs else subsOf es x := by
  simp only [subsOf, List.getElem?_set, List.length_set]
  by_cases h1 : b = x
  · subst h1; simp [hb]
  · by_cases h2 : a = x
    · subst h2; simp [h1, ha]
    · simp [h1, h2]

/-- An attachment that makes no cycle keeps the invariant (R35, R186). -/
theorem topologyOk_attach (ht : TopologyOk es) (hem : e ≠ m) {g h : Engine} (hg : es[e]? = some g)
    (hh : es[m]? = some h) (hn : g.master = none) (hb : ¬ Below es e m) : TopologyOk (attach es e m) := by
  have he := (List.getElem?_eq_some_iff.mp hg).1
  have hm := (List.getElem?_eq_some_iff.mp hh).1
  have hme : masterOf es e = none := by rw [masterOf_of_getElem? hg, hn]
  have hsm : subsOf es m = h.subs := subsOf_of_getElem? hh
  rw [attach_eq_set hem hg hh]
  generalize hes' : (es.set e { g with master := some m }).set m { h with subs := h.subs ++ [e] } = es'
  have M : ∀ x, masterOf es' x = if e = x then some m else masterOf es x := by
    intro x
    rw [← hes', masterOf_set_set he hm]
    by_cases h1 : m = x
    · subst h1; simp [hem, masterOf_of_getElem? hh]
    · simp [h1]
  have S : ∀ x, subsOf es' x = if m = x then h.subs ++ [e] else subsOf es x := by
    intro x
    rw [← hes', subsOf_set_set he hm]
    by_cases h1 : e = x
    · subst h1; simp [subsOf_of_getElem? hg]
    · simp [h1]
  refine ⟨fun a b => ?_, fun a => ?_, fun a => ?_⟩
  · rw [M, S]
    have hA := ht.linksAgree a b
    by_cases h1 : m = a
    · subst h1
      rw [hsm] at hA
      by_cases h2 : e = b
      · subst h2; simp
      · simp [h2, hA, Ne.symm h2]
    · by_cases h2 : e = b
      · subst h2; simp [h1, hA, hme]
      · simp [h1, h2, hA]
  · rw [S]
    by_cases h1 : m = a
    · subst h1
      have := ht.noRepeats m
      rw [hsm] at this
      have hne : e ∉ h.subs := by
        rw [← hsm, ht.linksAgree, hme]; simp
      simp [List.nodup_append, this]
      intro a ha h; subst h; exact hne ha
    · simp [h1]; exact ht.noRepeats a
  · -- the chain of an engine that is not below e is as it was
    have k1 : ∀ f x, x ≠ e → ¬ Below es e x → chainEnds es f x = true → chainEnds es' f x = true := by
      intro f
      induction f with
      | zero => intro x _ _ h; simp [chainEnds] at h
      | succ f ih =>
        intro x hx hb h
        unfold chainEnds at h ⊢
        rw [M, if_neg (Ne.symm hx)]
        cases hmx : masterOf es x with
        | none => rfl
        | some y =>
          simp only [hmx] at h ⊢
          exact ih y (fun hy => hb (.direct (hy ▸ hmx))) (fun hy => hb (.through hmx hy)) h
    obtain ⟨fm, hfm⟩ := ht.forest m
    have hce : chainEnds es' (fm + 1) e = true := by
      unfold chainEnds; rw [M, if_pos rfl]; exact k1 fm m (Ne.symm hem) hb hfm
    have k2 : ∀ f x, chainEnds es f x = true → ∃ f', chainEnds es' f' x = true := by
      intro f
      induction f with
      | zero => intro x h; simp [chainEnds] at h
      | succ f ih =>
        intro x h
        by_cases hx : e = x
        · subst hx; exact ⟨_, hce⟩
        · unfold chainEnds at h
          cases hmx : masterOf es x with
          | none => exact ⟨1, by simp [chainEnds, M, hx, hmx]⟩
          | some y =>
            simp only [hmx] at h
            obtain ⟨f', hf'⟩ := ih y h
            exact ⟨f'+1, by simp [chainEnds, M, hx, hmx, hf']⟩
    obtain ⟨f, hf⟩ := ht.forest a
    exact k2 f a hf

/-- A detachment keeps the invariant (R35, R188). -/
theorem topologyOk_detach (ht : TopologyOk es) (hem : e ≠ m) {g h : Engine} (hg : es[e]? = some g)
    (hh : es[m]? = some h) (hn : g.master = some m) :
    TopologyOk
      ((es.set m { h with subs := h.subs.filter (· != e) }).set e { g with master := none, slaveMode := 0#8 }) := by
  have he := (List.getElem?_eq_some_iff.mp hg).1
  have hm := (List.getElem?_eq_some_iff.mp hh).1
  have hme : masterOf es e = some m := by rw [masterOf_of_getElem? hg, hn]
  have hsm : subsOf es m = h.subs := subsOf_of_getElem? hh
  generalize hes' :
    (es.set m { h with subs := h.subs.filter (· != e) }).set e { g with master := none, slaveMode := 0#8 } = es'
  have M : ∀ x, masterOf es' x = if e = x then none else masterOf es x := by
    intro x
    rw [← hes', masterOf_set_set hm he]
    by_cases h1 : m = x
    · subst h1; simp [hem, masterOf_of_getElem? hh]
    · simp [h1]
  have S : ∀ x, subsOf es' x = if m = x then h.subs.filter (· != e) else subsOf es x := by
    intro x
    rw [← hes', subsOf_set_set hm he]
    by_cases h1 : e = x
    · subst h1; simp [subsOf_of_getElem? hg, Ne.symm hem]
    · simp [h1]
  refine ⟨fun a b => ?_, fun a => ?_, fun a => ?_⟩
  · rw [M, S]
    have hA := ht.linksAgree a b
    by_cases h1 : m = a
    · subst h1
      rw [hsm] at hA
      by_cases h2 : e = b
      · subst h2; simp
      · simp [h2, hA, Ne.symm h2]
    · by_cases h2 : e = b
      · subst h2; simp [h1, hA, hme]
      · simp [h1, h2, hA]
  · rw [S]
    by_cases h1 : m = a
    · subst h1
      have := ht.noRepeats m
      rw [hsm] at this
      simp [this.filter]
    · simp [h1]; exact ht.noRepeats a
  · obtain ⟨f, hf⟩ := ht.forest a
    refine ⟨f, ?_⟩
    revert hf
    induction f generalizing a with
    | zero => intro h; simp [chainEnds] at h
    | succ f ih =>
      intro h
      unfold chainEnds at h ⊢
      rw [M]
      by_cases hx : e = a
      · simp [hx]
      · rw [if_neg hx]
        cases hmx : masterOf es a with
        | none => rfl
        | some y =>
          simp only [hmx] at h ⊢
          exact ih y h

end Sys2Proof.Machine
end

