-- ==== Sys2Proof/Laws/Order.lean ====
section
/-! SUPPORT. What the order of registration does not change (R246): lists of engines that differ in it at most have
the same links, the same topology, the same received bits and, but for it, the same engines after a tick. -/

namespace Sys2Proof.Machine

variable {es es' fs fs' : List Engine} {g g' : Engine} {x : EngineId}

theorem reordered_refl (g : Engine) : reordered g g := ⟨g.subs, .refl _, rfl⟩

theorem forall₂_reordered_iff : List.Forall₂ reordered es es' ↔ es'.length = es.length ∧
    ∀ (x : EngineId) (g : Engine), es[x]? = some g → ∃ g', es'[x]? = some g' ∧ reordered g g' := by
  constructor
  · intro h
    induction h with
    | nil => exact ⟨rfl, by simp⟩
    | cons hab _ ih =>
      refine ⟨by simp [ih.1], fun x g hx => ?_⟩
      cases x with
      | zero => simp at hx; subst hx; exact ⟨_, by simp, hab⟩
      | succ x => simpa using ih.2 x g (by simpa using hx)
  · rintro ⟨hl, h⟩
    induction es generalizing es' with
    | nil => simp at hl; subst hl; exact .nil
    | cons a as ih =>
      cases es' with
      | nil => simp at hl
      | cons b bs =>
        obtain ⟨b', hb, hab⟩ := h 0 a (by simp)
        simp at hb; subst hb
        exact .cons hab (ih (by simpa using hl) fun x g hx => by simpa using h (x + 1) g (by simpa using hx))

/-- The engine at x, in both lists. -/
theorem getElem?_reordered (h : List.Forall₂ reordered es es') (hg : es[x]? = some g) :
    ∃ g', es'[x]? = some g' ∧ reordered g g' := (forall₂_reordered_iff.mp h).2 x g hg

theorem getElem?_reordered_none (h : List.Forall₂ reordered es es') (hg : es[x]? = none) : es'[x]? = none := by
  simpa [(forall₂_reordered_iff.mp h).1] using hg

theorem reordered_set (h : List.Forall₂ reordered es es') (hg : reordered g g') (e : EngineId) :
    List.Forall₂ reordered (es.set e g) (es'.set e g') := by
  rw [forall₂_reordered_iff] at h ⊢
  refine ⟨by simp [h.1], fun x k hx => ?_⟩
  simp only [List.getElem?_set, h.1] at hx ⊢
  by_cases hex : e = x
  · simp only [hex, if_true] at hx ⊢
    split at hx
    · rw [if_pos ‹_›]; cases hx; exact ⟨_, rfl, hg⟩
    · cases hx
  · rw [if_neg hex] at hx ⊢
    exact h.2 x k hx

/-- Two lists changed engine by engine (as the spec lemmas of `tick` and `slaveStep` say). -/
theorem reordered_map (h : List.Forall₂ reordered es es') {F F' : EngineId → Engine → Engine}
    (hf : ∀ x, fs[x]? = es[x]?.map (F x)) (hf' : ∀ x, fs'[x]? = es'[x]?.map (F' x))
    (hF : ∀ x g g', es[x]? = some g → es'[x]? = some g' → reordered g g' → reordered (F x g) (F' x g')) :
    List.Forall₂ reordered fs fs' := by
  rw [forall₂_reordered_iff]
  refine ⟨?_, fun x k hx => ?_⟩
  · rw [length_eq_of_getElem?_map hf', length_eq_of_getElem?_map hf, (forall₂_reordered_iff.mp h).1]
  · rw [hf x] at hx
    cases hg : es[x]? with
    | none => rw [hg] at hx; cases hx
    | some g =>
      rw [hg] at hx; cases hx
      obtain ⟨g', h1, h2⟩ := getElem?_reordered h hg
      exact ⟨_, by rw [hf' x, h1]; rfl, hF x g g' hg h1 h2⟩

theorem masterOf_reordered (h : List.Forall₂ reordered es es') : masterOf es' = masterOf es := by
  funext x
  cases hg : es[x]? with
  | none => simp [masterOf, hg, getElem?_reordered_none h hg]
  | some g =>
    obtain ⟨g', h1, l, _, rfl⟩ := getElem?_reordered h hg
    simp [masterOf, hg, h1]

theorem subsOf_reordered (h : List.Forall₂ reordered es es') (x : EngineId) : (subsOf es' x).Perm (subsOf es x) := by
  cases hg : es[x]? with
  | none => simp [subsOf, hg, getElem?_reordered_none h hg]
  | some g =>
    obtain ⟨g', h1, l, hl, rfl⟩ := getElem?_reordered h hg
    simpa [subsOf, hg, h1] using hl

theorem topologyOk_reordered (h : List.Forall₂ reordered es es') (ht : TopologyOk es) : TopologyOk es' := by
  refine ⟨fun a b => ?_, fun a => ?_, fun a => ?_⟩
  · rw [masterOf_reordered h, ← ht.linksAgree]; exact (subsOf_reordered h a).mem_iff
  · exact (subsOf_reordered h a).nodup_iff.mpr (ht.noRepeats a)
  · obtain ⟨f, hf⟩ := ht.forest a
    exact ⟨f, (chainEnds_congr (masterOf_reordered h) f a).trans hf⟩

theorem receives_reordered (h : List.Forall₂ reordered es es') (e : EngineId) (f : Nat) (x : EngineId) :
    receives es' e f x = receives es e f x := by
  induction f generalizing x with
  | zero => rfl
  | succ f ih =>
    rw [receives, receives, masterOf_reordered h]
    cases masterOf es x with
    | none => rfl
    | some m =>
      simp only [ih]
      cases hg : es[m]? with
      | none => simp [getElem?_reordered_none h hg]
      | some g =>
        obtain ⟨g', h1, l, _, rfl⟩ := getElem?_reordered h hg
        simp only [h1]; rfl

theorem bitReaction_reordered (h : reordered g g') (b : Bool) : reordered (bitReaction g b) (bitReaction g' b) := by
  obtain ⟨l, hl, rfl⟩ := h
  refine ⟨l, by rw [(bitReaction_sameSettings g b).2.2.2.2.2.2.2.2.2.2]; exact hl, ?_⟩
  have : bitTicks { g with subs := l } b = bitTicks g b := rfl
  unfold bitReaction
  simp only [this]
  split <;> split <;> rfl

theorem tickedEngine_reordered (h : reordered g g') : reordered (tickedEngine g) (tickedEngine g') := by
  obtain ⟨l, hl, rfl⟩ := h
  exact ⟨l, hl, rfl⟩

theorem afterTick_reordered (h : List.Forall₂ reordered es es') (e x : EngineId) (hg : reordered g g') :
    reordered (afterTick es e x g) (afterTick es' e x g') := by
  unfold afterTick
  rw [(forall₂_reordered_iff.mp h).1, receives_reordered h]
  split
  · exact tickedEngine_reordered hg
  · cases receives es e es.length x with
    | none => exact hg
    | some b => exact bitReaction_reordered hg b

end Sys2Proof.Machine
end

