-- ==== Sys2Proof/Laws/PerInstr.lean ====
section
/-! SUPPORT. Family EncodedForm: an instruction's encoding passes the checks of R76, one lemma per constructor. -/

namespace Sys2Proof.Laws.EncodedForm

/-- The encoding of i has the length of its opcode, and no reserved-zero bit set in word 0 or an extension word. -/
def Statement (i : Instr) : Prop :=
  ∃ w xs, encode i = w :: xs ∧ xs.length + 1 = commandLength (opcodeOf w) ∧
    w &&& ~~~ (formatOf (opcodeOf w)).operandBits = matchOf (opcodeOf w) ∧
    ∀ x ∈ xs, x &&& extensionReserved = 0#16

/-- A one-word encoding, as an opcode above low bits that are the format's operand bits. -/
theorem of_low {i : Instr} (op : BitVec 5) (low : BitVec 11) (he : encode i = [wordReserved op low])
    (hop : commandLength op = 1) (hlow : low &&& ~~~ (formatOf op).lowBits = 0#11) : Statement i := by
  refine ⟨_, [], he, ?_, ?_, by simp⟩
  · rw [opcodeOf_wordReserved, hop]; rfl
  · rw [opcodeOf_wordReserved, Format.operandBits_eq]; exact (reservedBits_iff _ _ _).mpr hlow

theorem tick : Statement (.tick) := of_low 0x01#5 0#11 rfl rfl (by decide)

theorem reset : Statement (.reset) := of_low 0x02#5 0#11 rfl rfl (by decide)

theorem timer : Statement (.timer) := of_low 0x03#5 0#11 rfl rfl (by decide)

theorem stepPress : Statement (.stepPress) := of_low 0x04#5 0#11 rfl rfl (by decide)

theorem stepRelease : Statement (.stepRelease) := of_low 0x05#5 0#11 rfl rfl (by decide)

theorem readLine (line : BitVec 6) : Statement (.readLine line) :=
  of_low 0x06#5 _ (congrArg (· :: []) (wordL_eq _ line)) rfl (by revert line; decide)

theorem decodeAddr : Statement (.decodeAddr) := of_low 0x07#5 0#11 rfl rfl (by decide)

theorem decodePitch : Statement (.decodePitch) := of_low 0x08#5 0#11 rfl rfl (by decide)

theorem setInterval (idx : BitVec 2) (line : BitVec 6) : Statement (.setInterval idx line) :=
  of_low 0x09#5 _ (congrArg (· :: []) (wordS_eq _ idx line)) rfl (by revert idx line; decide)

theorem setTheme (idx : BitVec 2) (line : BitVec 6) : Statement (.setTheme idx line) :=
  of_low 0x0A#5 _ (congrArg (· :: []) (wordS_eq _ idx line)) rfl (by revert idx line; decide)

theorem setRest (b : Bool) : Statement (.setRest b) :=
  of_low 0x0B#5 _ (congrArg (· :: []) (wordB_eq _ b)) rfl (by revert b; decide)

theorem setRun (v : BitVec 8) : Statement (.setRun v) :=
  of_low 0x0C#5 _ (congrArg (· :: []) (wordV_eq _ v)) rfl (by revert v; decide)

theorem setSeq (v : BitVec 8) : Statement (.setSeq v) :=
  of_low 0x0D#5 _ (congrArg (· :: []) (wordV_eq _ v)) rfl (by revert v; decide)

theorem setTempo (v : BitVec 8) : Statement (.setTempo v) :=
  of_low 0x0E#5 _ (congrArg (· :: []) (wordV_eq _ v)) rfl (by revert v; decide)

theorem setVolume (v : BitVec 8) : Statement (.setVolume v) :=
  of_low 0x0F#5 _ (congrArg (· :: []) (wordV_eq _ v)) rfl (by revert v; decide)

theorem setPitchCtl (v : BitVec 8) : Statement (.setPitchCtl v) :=
  of_low 0x10#5 _ (congrArg (· :: []) (wordV_eq _ v)) rfl (by revert v; decide)

theorem setSlaveMode (v : BitVec 8) : Statement (.setSlaveMode v) :=
  of_low 0x11#5 _ (congrArg (· :: []) (wordV_eq _ v)) rfl (by revert v; decide)

theorem slaveStep (b : Bool) : Statement (.slaveStep b) :=
  of_low 0x12#5 _ (congrArg (· :: []) (wordB_eq _ b)) rfl (by revert b; decide)

theorem plug (v : BitVec 8) : Statement (.plug v) :=
  of_low 0x13#5 _ (congrArg (· :: []) (wordV_eq _ v)) rfl (by revert v; decide)

theorem unplug : Statement (.unplug) := of_low 0x14#5 0#11 rfl rfl (by decide)

theorem applyPreset (rest : Bool) (i0 i1 i2 i3 t0 t1 t2 t3 : BitVec 6) :
    Statement (.applyPreset rest i0 i1 i2 i3 t0 t1 t2 t3) := by
  refine ⟨_, _, rfl, ?_, ?_, ?_⟩
  · rw [wordB_eq, opcodeOf_wordReserved]; rfl
  · cases rest <;> decide
  · simp only [List.mem_cons, List.not_mem_nil, or_false]
    rintro x (rfl | rfl | rfl | rfl) <;> exact wordX_and_reserved _ _

theorem getCtl (sel : BitVec 4) : Statement (.getCtl sel) :=
  of_low 0x16#5 _ (congrArg (· :: []) (wordG_eq _ sel)) rfl (by revert sel; decide)

theorem reservedOp00 (low : BitVec 11) : Statement (.reservedOp00 low) :=
  of_low 0x00#5 low rfl rfl (by rw [show (formatOf 0x00#5).lowBits = BitVec.allOnes 11 by decide]; simp)

theorem reservedOp17 (low : BitVec 11) : Statement (.reservedOp17 low) :=
  of_low 0x17#5 low rfl rfl (by rw [show (formatOf 0x17#5).lowBits = BitVec.allOnes 11 by decide]; simp)

theorem reservedOp18 (low : BitVec 11) : Statement (.reservedOp18 low) :=
  of_low 0x18#5 low rfl rfl (by rw [show (formatOf 0x18#5).lowBits = BitVec.allOnes 11 by decide]; simp)

theorem reservedOp19 (low : BitVec 11) : Statement (.reservedOp19 low) :=
  of_low 0x19#5 low rfl rfl (by rw [show (formatOf 0x19#5).lowBits = BitVec.allOnes 11 by decide]; simp)

theorem reservedOp1A (low : BitVec 11) : Statement (.reservedOp1A low) :=
  of_low 0x1A#5 low rfl rfl (by rw [show (formatOf 0x1A#5).lowBits = BitVec.allOnes 11 by decide]; simp)

theorem reservedOp1B (low : BitVec 11) : Statement (.reservedOp1B low) :=
  of_low 0x1B#5 low rfl rfl (by rw [show (formatOf 0x1B#5).lowBits = BitVec.allOnes 11 by decide]; simp)

theorem reservedOp1C (low : BitVec 11) : Statement (.reservedOp1C low) :=
  of_low 0x1C#5 low rfl rfl (by rw [show (formatOf 0x1C#5).lowBits = BitVec.allOnes 11 by decide]; simp)

theorem reservedOp1D (low : BitVec 11) : Statement (.reservedOp1D low) :=
  of_low 0x1D#5 low rfl rfl (by rw [show (formatOf 0x1D#5).lowBits = BitVec.allOnes 11 by decide]; simp)

theorem reservedOp1E (low : BitVec 11) : Statement (.reservedOp1E low) :=
  of_low 0x1E#5 low rfl rfl (by rw [show (formatOf 0x1E#5).lowBits = BitVec.allOnes 11 by decide]; simp)

theorem reservedOp1F (low : BitVec 11) : Statement (.reservedOp1F low) :=
  of_low 0x1F#5 low rfl rfl (by rw [show (formatOf 0x1F#5).lowBits = BitVec.allOnes 11 by decide]; simp)

end Sys2Proof.Laws.EncodedForm
end

