-- ==== Sys2Proof/Tests/Slice0.lean ====
section
/-! SUPPORT. The model's own tests: the well-formedness check, words written out bit by bit from the patterns of
30_encoding.md R71 and R72, single steps of 95_test_vectors.md (each test names its vector), and, for every statement
with hypotheses, a concrete state and operands that meet them. -/

namespace Sys2Proof.Tests

open Sys2Proof Sys2Proof.Machine

/-! Well-formedness: each check refuses an ill-formed term. -/

theorem test_wellFormed_refuses_reserved_rows :
    (Instr.reservedOp00 0#11).wellFormed = false ∧ (Instr.reservedOp17 0#11).wellFormed = false ∧
    (Instr.reservedOp18 0#11).wellFormed = false ∧ (Instr.reservedOp19 0#11).wellFormed = false ∧
    (Instr.reservedOp1A 0#11).wellFormed = false ∧ (Instr.reservedOp1B 0#11).wellFormed = false ∧
    (Instr.reservedOp1C 0#11).wellFormed = false ∧ (Instr.reservedOp1D 0#11).wellFormed = false ∧
    (Instr.reservedOp1E 0#11).wellFormed = false ∧ (Instr.reservedOp1F 0x7FF#11).wellFormed = false := by decide

theorem test_wellFormed_accepts_any_operand :
    (Instr.readLine 63#6).wellFormed = true ∧ (Instr.setTempo 255#8).wellFormed = true ∧
    (Instr.applyPreset false 63 63 63 63 63 63 63 63).wellFormed = true := by decide

/-! Decoding: words written out from the patterns. -/

theorem test_decode_format_N :
    decode [0b0000100000000000#16] = .instr .tick ∧ decode [0b0001000000000000#16] = .instr .reset ∧
    decode [0b0001100000000000#16] = .instr .timer ∧ decode [0b0010000000000000#16] = .instr .stepPress ∧
    decode [0b0010100000000000#16] = .instr .stepRelease ∧ decode [0b0011100000000000#16] = .instr .decodeAddr ∧
    decode [0b0100000000000000#16] = .instr .decodePitch ∧ decode [0b1010000000000000#16] = .instr .unplug := by
  decide

theorem test_decode_format_B :
    decode [0b0101100000000001#16] = .instr (.setRest true) ∧
    decode [0b0101100000000000#16] = .instr (.setRest false) ∧
    decode [0b1001000000000001#16] = .instr (.slaveStep true) ∧
    decode [0b1001000000000000#16] = .instr (.slaveStep false) := by decide

theorem test_decode_format_L_and_S :
    decode [0b0011000000100110#16] = .instr (.readLine 38#6) ∧
    decode [0b0100111000000110#16] = .instr (.setInterval 3#2 6#6) ∧
    decode [0b0101001000100100#16] = .instr (.setTheme 1#2 36#6) := by decide

theorem test_decode_format_V :
    decode [0b0110000000000010#16] = .instr (.setRun 2#8) ∧ decode [0b0110100000000001#16] = .instr (.setSeq 1#8) ∧
    decode [0b0111000000110001#16] = .instr (.setTempo 49#8) ∧
    decode [0b0111100011111111#16] = .instr (.setVolume 255#8) ∧
    decode [0b1000000000100000#16] = .instr (.setPitchCtl 32#8) ∧
    decode [0b1000100010000001#16] = .instr (.setSlaveMode 129#8) ∧
    decode [0b1001100000000011#16] = .instr (.plug 3#8) := by decide

theorem test_decode_formats_G_and_P :
    decode [0b1011000000001010#16] = .instr (.getCtl 10#4) ∧
    decode [0b1010100000000000#16, 0b0000001000000011#16, 0b0000010000000101#16, 0b0010011100100100#16,
      0b0000000000000001#16] = .instr (.applyPreset false 2 3 4 5 39 36 0 1) := by decide

theorem test_decode_reserved_rows :
    decode [0b0000010000000001#16] = .instr (.reservedOp00 0b10000000001#11) ∧
    decode [0b1011100000000000#16] = .instr (.reservedOp17 0#11) ∧
    decode [0b1100000000000010#16] = .instr (.reservedOp18 2#11) ∧
    decode [0b1100100000000100#16] = .instr (.reservedOp19 4#11) ∧
    decode [0b1101000000001000#16] = .instr (.reservedOp1A 8#11) ∧
    decode [0b1101100000010000#16] = .instr (.reservedOp1B 16#11) ∧
    decode [0b1110000000100000#16] = .instr (.reservedOp1C 32#11) ∧
    decode [0b1110100001000000#16] = .instr (.reservedOp1D 64#11) ∧
    decode [0b1111000010000000#16] = .instr (.reservedOp1E 128#11) ∧
    decode [0b1111111111111111#16] = .instr (.reservedOp1F 0x7FF#11) := by decide

/-- The refusals of 95_test_vectors.md 2.6, each with its offending word (R76). -/
theorem test_decode_refusals :
    decode [0x0801#16] = .illegal 0x0801#16 ∧ decode [0x3040#16] = .illegal 0x3040#16 ∧
    decode [0x5264#16] = .illegal 0x5264#16 ∧ decode [0x6101#16] = .illegal 0x6101#16 ∧
    decode [0x5802#16] = .illegal 0x5802#16 ∧ decode [0xB010#16] = .illegal 0xB010#16 ∧
    decode [0xA801#16] = .illegal 0xA801#16 ∧
    decode [0xA801#16, 0#16, 0#16, 0#16, 0x4000#16] = .illegal 0x4000#16 ∧
    decode [0xA801#16, 0#16, 0#16, 0#16, 0x0040#16] = .illegal 0x0040#16 ∧
    decode [0xA803#16, 0#16, 0#16, 0#16, 0#16] = .illegal 0xA803#16 ∧
    decode [0x0800#16, 0x0800#16] = .illegal 0x0800#16 ∧ decode [] = .illegal 0#16 := by decide

/-- The numbering of the opcode table: a later word's bits count on from the first word's. -/
theorem test_decodeTableWord :
    decodeTableWord 16 0x3027 = some (.readLine 39#6) ∧
    decodeTableWord 80 0x0000_0928_0405_0203_A801 = some (.applyPreset true 2 3 4 5 9 40 0 0) ∧
    decodeTableWord 16 0xA801 = some (.applyPreset true 0 0 0 0 0 0 0 0) ∧ decodeTableWord 16 0x0801 = none := by decide

/-! Single steps. A small state: engines, and one command delivered to engine e. -/

/-- An engine from the registers a vector names, everything else as at power-on (R39). -/
def engine (c : BitVec 5) (d : BitVec 4) (r : BitVec 31) : Engine :=
  { Engine.powerOn .zero with clockCounter := c, divideBy6Counter := d, shiftRegister := r }

/-- "From reset" of 95_test_vectors.md. -/
def fromReset : Engine := engine 1#5 0#4 0#31

/-- These engines, and the words of one command delivered to engine e. -/
def given (es : List Engine) (e : EngineId) (ws : List Word) : State := ⟨es, 0, [⟨e, ws⟩], [], []⟩

/-- The responses and the engines one step leaves. -/
def after (s : State) : Option (List Word × List Engine) :=
  match step s with
  | .next t => some (t.responses, t.engines)
  | _ => none

/-- The responses one step leaves. -/
def responses (s : State) : Option (List Word) := (after s).map Prod.fst

/-- V2.2.2: the wrap of C is a falling edge, and old bit 30 is lost. -/
theorem test_tick_wraps :
    after (given [engine 31#5 15#4 0x40000000#31] 0 [0x0800#16]) = some ([0#16], [engine 0#5 0#4 1#31]) := by decide

/-- V2.2.6: three taps on ON shift in a 0. -/
theorem test_tick_feedback :
    after (given [{ fromReset with theme := #v[1, 1, 1, 0] }] 0 [0x0800#16]) =
      some ([0#16], [{ engine 2#5 1#4 0#31 with theme := #v[1, 1, 1, 0] }]) := by decide

/-- V2.5.3, the first tick: engine 1 in unison ticks, engine 2 under it counts the bit. -/
theorem test_tick_cascade :
    after (given
      [{ fromReset with subs := [1] }, { fromReset with master := some 0, slaveMode := 1#8, subs := [2] },
        { fromReset with master := some 1, slaveMode := 2#8 }] 0 [0x0800#16]) =
      some ([0#16],
        [{ engine 2#5 1#4 1#31 with subs := [1] }, { engine 2#5 1#4 1#31 with
            master := some 0, slaveMode := 1#8, subs := [2] },
          { fromReset with master := some 1, slaveMode := 2#8, slaveClockDivider := 1#8 }]) := by decide

/-- V2.2.8, V2.2.10: a reset keeps DIV. -/
theorem test_reset_keeps_div :
    after (given [{ engine 17#5 9#4 0x1234#31 with slaveClockDivider := 7#8 }] 0 [0x1000#16]) =
      some ([0#16], [{ fromReset with slaveClockDivider := 7#8 }]) := by decide

/-- 2.2.5, RUN and HOLD: no tick with the clock high, one with it low. -/
theorem test_timer_parks_high :
    after (given [{ engine 5#5 0#4 0#31 with runMode := .run, autoMode := .hold }] 0 [0x1800#16]) =
      some ([0#16], [{ engine 5#5 0#4 0#31 with runMode := .run, autoMode := .hold }]) ∧
    after (given [{ engine 6#5 0#4 0#31 with runMode := .run, autoMode := .hold }] 0 [0x1800#16]) =
      some ([0#16], [{ engine 7#5 0#4 0#31 with runMode := .run, autoMode := .hold }]) := by decide

/-- 2.2.5, START: the gate under each value of START_TICKS. -/
theorem test_timer_start :
    ({ fromReset with runMode := .start } : Engine).timerGate true = true ∧
    ({ fromReset with runMode := .start } : Engine).timerGate false = false ∧
    ({ fromReset with runMode := .start, autoMode := .step } : Engine).timerGate true = false := by decide

/-- V2.2.12, V2.2.17: a press ticks with the transport off. -/
theorem test_stepPress :
    after (given [fromReset] 0 [0x2000#16]) = some ([0#16], [{ engine 2#5 1#4 1#31 with autoMode := .step }]) := by decide

/-- V2.2.13: a release with the clock low ticks once more. -/
theorem test_stepRelease :
    after (given [{ engine 2#5 1#4 1#31 with autoMode := .step }] 0 [0x2800#16]) =
      some ([0#16], [{ engine 3#5 1#4 1#31 with autoMode := .hold }]) := by decide

/-- V2.2.11: a release without a press is refused. -/
theorem test_stepRelease_refused :
    after (given [fromReset] 0 [0x2800#16]) = some ([0x8003#16], [fromReset]) := by decide

/-- 2.1: the lines of C = 22, D = 13, S = 0x40000001. -/
theorem test_readLine :
    ([0, 1, 2, 3, 4, 5, 6, 7, 8, 9, 10, 38, 39, 40, 63].map fun l =>
      responses (given [engine 22#5 13#4 0x40000001#31] 0 [0x3000#16 ||| l])) =
    ([0, 1, 0, 1, 1, 0, 1, 1, 1, 1, 0, 0, 1, 0x8001, 0x8001].map fun r => some [r]) := by decide

/-- 2.3: addresses and pitches of the constant lines. -/
theorem test_decode_note :
    ([#v[0, 0, 0, 0], #v[1, 0, 0, 0], #v[1, 1, 1, 0], #v[0, 0, 0, 1], #v[1, 1, 1, 1]].map fun iv =>
      (responses (given [{ fromReset with interval := iv }] 0 [0x3800#16]),
        responses (given [{ fromReset with interval := iv }] 0 [0x4000#16]))) =
    ([(0, 0), (1, 2), (7, 12), (8, 12), (15, 24)].map fun (a, p) => (some [a], some [p])) := by decide

/-- 2.3: the rest. -/
theorem test_decodePitch_rest :
    responses (given [{ fromReset with restEnabled := false }] 0 [0x4000#16]) = some [0x0080#16] := by decide

/-- V2.4.7, V2.4.6. -/
theorem test_setInterval :
    after (given [fromReset] 0 [0x4E06#16]) = some ([0#16], [{ fromReset with interval := #v[0, 0, 0, 6] }]) ∧
    after (given [fromReset] 0 [0x4A28#16]) = some ([0x8003#16], [fromReset]) := by decide

/-- V2.4.8. -/
theorem test_setTheme :
    after (given [fromReset] 0 [0x5224#16]) = some ([0#16], [{ fromReset with theme := #v[0, 36, 0, 0] }]) := by decide

/-- V2.4.20: no reset. -/
theorem test_setRest :
    after (given [engine 9#5 5#4 3#31] 0 [0x5800#16]) =
      some ([0#16], [{ engine 9#5 5#4 3#31 with restEnabled := false }]) := by decide

/-- V2.4.10, V2.4.11: a reset on entering OFF only. -/
theorem test_setRun_off :
    after (given [{ engine 9#5 5#4 3#31 with runMode := .run }] 0 [0x6000#16]) = some ([0#16], [fromReset]) ∧
    after (given [engine 9#5 5#4 3#31] 0 [0x6000#16]) = some ([0#16], [engine 9#5 5#4 3#31]) := by decide

/-- V2.4.13, V2.4.9. -/
theorem test_setRun_run :
    after (given [engine 9#5 5#4 3#31] 0 [0x6001#16]) = some ([0#16], [{ engine 9#5 5#4 3#31 with runMode := .run }]) ∧
    after (given [fromReset] 0 [0x6003#16]) = some ([0x8003#16], [fromReset]) := by decide

/-- V2.4.15, V2.4.14. -/
theorem test_setSeq :
    after (given [engine 6#5 0#4 0#31] 0 [0x6801#16]) =
      some ([0#16], [{ engine 6#5 0#4 0#31 with autoMode := .hold }]) ∧
    after (given [fromReset] 0 [0x6802#16]) = some ([0x8003#16], [fromReset]) := by decide

/-- V2.4.16 to V2.4.19. -/
theorem test_levels :
    after (given [fromReset] 0 [0x7031#16]) = some ([0#16], [{ fromReset with tempo := 49 }]) ∧
    after (given [fromReset] 0 [0x7032#16]) = some ([0x8003#16], [fromReset]) ∧
    after (given [fromReset] 0 [0x78FF#16]) = some ([0x8003#16], [fromReset]) ∧
    after (given [{ fromReset with pitchControl := 7 }] 0 [0x8000#16]) = some ([0#16], [fromReset]) := by decide

/-- 2.5.2, "8, then SET_SLAVEMODE 3": DIV is kept. -/
theorem test_setSlaveMode :
    after (given [{ fromReset with slaveMode := 8#8, slaveClockDivider := 5#8 }] 0 [0x8803#16]) =
      some ([0#16], [{ fromReset with slaveMode := 3#8, slaveClockDivider := 5#8 }]) := by decide

/-- 2.5.2, slaveMode 3: the third bit ticks; slaveMode 4: a 1 only counts. -/
theorem test_slaveStep_divided :
    after (given [{ fromReset with slaveMode := 3#8, slaveClockDivider := 2#8 }] 0 [0x9001#16]) =
      some ([0#16], [{ engine 2#5 1#4 1#31 with slaveMode := 3#8 }]) ∧
    after (given [{ fromReset with slaveMode := 4#8, slaveClockDivider := 3#8 }] 0 [0x9001#16]) =
      some ([0#16], [{ fromReset with slaveMode := 4#8, slaveClockDivider := 4#8 }]) := by decide

/-- 2.5.2, slaveMode 254: DIV saturates, and the next 0 ticks. -/
theorem test_slaveStep_saturates :
    after (given [{ fromReset with slaveMode := 254#8, slaveClockDivider := 255#8 }] 0 [0x9001#16]) =
      some ([0#16], [{ fromReset with slaveMode := 254#8, slaveClockDivider := 255#8 }]) ∧
    after (given [{ fromReset with slaveMode := 254#8, slaveClockDivider := 255#8 }] 0 [0x9000#16]) =
      some ([0#16], [{ engine 2#5 1#4 1#31 with slaveMode := 254#8 }]) := by decide

/-- V2.5.6, V2.5.9: engines 1 and 2 attached to engine 0, in this order. -/
theorem test_plug :
    after (given [fromReset, fromReset] 1 [0x9800#16]) =
      some ([0#16], [{ fromReset with subs := [1] }, { fromReset with master := some 0 }]) ∧
    after (given [{ fromReset with subs := [1] }, { fromReset with master := some 0 }, fromReset] 2 [0x9800#16]) =
      some ([0#16], [{ fromReset with subs := [1, 2] }, { fromReset with master := some 0 },
        { fromReset with master := some 0 }]) := by decide

/-- V2.5.4, V2.5.5, V2.5.7, V2.5.8: itself, no such engine, a master already, a cycle. -/
theorem test_plug_refused :
    [(0, 0x9800#16), (0, 0x9803#16), (1, 0x9802#16), (0, 0x9801#16)].map (fun (e, w) =>
      responses (given [{ fromReset with subs := [1] }, { fromReset with master := some 0 }, fromReset] e [w])) =
    [some [0x8005#16], some [0x8005#16], some [0x8005#16], some [0x8005#16]] := by decide

/-- V2.5.10. -/
theorem test_unplug :
    after (given [{ fromReset with subs := [1, 2] }, { fromReset with master := some 0, slaveMode := 2#8 },
      { fromReset with master := some 0 }] 1 [0xA000#16]) =
      some ([0#16], [{ fromReset with subs := [2] }, fromReset, { fromReset with master := some 0 }]) := by decide

/-- V2.4.2. -/
theorem test_applyPreset :
    after (given [engine 9#5 5#4 3#31] 0 [0xA800#16, 0x0203#16, 0x0405#16, 0x2724#16, 0x0000#16]) =
      some ([0#16],
        [{ fromReset with interval := #v[2, 3, 4, 5], theme := #v[39, 36, 0, 0], restEnabled := false }]) := by decide

/-- V2.4.1: code 40 at position 5, and nothing changes. -/
theorem test_applyPreset_refused :
    step (given [engine 9#5 5#4 0x55#31] 0 [0xA801#16, 0x0203#16, 0x0405#16, 0x0928#16, 0x0000#16]) =
      .next ⟨[engine 9#5 5#4 0x55#31], 0, [], [0x8002#16], [⟨0, .invalidSwitchName 5 40#6⟩]⟩ := by rfl

/-- V2.4.21: the sixteen controls. -/
theorem test_getCtl :
    ((List.range 16).map fun k => responses (given
      [{ fromReset with
          interval := #v[2, 3, 4, 5], theme := #v[39, 36, 0, 0], restEnabled := false, runMode := .start,
          autoMode := .step, tempo := 49 }] 0 [0xB000#16 ||| BitVec.ofNat 16 k])) =
    ([2, 3, 4, 5, 39, 36, 0, 0, 0, 2, 2, 49, 0, 0, 0, 0xFF].map fun r => some [r]) := by decide

/-- 2.6: the all-zero word of an idle link is refused. -/
theorem test_idle_word_refused :
    step (given [fromReset] 0 [0x0000#16]) =
      .next ⟨[fromReset], 0, [], [0x8004#16], [⟨0, .illegalCommand 0#16⟩]⟩ := by rfl

/-- P2 and P6: the assembler's words; "Z99" is code 63 in a preset and an error elsewhere (R90). -/
theorem test_assembler :
    assembleLine "APPLY_PRESET [\"C1\",\"C2\",\"C4\",\"C8\"], [\"OFF\",\"OFF\",\"OFF\",\"OFF\"], \"REST\" ; a scale" =
      some [⟨0, [0xA800#16, 0x0304#16, 0x0506#16, 0#16, 0#16]⟩] ∧
    assembleLine "APPLY_PRESET [\"C 1/2\",\"Z99\",\"OFF\",\"OFF\"], [\"OFF\",\"OFF\",\"OFF\",\"OFF\"], \"NORM\"" =
      some [⟨0, [0xA801#16, 0x023F#16, 0#16, 0#16, 0#16]⟩] ∧
    assembleLine "READ_LINE \"Z99\"" = none ∧
    assembleLine "@1 SET_SLAVEMODE 2" = some [⟨1, [0x8802#16]⟩] ∧
    assembleLine "SET_SEQ AUTO" = some [⟨0, [0x6800#16]⟩] := by decide

/-! Witnesses. A system of seven engines: 0 is the master of 1, 2 and 6; 1 is the master of 3; 4 and 5 stand alone. -/

/-- Engine 0: clock high, AUTO, the transport running. -/
def top : Engine := { engine 5#5 3#4 7#31 with runMode := .run, subs := [1, 2, 6] }

/-- Engine 1: in unison with engine 0 and in phase. -/
def unison : Engine := { fromReset with master := some 0, slaveMode := 1#8, subs := [3] }

/-- Engine 2: divided by 3. -/
def thirds : Engine := { fromReset with master := some 0, slaveMode := 3#8 }

/-- Engine 3: divided by 2, under engine 1. -/
def halves : Engine := { fromReset with master := some 1, slaveMode := 2#8 }

/-- Engine 4: alone, in HOLD with the clock low. -/
def held : Engine := { engine 6#5 4#4 1#31 with runMode := .run, autoMode := .hold }

/-- Engine 5: alone, in STEP with the clock high, the transport off, four theme lines on ON. -/
def stepped : Engine := { engine 7#5 4#4 1#31 with autoMode := .step, interval := #v[1, 0, 0, 0], theme := #v[1, 1, 1, 1] }

/-- Engine 6: in unison with engine 0, out of phase. -/
def offbeat : Engine := { engine 2#5 1#4 0#31 with master := some 0, slaveMode := 1#8 }

/-- The seven engines, a command executing on engine e. -/
def demo (e : EngineId) : State := ⟨[top, unison, thirds, halves, held, stepped, offbeat], e, [], [], []⟩

/-- The same with commands delivered. -/
def demoWith (e : EngineId) (cs : List Command) : State := { demo e with inbox := cs }

theorem inv_demo (e : EngineId) : Inv (demo e) :=
  ⟨by show 1 ≤ 7; decide, by show 7 ≤ 255; decide,
    topologyOk_of_check (es := (demo 0).engines) (by decide)⟩

theorem inv_demoWith (e : EngineId) (cs : List Command) : Inv (demoWith e cs) :=
  ⟨(inv_demo e).atLeastOne, (inv_demo e).atMostMax, (inv_demo e).topology⟩

theorem targetsOk_demoWith : TargetsOk (demoWith 6 [⟨0, [0x0800#16]⟩, ⟨6, []⟩]) := by
  refine ⟨by decide, fun c hc => ?_⟩
  revert c; decide

/-- Engines 4 and 5 are below no engine. -/
theorem not_below_alone {e x : EngineId} (h : masterOf (demo 0).engines x = none) : ¬ Below (demo 0).engines e x := by
  intro hb
  cases hb with
  | direct hm => rw [h] at hm; cases hm
  | through hm _ => rw [h] at hm; cases hm

/-! One witness for each statement with hypotheses, and one for each clause. -/

theorem witness_DecodedWordsAreTheEncoding :
    decode [0x0800#16] = .instr .tick ∧ decode [0xFFFF#16] = .instr (.reservedOp1F 0x7FF#11) := by decide

theorem witness_DecoderAcceptsExactlyTheCommands :
    isCommand [0x303F#16] = true ∧ isCommand [0x3040#16] = false ∧ isCommand [0xB00F#16] = true ∧
    isCommand [0xB800#16] = false ∧ isCommand [0x07FF#16] = false ∧
    isCommand [0xA801#16, 0x3F3F#16, 0#16, 0#16, 0#16] = true := by decide

/-- One for each item of R75. -/
theorem witness_WordsThatAreNoCommandChangeNothing :
    ∀ ws ∈ [[], [0x0000#16], [0xB800#16], [0x0800#16, 0x0800#16], [0x0801#16],
        [0xA801#16, 0#16, 0#16, 0#16, 0x4000#16]],
      isCommand ws = false ∧ (demoWith 0 [⟨6, ws⟩]).inbox = ⟨6, ws⟩ :: [] ∧ 6 < (demoWith 0 [⟨6, ws⟩]).engines.length := by
  decide

theorem witness_ReservedRowsRaiseIllegalCommand : (demo 4).engines[(demo 4).target]? = some held := rfl

theorem witness_StepRunsTheDecodedCommand :
    (demoWith 0 [⟨5, [0xB00F#16]⟩]).inbox = ⟨5, [0xB00F#16]⟩ :: [] ∧ decode [0xB00F#16] = .instr (.getCtl 15#4) := by
  decide

theorem witness_DeliveredTableWordRunsNext :
    decodeTableWord 16 0x3027 = some (.readLine 39#6) ∧
    decodeTableWord 80 0xA800 = some (.applyPreset false 0 0 0 0 0 0 0 0) := by decide

theorem witness_StepWithoutCommandChangesNothing : State.reset.inbox = [] := rfl

theorem witness_CommandToNoEngineStops : (demo 7).engines.length ≤ (demo 7).target := by decide

theorem witness_EveryStepKeepsTheInvariant :
    Inv (demoWith 6 [⟨0, [0x0800#16]⟩, ⟨6, []⟩]) ∧ TargetsOk (demoWith 6 [⟨0, [0x0800#16]⟩, ⟨6, []⟩]) ∧
      ∃ t, step (demoWith 6 [⟨0, [0x0800#16]⟩, ⟨6, []⟩]) = .next t :=
  ⟨inv_demoWith _ _, targetsOk_demoWith, _, rfl⟩

theorem witness_PowerOnMeetsTheInvariant :
    (1 ≤ [PowerOnDraw.zero].length ∧ [PowerOnDraw.zero].length ≤ 255) ∧
    (1 ≤ (List.replicate 255 PowerOnDraw.zero).length ∧ (List.replicate 255 PowerOnDraw.zero).length ≤ 255) := by
  rw [List.length_replicate]; decide

theorem witness_PowerOnAndResetValues :
    [PowerOnDraw.zero, ⟨31#5, 15#4, 5#31, 49, 1, 2⟩][1]? = some ⟨31#5, 15#4, 5#31, 49, 1, 2⟩ ∧
    (demo 0).engines[(demo 0).target]? = some top := ⟨rfl, rfl⟩

theorem witness_EveryCommandCompletes :
    Inv (demo 6) ∧ (demo 6).target < (demo 6).engines.length ∧
    Inv (demoWith 6 [⟨0, [0x0800#16]⟩, ⟨6, []⟩]) ∧ TargetsOk (demoWith 6 [⟨0, [0x0800#16]⟩, ⟨6, []⟩]) :=
  ⟨inv_demo _, by decide, inv_demoWith _ _, targetsOk_demoWith⟩

/-- Whether exec answers a next state whose new errors are these. -/
def errs (i : Instr) (s : State) : Option (List ErrorRecord) :=
  match exec i s with
  | .next t => some t.errors
  | _ => none

theorem exists_next_of_errs {i : Instr} {s : State} {l : List ErrorRecord} (h : errs i s = some l) :
    ∃ t, exec i s = .next t ∧ t.errors = l := by
  unfold errs at h
  cases he : exec i s with
  | next t => rw [he] at h; exact ⟨t, rfl, Option.some.inj h⟩
  | fault r => rw [he] at h; cases h
  | refused r => rw [he] at h; cases h

theorem witness_EveryCommandRespondsOnce :
    (∃ t, exec .tick (demo 0) = .next t ∧ t.errors = []) ∧
    (∃ t, exec (.readLine 40#6) (demo 0) = .next t ∧ t.errors = [⟨0, .outOfRangeLine 40#6⟩]) :=
  ⟨exists_next_of_errs (by decide), exists_next_of_errs (by decide)⟩

/-- One for each kind of error, at the boundary of its operand where it has one. -/
theorem witness_RaisedErrorsLeaveTheEnginesAsBefore :
    ∀ ik ∈ [(Instr.readLine 40#6, CommandError.outOfRangeLine 40#6),
        (.applyPreset true 39 39 39 39 39 39 39 40, .invalidSwitchName 7 40#6),
        (.setTempo 50#8, .invalidControlValue 50#8), (.setRun 3#8, .invalidControlValue 3#8),
        (.setSeq 2#8, .invalidControlValue 2#8), (.setInterval 3#2 40#6, .invalidControlValue 40#8),
        (.stepRelease, .invalidControlValue 0#8), (.reservedOp17 1#11, .illegalCommand 0xB801#16),
        (.plug 7#8, .syncTopologyError 7#8), (.plug 0#8, .syncTopologyError 0#8), (.plug 3#8, .syncTopologyError 3#8)],
      ∃ t, exec ik.1 (demo 0) = .next t ∧ t.errors ≠ (demo 0).errors ∧
        t.errors = (demo 0).errors ++ [⟨(demo 0).target, ik.2⟩] := by
  intro ik h
  have : ∀ ik ∈ [(Instr.readLine 40#6, CommandError.outOfRangeLine 40#6),
        (.applyPreset true 39 39 39 39 39 39 39 40, .invalidSwitchName 7 40#6),
        (.setTempo 50#8, .invalidControlValue 50#8), (.setRun 3#8, .invalidControlValue 3#8),
        (.setSeq 2#8, .invalidControlValue 2#8), (.setInterval 3#2 40#6, .invalidControlValue 40#8),
        (.stepRelease, .invalidControlValue 0#8), (.reservedOp17 1#11, .illegalCommand 0xB801#16),
        (.plug 7#8, .syncTopologyError 7#8), (.plug 0#8, .syncTopologyError 0#8), (.plug 3#8, .syncTopologyError 3#8)],
      errs ik.1 (demo 0) = some [⟨0, ik.2⟩] := by decide
  obtain ⟨t, h1, h2⟩ := exists_next_of_errs (this ik h)
  exact ⟨t, h1, by rw [h2]; exact List.cons_ne_nil _ _, h2⟩

/-- The engine addressed, and further commands at the far end of their range. -/
theorem witness_EachErrorKindHasItsCause :
    Inv (demo 0) ∧ (demo 0).engines[(demo 0).target]? = some top ∧ errs (.readLine 63#6) (demo 0) = some [⟨0, .outOfRangeLine 63#6⟩] ∧
    errs (.setVolume 255#8) (demo 0) = some [⟨0, .invalidControlValue 255#8⟩] ∧
    errs (.setPitchCtl 50#8) (demo 0) = some [⟨0, .invalidControlValue 50#8⟩] ∧
    errs (.setTheme 0#2 63#6) (demo 0) = some [⟨0, .invalidControlValue 63#8⟩] ∧
    errs (.plug 2#8) (demo 1) = some [⟨1, .syncTopologyError 2#8⟩] ∧
    errs .stepRelease (demo 4) = some [⟨4, .invalidControlValue 1#8⟩] := ⟨inv_demo _, by decide⟩

theorem witness_ErrorRecordIsNeverCleared : ∃ t, step (demoWith 0 [⟨0, [0x0801#16]⟩]) = .next t := ⟨_, rfl⟩

/-- Whether a command changes what f reads of engine x. -/
def alters {α : Type} [DecidableEq α] (i : Instr) (s : State) (x : EngineId) (f : Engine → α) : Bool :=
  match exec i s with
  | .next t => t.engines[x]?.map f != s.engines[x]?.map f
  | _ => false

/-- The hypotheses, and for each clause a command that changes the register. -/
theorem witness_EachRegisterHasOnlyItsWriters :
    Inv (demo 0) ∧ (∃ t, exec .tick (demo 0) = .next t) ∧ (demo 0).engines[1]? = some unison ∧
    (alters (.setInterval 3#2 39#6) (demo 0) 0 Engine.interval ∧ alters (.setTheme 0#2 1#6) (demo 0) 0 Engine.theme ∧
      alters (.setRest false) (demo 0) 0 Engine.restEnabled ∧ alters (.setRun 2#8) (demo 0) 0 Engine.runMode ∧
      alters (.setSeq 1#8) (demo 0) 0 Engine.autoMode ∧ alters .stepPress (demo 0) 0 Engine.autoMode ∧
      alters .stepRelease (demo 5) 5 Engine.autoMode ∧ alters (.setTempo 49#8) (demo 0) 0 Engine.tempo ∧
      alters (.setVolume 49#8) (demo 0) 0 Engine.volume ∧ alters (.setPitchCtl 49#8) (demo 0) 0 Engine.pitchControl ∧
      alters (.setSlaveMode 255#8) (demo 0) 0 Engine.slaveMode ∧ alters .unplug (demo 1) 1 Engine.slaveMode ∧
      alters (.plug 5#8) (demo 0) 0 Engine.master ∧ alters (.plug 5#8) (demo 0) 5 Engine.subs ∧
      alters .unplug (demo 1) 0 Engine.subs ∧ alters .tick (demo 0) 2 Engine.slaveClockDivider ∧
      alters .tick (demo 0) 1 Engine.clockCounter ∧ alters .tick (demo 0) 0 Engine.divideBy6Counter ∧
      alters .tick (demo 0) 0 Engine.shiftRegister ∧ alters .reset (demo 4) 4 Engine.clockCounter ∧
      alters (.setRun 0#8) (demo 0) 0 Engine.clockCounter ∧
      alters (.applyPreset true 0 0 0 0 0 0 0 0) (demo 0) 0 Engine.clockCounter) :=
  ⟨inv_demo _, ⟨_, rfl⟩, rfl, by decide⟩

theorem witness_OtherEnginesAreUntouched :
    Inv (demo 0) ∧ (∃ t, exec .tick (demo 0) = .next t) ∧ 4 ≠ (demo 0).target ∧
      ¬ Below (demo 0).engines (demo 0).target 4 ∧ (∀ v, Instr.tick = .plug v → 4 ≠ v.toNat) ∧
      (Instr.tick = .unplug → masterOf (demo 0).engines (demo 0).target ≠ some 4) :=
  ⟨inv_demo _, ⟨_, rfl⟩, by decide, not_below_alone rfl, fun _ h => (nomatch h), fun h => (nomatch h)⟩

/-- The clauses' boundaries: lines 0 to 8, the first and last of S, and the first and last refused. -/
theorem witness_ReadLineFollowsTheAddressMap :
    (demo 0).engines[(demo 0).target]? = some top ∧ 2 + 4 < 7 ∧ 9 + 30 = 39 ∧ 40 ≤ (40#6).toNat ∧ 40 ≤ (63#6).toNat :=
  ⟨rfl, by decide⟩

theorem witness_ReadsHaveNoEffectOnLaterResponses :
    ∀ i ∈ [Instr.readLine 39#6, .readLine 40#6, .decodeAddr, .decodePitch, .getCtl 15#4],
      (∃ t, exec i (demo 0) = .next t) ∧ ∃ u, execAll [.tick, .getCtl 14#4] (demo 0) = .next u := by
  intro i h
  have : ∀ i ∈ [Instr.readLine 39#6, .readLine 40#6, .decodeAddr, .decodePitch, .getCtl 15#4],
      (errs i (demo 0)).isSome := by decide
  obtain ⟨l, hl⟩ := Option.isSome_iff_exists.mp (this i h)
  obtain ⟨t, ht, -⟩ := exists_next_of_errs hl
  exact ⟨⟨t, ht⟩, _, rfl⟩

theorem witness_TickRunsTheWholeCascade : Inv (demo 0) ∧ (demo 0).engines[(demo 0).target]? = some top :=
  ⟨inv_demo _, rfl⟩

theorem witness_TickWithoutSubordinates :
    (demo 5).engines[(demo 5).target]? = some stepped ∧ stepped.subs = [] := ⟨rfl, rfl⟩

theorem witness_ResetWritesTheChainOnly : (demo 2).engines[(demo 2).target]? = some thirds := rfl

theorem witness_ResetTwiceIsResetOnce : (demo 0).engines[(demo 0).target]? = some top := rfl

/-- The gate shut, open in AUTO, and open in HOLD with the clock low. -/
theorem witness_TimerTicksExactlyThroughItsGate :
    (Inv (demo 5) ∧ (demo 5).engines[(demo 5).target]? = some stepped ∧ ¬ timerTicks stepped) ∧
    (Inv (demo 0) ∧ (demo 0).engines[(demo 0).target]? = some top ∧ timerTicks top) ∧
    (Inv (demo 4) ∧ (demo 4).engines[(demo 4).target]? = some held ∧ timerTicks held) := by
  refine ⟨⟨inv_demo _, rfl, fun h => ?_⟩, ⟨inv_demo _, rfl, .inl rfl, .inl rfl⟩,
    ⟨inv_demo _, rfl, .inl rfl, .inr ⟨rfl, by decide⟩⟩⟩
  rcases h.2 with h | h
  · exact nomatch h
  · exact nomatch h.1

/-- Engine 4 with the clock low; after its clock is high the first clause applies. -/
theorem witness_HoldParksHigh :
    (Inv (demo 4) ∧ (demo 4).engines[(demo 4).target]? = some held ∧ held.autoMode = .hold ∧
      held.clockCounter.toNat % 2 = 0 ∧ held.runMode = .run) ∧
    (Inv ⟨[{ held with clockCounter := 7#5 }], 0, [], [], []⟩ ∧
      (tickedEngine held).clockCounter = 7#5 ∧ (7#5).toNat % 2 = 1 ∧
      ∀ j ∈ [Instr.timer, .slaveStep true], j = .timer ∨ ∃ b, j = .slaveStep b) := by
  refine ⟨⟨inv_demo _, rfl, rfl, by decide, rfl⟩,
    ⟨⟨by show 1 ≤ 1; decide, by show 1 ≤ 255; decide, topologyOk_of_check (by decide)⟩, by decide, by decide, ?_⟩⟩
  simp

theorem witness_StepPressEntersStepAndTicks : Inv (demo 5) ∧ (demo 5).engines[(demo 5).target]? = some stepped :=
  ⟨inv_demo _, rfl⟩

/-- Not in STEP; in STEP with the clock high; in STEP with the clock low. -/
theorem witness_StepReleaseEntersHoldAndParks :
    (Inv (demo 0) ∧ (demo 0).engines[(demo 0).target]? = some top ∧ top.autoMode ≠ .step) ∧
    (Inv (demo 5) ∧ (demo 5).engines[(demo 5).target]? = some stepped ∧ stepped.autoMode = .step ∧
      stepped.clockCounter.toNat % 2 = 1) ∧
    (Inv ⟨[{ stepped with clockCounter := 6#5 }], 0, [], [], []⟩ ∧
      ({ stepped with clockCounter := 6#5 } : Engine).autoMode = .step ∧ (6#5).toNat % 2 = 0) :=
  ⟨⟨inv_demo _, rfl, by decide⟩, ⟨inv_demo _, rfl, rfl, by decide⟩,
    ⟨by show 1 ≤ 1; decide, by show 1 ≤ 255; decide, topologyOk_of_check (by decide)⟩, rfl, by decide⟩

/-- Both phases. -/
theorem witness_PressAndReleaseEndsHighInHold :
    (Inv (demo 0) ∧ (demo 0).engines[(demo 0).target]? = some top ∧ top.clockCounter.toNat % 2 = 1) ∧
    (Inv (demo 4) ∧ (demo 4).engines[(demo 4).target]? = some held ∧ held.clockCounter.toNat % 2 = 0) :=
  ⟨⟨inv_demo _, rfl, by decide⟩, ⟨inv_demo _, rfl, by decide⟩⟩

theorem witness_CountersAfterAnyNumberOfTicks : Inv (demo 0) ∧ (demo 0).engines[(demo 0).target]? = some top :=
  ⟨inv_demo _, rfl⟩

theorem witness_ClockLinesAfterReset : Inv (demo 3) ∧ (demo 3).engines[(demo 3).target]? = some halves :=
  ⟨inv_demo _, rfl⟩

theorem witness_DividerStaysOnItsCycle :
    Inv (demoWith 0 [⟨0, [0x0800#16]⟩]) ∧ (∃ t, step (demoWith 0 [⟨0, [0x0800#16]⟩]) = .next t) ∧
      ∀ g ∈ (demoWith 0 [⟨0, [0x0800#16]⟩]).engines, g.divideBy6Counter ∈ dividerCycle :=
  ⟨inv_demoWith _ _, ⟨_, rfl⟩, by decide⟩

theorem witness_DecodeAddrRespondsTheNoteAddress : (demo 5).engines[(demo 5).target]? = some stepped := rfl

/-- A rest, and a note. -/
theorem witness_DecodePitchFollowsTheTable :
    (demo 5).engines[(demo 5).target]? = some stepped ∧ pitchResponse stepped = 0x0002#16 ∧
    pitchResponse { stepped with interval := #v[0, 0, 0, 0], restEnabled := false } = 0x0080#16 := ⟨rfl, by decide⟩

/-- Legal codes up to 39, and an illegal one at the first and at the last position. -/
theorem witness_ApplyPresetLoadsOrReportsTheFirstBadName :
    (demo 0).engines[(demo 0).target]? = some top ∧
    (([40, 0, 0, 0, 0, 0, 0, 0] : List (BitVec 6))[0]? = some 40#6 ∧ 40 ≤ (40#6).toNat) ∧
    (([39, 39, 39, 39, 39, 39, 39, 63] : List (BitVec 6))[7]? = some 63#6 ∧ 40 ≤ (63#6).toNat ∧
      ∀ j < 7, ∀ d, ([39, 39, 39, 39, 39, 39, 39, 63] : List (BitVec 6))[j]? = some d → d.toNat ≤ 39) :=
  ⟨rfl, by decide, by decide, by decide, by decide⟩

theorem witness_SelectorSettersWriteOneSlot :
    (demo 0).engines[(demo 0).target]? = some top ∧ (39#6).toNat < 40 ∧ 40 ≤ (40#6).toNat := ⟨rfl, by decide⟩

theorem witness_SetRestWritesRestEnabled : (demo 0).engines[(demo 0).target]? = some top := rfl

/-- Entering OFF, staying in OFF, RUN, START, and the first refused value. -/
theorem witness_SetRunResetsOnEnteringOff :
    ((demo 0).engines[(demo 0).target]? = some top ∧ top.runMode ≠ .off) ∧
    ((demo 5).engines[(demo 5).target]? = some stepped ∧ stepped.runMode = .off) ∧
    (0#8).toNat = 0 ∧ (1#8).toNat = 1 ∧ (2#8).toNat = 2 ∧ 3 ≤ (3#8).toNat :=
  ⟨⟨rfl, by decide⟩, ⟨rfl, rfl⟩, by decide⟩

theorem witness_SetSeqWritesAutoOrHold :
    (demo 0).engines[(demo 0).target]? = some top ∧ (0#8).toNat = 0 ∧ (1#8).toNat = 1 ∧ 2 ≤ (2#8).toNat :=
  ⟨rfl, by decide⟩

theorem witness_LevelSettersWriteTheirControl :
    (demo 0).engines[(demo 0).target]? = some top ∧ (49#8).toNat < 50 ∧ 50 ≤ (50#8).toNat := ⟨rfl, by decide⟩

/-- With a master and without. -/
theorem witness_GetCtlReadsEachControl :
    (Inv (demo 0) ∧ (demo 0).engines[(demo 0).target]? = some top ∧ top.master = none) ∧
    (Inv (demo 3) ∧ (demo 3).engines[(demo 3).target]? = some halves ∧ halves.master = some 1) :=
  ⟨⟨inv_demo _, rfl, rfl⟩, ⟨inv_demo _, rfl, rfl⟩⟩

/-- A bit that ticks the engine, and one that does not. -/
theorem witness_SlaveStepReactsToTheBit :
    Inv (demo 1) ∧ (demo 1).engines[(demo 1).target]? = some unison ∧ bitTicks unison false = true ∧
      bitTicks unison true = false := ⟨inv_demo _, rfl, by decide⟩

theorem witness_SetSlaveModeWritesSlaveMode : (demo 6).engines[(demo 6).target]? = some offbeat := rfl

/-- Each of the four refusals, and an attachment. -/
theorem witness_PlugAttachesOrRefuses :
    (Inv (demo 0) ∧ (demo 0).engines[(demo 0).target]? = some top) ∧
    (demo 0).engines.length ≤ (7#8).toNat ∧ (0#8).toNat = (demo 0).target ∧ unison.master ≠ none ∧
    Below (demo 0).engines (demo 0).target (3#8).toNat ∧
    ((demo 0).engines[(5#8).toNat]? = some stepped ∧ (5#8).toNat ≠ (demo 0).target ∧ top.master = none ∧
      ¬ Below (demo 0).engines (demo 0).target (5#8).toNat) :=
  ⟨⟨inv_demo _, rfl⟩, by decide, by decide, by decide, .through (m := 1) rfl (.direct rfl), rfl, by decide, rfl,
    not_below_alone rfl⟩

/-- Without a master and with one. -/
theorem witness_UnplugDetaches :
    (Inv (demo 0) ∧ (demo 0).engines[(demo 0).target]? = some top ∧ top.master = none) ∧
    (Inv (demo 2) ∧ (demo 2).engines[(demo 2).target]? = some thirds ∧ thirds.master = some 0) :=
  ⟨⟨inv_demo _, rfl, rfl⟩, ⟨inv_demo _, rfl, rfl⟩⟩

/-- In phase and out of phase. -/
theorem witness_UnisonSubordinateEndsInPhase :
    (Inv (demo 0) ∧ (demo 0).engines[(demo 0).target]? = some top) ∧
    ((demo 0).engines[1]? = some unison ∧ unison.master = some (demo 0).target ∧ unison.autoMode = .auto ∧
      unison.slaveMode = 1#8 ∧ unison.clockCounter.toNat % 2 = top.clockCounter.toNat % 2) ∧
    ((demo 0).engines[6]? = some offbeat ∧ offbeat.master = some (demo 0).target ∧ offbeat.autoMode = .auto ∧
      offbeat.slaveMode = 1#8 ∧ offbeat.clockCounter.toNat % 2 ≠ top.clockCounter.toNat % 2) :=
  ⟨⟨inv_demo _, rfl⟩, ⟨rfl, rfl, rfl, rfl, by decide⟩, ⟨rfl, rfl, rfl, rfl, by decide⟩⟩

/-- An odd divisor under engine 0 and an even one under engine 1. -/
theorem witness_DividedSubordinateTicksOncePerN :
    (Inv (demo 0) ∧ (demo 0).engines[(demo 0).target]? = some top ∧ top.clockCounter.toNat % 2 = 1 ∧
      (demo 0).engines[2]? = some thirds ∧ thirds.master = some (demo 0).target ∧ thirds.autoMode = .auto ∧
      2 ≤ thirds.slaveMode.toNat ∧ thirds.slaveClockDivider = 0#8 ∧ thirds.slaveMode.toNat % 2 = 1) ∧
    (Inv (demo 1) ∧ (demo 1).engines[(demo 1).target]? = some unison ∧ unison.clockCounter.toNat % 2 = 1 ∧
      (demo 1).engines[3]? = some halves ∧ halves.master = some (demo 1).target ∧ halves.autoMode = .auto ∧
      2 ≤ halves.slaveMode.toNat ∧ halves.slaveClockDivider = 0#8 ∧ halves.slaveMode.toNat % 2 = 0) :=
  ⟨⟨inv_demo _, rfl, by decide, rfl, rfl, rfl, by decide, rfl, by decide⟩,
    ⟨inv_demo _, rfl, by decide, rfl, rfl, rfl, by decide, rfl, by decide⟩⟩

/-- Engine 0's three subordinates in another order, and commands that tick, attach and detach. -/
theorem witness_RegistrationOrderIsInvisible :
    Inv (demoWith 0 [⟨6, [0xA000#16]⟩]) ∧
    sameButForOrder (demoWith 0 [⟨6, [0xA000#16]⟩])
      { demoWith 0 [⟨6, [0xA000#16]⟩] with
        engines := [{ top with subs := [6, 1, 2] }, unison, thirds, halves, held, stepped, offbeat] } ∧
    (∀ i ∈ [Instr.tick, .plug 5#8, .getCtl 15#4], ∃ t, exec i (demoWith 0 [⟨6, [0xA000#16]⟩]) = .next t) ∧
    ∃ t, step (demoWith 0 [⟨6, [0xA000#16]⟩]) = .next t := by
  have same := reordered_refl
  refine ⟨inv_demoWith _ _, ⟨.cons ⟨[6, 1, 2], by decide, rfl⟩ ?_, rfl, rfl, rfl, rfl⟩, fun i h => ?_, _, rfl⟩
  · exact .cons (same _) (.cons (same _) (.cons (same _) (.cons (same _) (.cons (same _) (.cons (same _) .nil)))))
  · have : ∀ i ∈ [Instr.tick, .plug 5#8, .getCtl 15#4], errs i (demoWith 0 [⟨6, [0xA000#16]⟩]) = some [] := by decide
    obtain ⟨t, ht, -⟩ := exists_next_of_errs (this i h)
    exact ⟨t, ht⟩

theorem witness_SwitchNamesHaveTheirCodes :
    0 < switchNames.length ∧ 39 < switchNames.length ∧ "Z99" ∉ switchNames ∧ "b1" ∉ switchNames := by decide

end Sys2Proof.Tests
end

/-! Scope: what one command, and with it one step, can do (00_scope.md R7, R14; 10_state.md R35, R40). -/

section
/-! What an update must leave alone for the topology to stay as it is: the two links of each engine. -/

namespace Sys2Proof.Machine

/-- Engine h has the master and the subordinates of engine g (R34). -/
def sameLinks (g h : Engine) : Prop := h.master = g.master ∧ h.subs = g.subs

theorem sameLinks_refl (g : Engine) : sameLinks g g := ⟨rfl, rfl⟩

theorem sameLinks_of_sameSettings {g h : Engine} (hgh : sameSettings g h) : sameLinks g h := by
  obtain ⟨-, -, -, -, -, -, -, -, -, hm, hs⟩ := hgh
  exact ⟨hm, hs⟩

theorem sameLinks_resetChain (g : Engine) : sameLinks g g.resetChain := ⟨rfl, rfl⟩

theorem sameLinks_loadPreset (r : Bool) (i t : Vector LineAddr 4) (g : Engine) : sameLinks g (g.loadPreset r i t) :=
  ⟨rfl, rfl⟩

theorem sameLinks_setRun (m : RunMode) (g : Engine) : sameLinks g (g.setRun m) :=
  ⟨Engine.setRun_master g m, Engine.setRun_subs g m⟩

theorem sameLinks_afterTick (es : List Engine) (e x : EngineId) (h : Engine) : sameLinks h (afterTick es e x h) :=
  sameLinks_of_sameSettings (afterTick_sameSettings es e x h)

/-- A replacement of engine e, in registers g, keeps the links where that of e itself and that of the others do. -/
theorem sameLinks_ite {es : List Engine} {e x : EngineId} {g g' k k' : Engine} (hg : es[e]? = some g)
    (hk : es[x]? = some k) (hself : sameLinks g g') (hother : sameLinks k k') :
    sameLinks k (if x = e then g' else k') := by
  split
  case isTrue hx =>
    subst hx
    obtain rfl : g = k := Option.some.inj (hg.symm.trans hk)
    exact hself
  case isFalse => exact hother

theorem sameLinks_afterBit {es : List Engine} {e x : EngineId} {g k : Engine} (hg : es[e]? = some g)
    (hk : es[x]? = some k) (b : Bool) : sameLinks k (afterBit es e g b x k) := by
  refine sameLinks_ite hg hk (sameLinks_of_sameSettings (bitReaction_sameSettings g b)) ?_
  split
  · exact sameLinks_afterTick es e x k
  · exact sameLinks_refl k

end Sys2Proof.Machine
end

section
/-! What a command can answer, said once for every instruction. -/

namespace Sys2Proof.Machine

/-- What a command executing in s can answer: it stops because its target names no engine (log 11), it raises an
error (R201), or it responds, leaving as many engines as before, whose links meet R35. -/
inductive CommandOutcome (s : State) : Result → Prop
  | stopped (noEngine : s.engines.length ≤ s.target) : CommandOutcome s (.fault .noSuchEngine)
  | raised (k : CommandError) (engine : s.target < s.engines.length) : CommandOutcome s (.next (s.raiseError k))
  | responded (v : BitVec 8) {es : List Engine} (engine : s.target < s.engines.length)
      (length : es.length = s.engines.length) (topology : TopologyOk es) :
      CommandOutcome s (.next ((s.putEngines es).respond v))

variable {s t : State}

/-! What each answer keeps. -/

theorem CommandOutcome.target_inbox (h : CommandOutcome s (.next t)) : t.target = s.target ∧ t.inbox = s.inbox := by
  cases h <;> exact ⟨rfl, rfl⟩

theorem CommandOutcome.length_engines (h : CommandOutcome s (.next t)) : t.engines.length = s.engines.length := by
  cases h with
  | raised => rfl
  | responded _ _ hl => exact hl

theorem CommandOutcome.inv (h : CommandOutcome s (.next t)) (hi : Inv s) : Inv t := by
  have hl := h.length_engines
  refine ⟨hl ▸ hi.atLeastOne, hl ▸ hi.atMostMax, ?_⟩
  cases h with
  | raised => exact hi.topology
  | responded _ _ _ ht => exact ht

theorem CommandOutcome.targetsOk (h : CommandOutcome s (.next t)) (hs : TargetsOk s) : TargetsOk t := by
  obtain ⟨htarget, hinbox⟩ := h.target_inbox
  unfold TargetsOk
  rw [h.length_engines, htarget, hinbox]
  exact hs

/-! The shared operations of Machine/Ops.lean. -/

theorem target_lt_of_getElem? {g : Engine} (hg : s.engines[s.target]? = some g) : s.target < s.engines.length :=
  (List.getElem?_eq_some_iff.mp hg).1

theorem onTarget_outcome {k : Engine → Result} (h : ∀ g, s.engines[s.target]? = some g → CommandOutcome s (k g)) :
    CommandOutcome s (onTarget s k) := by
  cases hg : s.engines[s.target]? with
  | none => simpa [onTarget, hg] using .stopped (List.getElem?_eq_none_iff.mp hg)
  | some g => simpa [onTarget, hg] using h g hg

theorem raise_outcome (k : CommandError) : CommandOutcome s (raise k s) :=
  onTarget_outcome fun _ hg => .raised k (target_lt_of_getElem? hg)

/-- A response after an update of every engine that keeps the links. -/
theorem responded_of_map (hi : Inv s) {g : Engine} (hg : s.engines[s.target]? = some g) {es : List Engine}
    {F : EngineId → Engine → Engine} (hes : ∀ x, es[x]? = s.engines[x]?.map (F x))
    (hF : ∀ x k, s.engines[x]? = some k → sameLinks k (F x k)) (v : BitVec 8) :
    CommandOutcome s (.next ((s.putEngines es).respond v)) :=
  .responded v (target_lt_of_getElem? hg) (length_eq_of_getElem?_map hes)
    (inv_of_map (t := s.putEngines es) hes hF hi).topology

theorem responded_of_unchanged (hi : Inv s) {g : Engine} (hg : s.engines[s.target]? = some g) (v : BitVec 8) :
    CommandOutcome s (.next (s.respond v)) :=
  .responded v (target_lt_of_getElem? hg) rfl hi.topology

theorem responded_of_putEngine (hi : Inv s) {g g' : Engine} (hg : s.engines[s.target]? = some g)
    (hl : sameLinks g g') (v : BitVec 8) : CommandOutcome s (.next ((s.putEngine g').respond v)) :=
  responded_of_map hi hg (getElem?_set_map g g' hg) (fun _ k hk => sameLinks_ite hg hk hl (sameLinks_refl k)) v

theorem observe_outcome (hi : Inv s) (f : Engine → BitVec 8) : CommandOutcome s (observe f s) :=
  onTarget_outcome fun g hg => responded_of_unchanged hi hg (f g)

theorem update_outcome (hi : Inv s) {f : Engine → Engine} (hf : ∀ g, sameLinks g (f g)) :
    CommandOutcome s (update f s) :=
  onTarget_outcome fun g hg => responded_of_putEngine hi hg (hf g) 0#8

/-! Cascades (R110, R180, R181). -/

theorem finish_tick_outcome (hi : Inv s) {g : Engine} (hg : s.engines[s.target]? = some g) (v : BitVec 8) :
    CommandOutcome s (finish s v (tick s.target s.engines)) := by
  obtain ⟨es, htick, hes⟩ := tick_spec hi.topology hg
  rw [htick]
  exact responded_of_map hi hg hes (fun x k _ => sameLinks_afterTick _ _ x k) v

/-- A tick after a write to autoMode (R125, R126). -/
theorem finish_tick_autoMode_outcome (hi : Inv s) {g : Engine} (hg : s.engines[s.target]? = some g) (m : AutoMode)
    (v : BitVec 8) :
    CommandOutcome s (finish s v (tick s.target (s.engines.set s.target { g with autoMode := m }))) := by
  obtain ⟨es, htick, hes⟩ := tick_set_spec (g' := { g with autoMode := m }) hi.topology hg rfl rfl rfl
  rw [htick]
  have hself : sameLinks g (tickedEngine { g with autoMode := m }) := ⟨rfl, rfl⟩
  exact responded_of_map hi hg hes (fun x k hk => sameLinks_ite hg hk hself (sameLinks_afterTick _ _ x k)) v

/-! The commands that are more than one shared operation. -/

theorem timerWith_outcome (hi : Inv s) (startTicks : Bool) : CommandOutcome s (timerWith startTicks s) :=
  onTarget_outcome fun g hg => by
    split
    · exact finish_tick_outcome hi hg 0#8
    · exact responded_of_unchanged hi hg 0#8

theorem execStepRelease_outcome (hi : Inv s) : CommandOutcome s (execStepRelease s) :=
  onTarget_outcome fun g hg => by
    split
    · exact .raised _ (target_lt_of_getElem? hg)
    · split
      · exact responded_of_putEngine hi hg (g' := { g with autoMode := .hold }) ⟨rfl, rfl⟩ 0#8
      · exact finish_tick_autoMode_outcome hi hg .hold 0#8

theorem execReadLine_outcome (hi : Inv s) (line : BitVec 6) : CommandOutcome s (execReadLine line s) := by
  unfold execReadLine
  split
  · exact raise_outcome _
  · exact observe_outcome hi _

theorem execSetRun_outcome (hi : Inv s) (v : BitVec 8) : CommandOutcome s (execSetRun v s) := by
  unfold execSetRun
  split
  · exact raise_outcome _
  · exact update_outcome hi (sameLinks_setRun _)

theorem execApplyPreset_outcome (hi : Inv s) (rest : Bool) (i0 i1 i2 i3 t0 t1 t2 t3 : BitVec 6) :
    CommandOutcome s (execApplyPreset rest i0 i1 i2 i3 t0 t1 t2 t3 s) := by
  unfold execApplyPreset
  split
  · exact raise_outcome _
  · exact update_outcome hi (sameLinks_loadPreset rest _ _)

theorem execSlaveStep_outcome (hi : Inv s) (b : Bool) : CommandOutcome s (execSlaveStep b s) :=
  onTarget_outcome fun g hg => by
    obtain ⟨es, hstep, hes⟩ := slaveStep_spec hi.topology hg b
    rw [hstep]
    exact responded_of_map hi hg hes (fun x k hk => sameLinks_afterBit hg hk b) 0#8

/-- PLUG attaches only where its walk has shown that no cycle arises (R186). -/
theorem execPlug_outcome (hi : Inv s) (v : BitVec 8) : CommandOutcome s (execPlug v s) :=
  onTarget_outcome fun g hg => by
    have hraise := CommandOutcome.raised (s := s) (.syncTopologyError v) (target_lt_of_getElem? hg)
    split
    case isTrue => exact hraise
    case isFalse hlen =>
      have hm : v.toNat < s.engines.length := Nat.lt_of_not_le hlen
      split
      case isTrue => exact hraise
      case isFalse hself =>
        split
        case isTrue => exact hraise
        case isFalse hmaster =>
          obtain ⟨b, hwalk, hbelow⟩ := walkMeets_spec (e := s.target) hi.topology hm (hi.topology.chain_bounded hm)
          rw [hwalk]
          cases b with
          | true => exact hraise
          | false =>
            have hnb : ¬ Below s.engines s.target v.toNat := fun hb => by simpa using hbelow.mpr (.inr hb)
            exact .responded 0#8 (target_lt_of_getElem? hg) (by simp [attach])
              (topologyOk_attach hi.topology (Ne.symm hself) hg (List.getElem?_eq_getElem hm)
                (not_not.mp hmaster) hnb)

/-- UNPLUG's master is another engine of the system, since the links are a forest (R35, R188). -/
theorem execUnplug_outcome (hi : Inv s) : CommandOutcome s (execUnplug s) :=
  onTarget_outcome fun g hg => by
    split
    case h_1 => exact responded_of_putEngine hi hg (g' := { g with slaveMode := 0#8 }) ⟨rfl, rfl⟩ 0#8
    case h_2 m hm =>
      have hlink : masterOf s.engines s.target = some m := (masterOf_of_getElem? hg).trans hm
      have hlt : m < s.engines.length := hi.topology.master_lt hlink
      have hne : s.target ≠ m := fun h => hi.topology.irrefl m (.direct (h ▸ hlink))
      have hh := List.getElem?_eq_getElem hlt
      rw [if_pos hlt, detach_eq_set hne hg hh]
      exact .responded 0#8 (target_lt_of_getElem? hg) (by simp) (topologyOk_detach hi.topology hne hg hh hm)

/-- In a system that meets the invariant every instruction has one of the three outcomes. -/
theorem exec_outcome (hi : Inv s) (i : Instr) : CommandOutcome s (exec i s) := by
  cases i with
  | tick => exact onTarget_outcome fun g hg => finish_tick_outcome hi hg _
  | reset => exact update_outcome hi sameLinks_resetChain
  | timer => exact timerWith_outcome hi Config.startTicks
  | stepPress => exact onTarget_outcome fun g hg => finish_tick_autoMode_outcome hi hg .step 0#8
  | stepRelease => exact execStepRelease_outcome hi
  | readLine line => exact execReadLine_outcome hi line
  | decodeAddr | decodePitch | getCtl => exact observe_outcome hi _
  | setRest | setSlaveMode => exact update_outcome hi fun _ => ⟨rfl, rfl⟩
  | setInterval | setTheme | setSeq | setTempo | setVolume | setPitchCtl =>
    dsimp only [exec, execSetInterval, execSetTheme, execSetSeq, execSetTempo, execSetVolume, execSetPitchCtl]
    split
    · exact raise_outcome _
    · exact update_outcome hi fun _ => ⟨rfl, rfl⟩
  | setRun v => exact execSetRun_outcome hi v
  | slaveStep b => exact execSlaveStep_outcome hi b
  | plug v => exact execPlug_outcome hi v
  | unplug => exact execUnplug_outcome hi
  | applyPreset rest i0 i1 i2 i3 t0 t1 t2 t3 => exact execApplyPreset_outcome hi rest i0 i1 i2 i3 t0 t1 t2 t3
  | reservedOp00 | reservedOp17 | reservedOp18 | reservedOp19 | reservedOp1A | reservedOp1B | reservedOp1C
  | reservedOp1D | reservedOp1E | reservedOp1F => exact raise_outcome _

end Sys2Proof.Machine
end

section
/-! One step: the command it takes, and what it answers (R14, R59, R70). -/

namespace Sys2Proof.Machine

variable {s t : State} {c : Command} {rest : List Command}

theorem step_of_inbox_nil (h : s.inbox = []) : step s = .next s := by
  simp [step, takeCommand, h, execIdle]

theorem step_of_decode_instr {i : Instr} (h : s.inbox = c :: rest) (hd : decode c.words = .instr i) :
    step s = exec i { s with inbox := rest, target := c.target } := by
  simp [step, takeCommand_cons h, hd]

theorem step_of_decode_illegal {w : Word} (h : s.inbox = c :: rest) (hd : decode c.words = .illegal w) :
    step s = execIllegal w { s with inbox := rest, target := c.target } := by
  simp [step, takeCommand_cons h, hd]

theorem inv_take (hi : Inv s) (rest : List Command) (e : EngineId) : Inv { s with inbox := rest, target := e } :=
  ⟨hi.atLeastOne, hi.atMostMax, hi.topology⟩

theorem targetsOk_take (h : s.inbox = c :: rest) (hs : TargetsOk s) :
    TargetsOk { s with inbox := rest, target := c.target } := by
  obtain ⟨-, hinbox⟩ := hs
  rw [h] at hinbox
  exact ⟨hinbox c (List.mem_cons_self ..), fun d hd => hinbox d (List.mem_cons_of_mem c hd)⟩

/-- A step that takes a command answers what a command can, whether or not its words are one. -/
theorem step_outcome (hi : Inv s) (h : s.inbox = c :: rest) :
    CommandOutcome { s with inbox := rest, target := c.target } (step s) := by
  cases hd : decode c.words with
  | instr i => rw [step_of_decode_instr h hd]; exact exec_outcome (inv_take hi rest c.target) i
  | illegal w => rw [step_of_decode_illegal h hd]; exact raise_outcome _

theorem step_keeps_inv_targetsOk (hi : Inv s) (hst : step s = .next t) : Inv t ∧ (TargetsOk s → TargetsOk t) := by
  cases h : s.inbox with
  | nil =>
    rw [step_of_inbox_nil h] at hst
    cases hst
    exact ⟨hi, id⟩
  | cons c rest =>
    have ho := step_outcome hi h
    rw [hst] at ho
    exact ⟨ho.inv (inv_take hi rest c.target), fun hs => ho.targetsOk (targetsOk_take h hs)⟩

/-- Settles O11: a step is idle or has one of a command's outcomes, and each of these keeps the invariant. -/
theorem everyStepKeepsTheInvariant : Obligations.EveryStepKeepsTheInvariant :=
  fun _ _ => step_keeps_inv_targetsOk

/-- Settles O7, by what `step` is on a command that decodes to an instruction. -/
theorem stepRunsTheDecodedCommand : Obligations.StepRunsTheDecodedCommand :=
  fun _ _ _ _ => step_of_decode_instr

theorem decode_of_decodeTableWord {nbits w : Nat} {i : Instr} (h : decodeTableWord nbits w = some i) :
    decode (tableWords nbits w) = .instr i := by
  unfold decodeTableWord at h
  cases hd : decode (tableWords nbits w) with
  | instr j => rw [hd] at h; rw [Option.some.inj h]
  | illegal _ => rw [hd] at h; cases h

/-- Settles O8: the delivered number is the command taken, and taking it restores the inbox and the target. -/
theorem deliveredTableWordRunsNext : Obligations.DeliveredTableWordRunsNext :=
  fun s nbits w _ h =>
    step_of_decode_instr (s := s.withFetchWord nbits w) (c := ⟨s.target, tableWords nbits w⟩) rfl
      (decode_of_decodeTableWord h)

end Sys2Proof.Machine
end

section
/-! Power-on: no engine has a master or subordinates (R39). -/

namespace Sys2Proof.Machine

theorem length_powerOn (draws : List PowerOnDraw) : (State.powerOn draws).engines.length = draws.length :=
  List.length_map _

theorem masterOf_powerOn (draws : List PowerOnDraw) (x : EngineId) :
    masterOf (State.powerOn draws).engines x = none := by
  cases h : draws[x]? <;> simp [masterOf, State.powerOn, h, Engine.powerOn]

theorem subsOf_powerOn (draws : List PowerOnDraw) (x : EngineId) : subsOf (State.powerOn draws).engines x = [] := by
  cases h : draws[x]? <;> simp [subsOf, State.powerOn, h, Engine.powerOn]

theorem topologyOk_powerOn (draws : List PowerOnDraw) : TopologyOk (State.powerOn draws).engines where
  linksAgree m s := by simp [masterOf_powerOn, subsOf_powerOn]
  noRepeats m := by simp [subsOf_powerOn]
  forest x := ⟨1, by simp [chainEnds, masterOf_powerOn]⟩

theorem inv_powerOn {draws : List PowerOnDraw} (h1 : 1 ≤ draws.length) (h255 : draws.length ≤ 255) :
    Inv (State.powerOn draws) where
  atLeastOne := (length_powerOn draws).symm ▸ h1
  atMostMax := (length_powerOn draws).symm ▸ h255
  topology := topologyOk_powerOn draws

theorem targetsOk_powerOn {draws : List PowerOnDraw} (h1 : 1 ≤ draws.length) : TargetsOk (State.powerOn draws) :=
  ⟨(length_powerOn draws).symm ▸ h1, fun _ hc => nomatch hc⟩

/-- Settles O12: State.reset is power-on with three draws. -/
theorem powerOnMeetsTheInvariant : Obligations.PowerOnMeetsTheInvariant :=
  ⟨fun _ h1 h255 => ⟨inv_powerOn h1 h255, targetsOk_powerOn h1⟩,
    inv_powerOn (by decide) (by decide), targetsOk_powerOn (by decide)⟩

end Sys2Proof.Machine
end

section
/-! What one command does to each engine, said once for every instruction (10_state.md R20). -/

namespace Sys2Proof.Machine

/-- The commands that can run `Tick` or `SlaveStep` (R114, R119, R125, R126, R182). -/
def canTick (i : Instr) : Prop :=
  i = .tick ∨ i = .timer ∨ i = .stepPress ∨ i = .stepRelease ∨ ∃ b, i = .slaveStep b

/-- `EngineEffect es e i x h h'`: command i, addressed to engine e of es, may turn the registers h of engine x into h'.
Where x is e, the command writes its own engine's registers; the only other engines it reaches are those below e,
which hear a bit, and the masters that PLUG names and UNPLUG leaves. -/
inductive EngineEffect (es : List Engine) (e : EngineId) : Instr → EngineId → Engine → Engine → Prop
  | unchanged {i : Instr} {x : EngineId} {h : Engine} : EngineEffect es e i x h h
  | ticked {i : Instr} {h : Engine} (command : i = .tick ∨ i = .timer) : EngineEffect es e i e h h.advance
  | pressed {h : Engine} : EngineEffect es e .stepPress e h { h with autoMode := .step }.advance
  | released {h : Engine} : EngineEffect es e .stepRelease e h { h with autoMode := .hold }
  | releasedTicking {h : Engine} : EngineEffect es e .stepRelease e h { h with autoMode := .hold }.advance
  | heard {i : Instr} {x : EngineId} {h : Engine} (command : canTick i) (place : x = e ∨ Below es e x) (b : Bool) :
      EngineEffect es e i x h (h.hear b).1
  | heardTicking {i : Instr} {x : EngineId} {h : Engine} (command : canTick i) (place : x = e ∨ Below es e x)
      (b : Bool) : EngineEffect es e i x h (h.hear b).1.advance
  | reset {h : Engine} : EngineEffect es e .reset e h h.resetChain
  | setInterval {h : Engine} {idx : BitVec 2} {line : BitVec 6} (v : Vector LineAddr 4) :
      EngineEffect es e (.setInterval idx line) e h { h with interval := v }
  | setTheme {h : Engine} {idx : BitVec 2} {line : BitVec 6} (v : Vector LineAddr 4) :
      EngineEffect es e (.setTheme idx line) e h { h with theme := v }
  | setRest {h : Engine} {b : Bool} : EngineEffect es e (.setRest b) e h { h with restEnabled := b }
  | setRun {h : Engine} {v : BitVec 8} {m : RunMode} (operand : runOperand v = some m) :
      EngineEffect es e (.setRun v) e h (h.setRun m)
  | setSeq {h : Engine} {v : BitVec 8} {m : AutoMode} (operand : seqOperand v = some m) :
      EngineEffect es e (.setSeq v) e h { h with autoMode := m }
  | setTempo {h : Engine} {v : BitVec 8} (l : Level) : EngineEffect es e (.setTempo v) e h { h with tempo := l }
  | setVolume {h : Engine} {v : BitVec 8} (l : Level) : EngineEffect es e (.setVolume v) e h { h with volume := l }
  | setPitchCtl {h : Engine} {v : BitVec 8} (l : Level) :
      EngineEffect es e (.setPitchCtl v) e h { h with pitchControl := l }
  | setSlaveMode {h : Engine} {v : BitVec 8} : EngineEffect es e (.setSlaveMode v) e h { h with slaveMode := v }
  | applyPreset {h : Engine} {rest : Bool} {i0 i1 i2 i3 t0 t1 t2 t3 : BitVec 6} (iv tv : Vector LineAddr 4) :
      EngineEffect es e (.applyPreset rest i0 i1 i2 i3 t0 t1 t2 t3) e h (h.loadPreset rest iv tv)
  | attached {h : Engine} {v : BitVec 8} : EngineEffect es e (.plug v) e h { h with master := some v.toNat }
  | gainedSub {h : Engine} {v : BitVec 8} :
      EngineEffect es e (.plug v) v.toNat h { h with subs := h.subs ++ [e] }
  | detached {h : Engine} : EngineEffect es e .unplug e h { h with master := none, slaveMode := 0#8 }
  | lostSub {x : EngineId} {h : Engine} (link : masterOf es e = some x) :
      EngineEffect es e .unplug x h { h with subs := h.subs.filter (· != e) }

/-- Command i leaves the engines of s as in t: each engine of the system has one of the command's effects. -/
def HasEffects (s : State) (i : Instr) (t : State) : Prop :=
  ∃ F : EngineId → Engine → Engine, (∀ x, t.engines[x]? = s.engines[x]?.map (F x)) ∧
    ∀ x h, s.engines[x]? = some h → EngineEffect s.engines s.target i x h (F x h)

variable {es : List Engine} {e x : EngineId} {g g' h h' : Engine} {s t : State} {i : Instr}

/-! Ticks and received bits (R110, R181). -/

theorem effect_bitReaction (hi : canTick i) (hx : x = e ∨ Below es e x) (b : Bool) :
    EngineEffect es e i x h (bitReaction h b) := by
  cases hb : bitTicks h b with
  | true => rw [bitReaction_of_ticks hb, ← advance_eq_tickedEngine]; exact .heardTicking hi hx b
  | false => rw [bitReaction_of_not_ticks hb]; exact .heard hi hx b

/-- While e ticks, an engine below it hears at most one bit, and no other engine hears any. -/
theorem effect_afterTick_of_ne (hi : canTick i) (hx : x ≠ e) : EngineEffect es e i x h (afterTick es e x h) := by
  by_cases hb : Below es e x
  · unfold afterTick
    rw [if_neg hx]
    split
    · exact .unchanged
    · exact effect_bitReaction hi (.inr hb) _
  · rw [afterTick_of_not_below hx hb]
    exact .unchanged

/-- The engine addressed replaced by g', and every other engine by its own registers after the command. -/
theorem effect_ite (hg : es[e]? = some g) (hh : es[x]? = some h) (hself : EngineEffect es e i e g g')
    (hother : x ≠ e → EngineEffect es e i x h h') : EngineEffect es e i x h (if x = e then g' else h') := by
  split
  case isTrue hx =>
    subst hx
    obtain rfl : g = h := Option.some.inj (hg.symm.trans hh)
    exact hself
  case isFalse hx => exact hother hx

/-! The shared operations of Machine/Ops.lean. -/

theorem hasEffects_of_unchanged (ht : t.engines = s.engines) : HasEffects s i t :=
  ⟨fun _ h => h, by simp [ht], fun _ _ _ => .unchanged⟩

theorem hasEffects_of_putEngine (hg : s.engines[s.target]? = some g)
    (hself : EngineEffect s.engines s.target i s.target g g') (v : BitVec 8) :
    HasEffects s i ((s.putEngine g').respond v) :=
  ⟨_, getElem?_set_map g g' hg, fun _ _ hh => effect_ite hg hh hself fun _ => .unchanged⟩

theorem raise_hasEffects {k : CommandError} (h : raise k s = .next t) : HasEffects s i t := by
  obtain rfl := raise_eq_next h
  exact hasEffects_of_unchanged rfl

theorem observe_hasEffects {f : Engine → BitVec 8} (h : observe f s = .next t) : HasEffects s i t := by
  obtain ⟨g, -, rfl⟩ := observe_eq_next h
  exact hasEffects_of_unchanged rfl

theorem update_hasEffects {f : Engine → Engine} (h : update f s = .next t)
    (hf : ∀ g, EngineEffect s.engines s.target i s.target g (f g)) : HasEffects s i t := by
  obtain ⟨g, hg, rfl⟩ := update_eq_next h
  exact hasEffects_of_putEngine hg (hf g) 0#8

/-! Cascades (R110, R180, R181). -/

theorem finish_tick_hasEffects (hinv : Inv s) (hg : s.engines[s.target]? = some g) (hi : i = .tick ∨ i = .timer)
    {v : BitVec 8} (h : finish s v (tick s.target s.engines) = .next t) : HasEffects s i t := by
  obtain ⟨es, htick, hes⟩ := tick_spec hinv.topology hg
  rw [htick] at h
  cases h
  have hcan : canTick i := hi.imp_right .inl
  refine ⟨_, hes, fun x h _ => ?_⟩
  by_cases hx : x = s.target
  · subst hx
    rw [afterTick, if_pos rfl, ← advance_eq_tickedEngine]
    exact .ticked hi
  · exact effect_afterTick_of_ne hcan hx

/-- A tick after a write to autoMode (R125, R126). -/
theorem finish_tick_autoMode_hasEffects (hinv : Inv s) (hg : s.engines[s.target]? = some g) (hi : canTick i)
    {m : AutoMode} (hself : EngineEffect s.engines s.target i s.target g { g with autoMode := m }.advance)
    {v : BitVec 8} (h : finish s v (tick s.target (s.engines.set s.target { g with autoMode := m })) = .next t) :
    HasEffects s i t := by
  obtain ⟨es, htick, hes⟩ := tick_set_spec (g' := { g with autoMode := m }) hinv.topology hg rfl rfl rfl
  rw [htick] at h
  cases h
  rw [advance_eq_tickedEngine] at hself
  exact ⟨_, hes, fun x k hk => effect_ite hg hk hself (effect_afterTick_of_ne hi)⟩

/-! The commands that are more than one shared operation. -/

theorem execTimer_hasEffects (hinv : Inv s) (h : execTimer s = .next t) : HasEffects s .timer t := by
  obtain ⟨g, hg, h⟩ := onTarget_eq_next.mp h
  split at h
  · exact finish_tick_hasEffects hinv hg (.inr rfl) h
  · cases h; exact hasEffects_of_unchanged rfl

theorem execStepPress_hasEffects (hinv : Inv s) (h : execStepPress s = .next t) : HasEffects s .stepPress t := by
  obtain ⟨g, hg, h⟩ := onTarget_eq_next.mp h
  exact finish_tick_autoMode_hasEffects hinv hg (by simp [canTick]) .pressed h

theorem execStepRelease_hasEffects (hinv : Inv s) (h : execStepRelease s = .next t) :
    HasEffects s .stepRelease t := by
  obtain ⟨g, hg, h⟩ := onTarget_eq_next.mp h
  split at h
  · cases h; exact hasEffects_of_unchanged rfl
  · split at h
    · cases h; exact hasEffects_of_putEngine hg .released 0#8
    · exact finish_tick_autoMode_hasEffects hinv hg (by simp [canTick]) .releasedTicking h

theorem execSlaveStep_hasEffects (hinv : Inv s) {b : Bool} (h : execSlaveStep b s = .next t) :
    HasEffects s (.slaveStep b) t := by
  obtain ⟨g, hg, h⟩ := onTarget_eq_next.mp h
  obtain ⟨es, hstep, hes⟩ := slaveStep_spec hinv.topology hg b
  rw [hstep] at h
  cases h
  have hcan : canTick (.slaveStep b) := by simp [canTick]
  refine ⟨_, hes, fun x k hk => effect_ite hg hk (effect_bitReaction hcan (.inl rfl) b) fun hx => ?_⟩
  split
  · exact effect_afterTick_of_ne hcan hx
  · exact .unchanged

/-- Two engines replaced, as an update of every engine. -/
theorem getElem?_set_set_map {a b : EngineId} {k k' : Engine} (hab : a ≠ b) (ha : es[a]? = some g)
    (hb : es[b]? = some k) (x : EngineId) :
    ((es.set a g').set b k')[x]? = es[x]?.map fun h => if x = b then k' else if x = a then g' else h := by
  rw [getElem?_set_map k k' (by rwa [List.getElem?_set_ne hab]), getElem?_set_map g g' ha, Option.map_map]
  rfl

/-- PLUG writes the master of the engine addressed and the list of the engine it names (R186). -/
theorem execPlug_hasEffects {v : BitVec 8} (h : execPlug v s = .next t) : HasEffects s (.plug v) t := by
  obtain ⟨g, hg, h⟩ := onTarget_eq_next.mp h
  split at h
  case isTrue => cases h; exact hasEffects_of_unchanged rfl
  case isFalse hlen =>
    split at h
    case isTrue => cases h; exact hasEffects_of_unchanged rfl
    case isFalse hself =>
      split at h
      case isTrue => cases h; exact hasEffects_of_unchanged rfl
      case isFalse =>
        split at h
        · cases h
        · cases h; exact hasEffects_of_unchanged rfl
        · have hm := List.getElem?_eq_getElem (Nat.lt_of_not_le hlen)
          rw [attach_eq_set (Ne.symm hself) hg hm] at h
          cases h
          refine ⟨_, getElem?_set_set_map (Ne.symm hself) hg hm, fun x k hk => ?_⟩
          split
          case isTrue hx =>
            subst hx
            obtain rfl := Option.some.inj (hm.symm.trans hk)
            exact .gainedSub
          case isFalse => exact effect_ite hg hk .attached fun _ => .unchanged

/-- UNPLUG writes the engine addressed and its master's list (R188). -/
theorem execUnplug_hasEffects (hinv : Inv s) (h : execUnplug s = .next t) : HasEffects s .unplug t := by
  obtain ⟨g, hg, h⟩ := onTarget_eq_next.mp h
  split at h
  case h_1 hm =>
    cases h
    have hg' : { g with slaveMode := 0#8 } = { g with master := none, slaveMode := 0#8 } := by rw [← hm]
    rw [hg']
    exact hasEffects_of_putEngine hg .detached 0#8
  case h_2 m hm =>
    have hlink : masterOf s.engines s.target = some m := (masterOf_of_getElem? hg).trans hm
    have hlt := hinv.topology.master_lt hlink
    have hne : s.target ≠ m := fun he => hinv.topology.irrefl m (.direct (he ▸ hlink))
    have hh := List.getElem?_eq_getElem hlt
    rw [if_pos hlt, detach_eq_set hne hg hh] at h
    cases h
    refine ⟨_, getElem?_set_set_map hne.symm hh hg, fun x k hk => effect_ite hg hk .detached fun _ => ?_⟩
    split
    case isTrue hx =>
      subst hx
      obtain rfl := Option.some.inj (hh.symm.trans hk)
      exact .lostSub hlink
    case isFalse => exact .unchanged

/-- In a system that meets the invariant every command that completes has its effects. -/
theorem exec_hasEffects (hinv : Inv s) (h : exec i s = .next t) : HasEffects s i t := by
  cases i with
  | tick =>
    obtain ⟨g, hg, h⟩ := onTarget_eq_next.mp h
    exact finish_tick_hasEffects hinv hg (.inl rfl) h
  | reset => exact update_hasEffects h fun _ => .reset
  | timer => exact execTimer_hasEffects hinv h
  | stepPress => exact execStepPress_hasEffects hinv h
  | stepRelease => exact execStepRelease_hasEffects hinv h
  | readLine =>
    dsimp only [exec, execReadLine] at h
    split at h
    · exact raise_hasEffects h
    · exact observe_hasEffects h
  | decodeAddr | decodePitch | getCtl => exact observe_hasEffects h
  | setInterval | setTheme | setRun | setSeq | setTempo | setVolume | setPitchCtl | applyPreset =>
    dsimp only [exec, execSetInterval, execSetTheme, execSetRun, execSetSeq, execSetTempo, execSetVolume,
      execSetPitchCtl, execApplyPreset] at h
    split at h
    · exact raise_hasEffects h
    · -- the effect that bears the command's name, its operand the one just found legal
      exact update_hasEffects h fun _ => by constructor <;> assumption
  | setRest => exact update_hasEffects h fun _ => .setRest
  | setSlaveMode => exact update_hasEffects h fun _ => .setSlaveMode
  | slaveStep => exact execSlaveStep_hasEffects hinv h
  | plug => exact execPlug_hasEffects h
  | unplug => exact execUnplug_hasEffects hinv h
  | reservedOp00 | reservedOp17 | reservedOp18 | reservedOp19 | reservedOp1A | reservedOp1B | reservedOp1C
  | reservedOp1D | reservedOp1E | reservedOp1F => exact raise_hasEffects h

end Sys2Proof.Machine
end

section
/-! The registers of the engines (10_state.md): their values at power-on and after a reset, and what a command and a
step leave of them. -/

namespace Sys2Proof.Machine

variable {es : List Engine} {e x : EngineId} {h h' : Engine} {s t : State} {i : Instr}

/-! The writers of each register. -/

theorem eq_zero_of_runOperand {v : BitVec 8} (hv : runOperand v = some .off) : v = 0#8 := by
  revert v; decide

/-- SET_SEQ cannot store STEP (R30, R161). -/
theorem seqOperand_ne_step (v : BitVec 8) : seqOperand v ≠ some .step := by
  revert v; decide

/-- Settles O19: each effect a command can have on an engine writes the registers that name it, and no other. -/
theorem eachRegisterHasOnlyItsWriters : Obligations.EachRegisterHasOnlyItsWriters := by
  intro s t i x h hinv hexec hx
  obtain ⟨F, hF, heff⟩ := exec_hasEffects hinv hexec
  refine ⟨F x h, getElem?_of_map hF hx, length_eq_of_getElem?_map hF, ?_⟩
  have hw := heff x h hx
  generalize F x h = h' at hw
  cases hw with
  | unchanged => simpa using fun hs hn => absurd hs hn
  | ticked command => rcases command with rfl | rfl <;> simp
  | pressed | released | releasedTicking => simp
  | heard command place | heardTicking command place =>
    simp only [canTick, Bool.exists_bool] at command
    simp +contextual [place, command]
  | @setRun _ _ m operand =>
    by_cases hoff : m = .off ∧ h.runMode ≠ .off
    · obtain ⟨rfl, hrun⟩ := hoff
      simp [eq_zero_of_runOperand operand, hrun]
    · simp [hoff]
  | @setSeq _ _ m operand =>
    have hm : m ≠ .step := by rintro rfl; exact seqOperand_ne_step _ operand
    simp [hm]
  | reset | setInterval | setTheme | setRest | setTempo | setVolume | setPitchCtl | setSlaveMode | applyPreset => simp
  | attached | gainedSub | detached => simp
  | lostSub link => simp [link]

/-! Engines that share nothing with the one addressed. -/

/-- An engine that a command does not concern keeps its registers. -/
theorem EngineEffect.eq_of_not_concerned (hw : EngineEffect es e i x h h') (hx : x ≠ e) (hb : ¬ Below es e x)
    (hplug : ∀ v, i = .plug v → x ≠ v.toNat) (hunplug : i = .unplug → masterOf es e ≠ some x) : h' = h := by
  cases hw with
  | unchanged => rfl
  | heard _ place | heardTicking _ place => exact absurd place (not_or.mpr ⟨hx, hb⟩)
  | gainedSub => exact absurd rfl (hplug _ rfl)
  | lostSub link => exact absurd link (hunplug rfl)
  | _ => exact absurd rfl hx

/-- Settles O20: none of a command's effects on an engine is on one that it does not concern. -/
theorem otherEnginesAreUntouched : Obligations.OtherEnginesAreUntouched := by
  intro s t i x hinv hexec hx hb hplug hunplug
  obtain ⟨F, hF, heff⟩ := exec_hasEffects hinv hexec
  rw [hF x]
  cases hh : s.engines[x]? with
  | none => rfl
  | some h => rw [Option.map_some, (heff x h hh).eq_of_not_concerned hx hb hplug hunplug]

/-! The cycle of D (R23). -/

theorem div6Next_mem_dividerCycle : ∀ d ∈ dividerCycle, div6Next d ∈ dividerCycle := by decide

theorem zero_mem_dividerCycle : 0#4 ∈ dividerCycle := by decide

theorem advance_mem_dividerCycle (hd : h.divideBy6Counter ∈ dividerCycle) :
    h.advance.divideBy6Counter ∈ dividerCycle := by
  rw [Engine.advance_divideBy6Counter]
  split
  · exact div6Next_mem_dividerCycle _ hd
  · exact hd

/-- D steps by R111's table, is reset to 0, or stays. -/
theorem EngineEffect.mem_dividerCycle (hw : EngineEffect es e i x h h') (hd : h.divideBy6Counter ∈ dividerCycle) :
    h'.divideBy6Counter ∈ dividerCycle := by
  cases hw with
  | ticked | pressed | releasedTicking => exact advance_mem_dividerCycle hd
  | heard => rwa [Engine.hear_divideBy6Counter]
  | heardTicking => exact advance_mem_dividerCycle (by rwa [Engine.hear_divideBy6Counter])
  | reset | applyPreset => exact zero_mem_dividerCycle
  | setRun =>
    rw [Engine.setRun_divideBy6Counter]
    split
    · exact zero_mem_dividerCycle
    · exact hd
  | _ => exact hd

theorem HasEffects.mem_dividerCycle (he : HasEffects s i t) (hs : ∀ g ∈ s.engines, g.divideBy6Counter ∈ dividerCycle) :
    ∀ g ∈ t.engines, g.divideBy6Counter ∈ dividerCycle := by
  obtain ⟨F, hF, heff⟩ := he
  intro g hg
  obtain ⟨x, hx⟩ := List.mem_iff_getElem?.mp hg
  rw [hF x, Option.map_eq_some_iff] at hx
  obtain ⟨h, hh, rfl⟩ := hx
  exact (heff x h hh).mem_dividerCycle (hs h (List.mem_of_getElem? hh))

/-- Settles O34: a step is idle, refuses its words, or runs a command, and none of a command's effects leaves the
cycle. -/
theorem dividerStaysOnItsCycle : Obligations.DividerStaysOnItsCycle := by
  intro s t hinv hst hs
  cases hin : s.inbox with
  | nil =>
    rw [step_of_inbox_nil hin] at hst
    cases hst
    exact hs
  | cons c rest =>
    cases hd : decode c.words with
    | illegal w =>
      rw [step_of_decode_illegal hin hd] at hst
      obtain rfl := raise_eq_next hst
      exact hs
    | instr i =>
      rw [step_of_decode_instr hin hd] at hst
      exact (exec_hasEffects (inv_take hinv rest c.target) hst).mem_dividerCycle hs

/-! Power-on and reset (R39). -/

/-- Settles O13, by what `State.powerOn` builds from each draw and what `update` answers. -/
theorem powerOnAndResetValues : Obligations.PowerOnAndResetValues :=
  ⟨fun draws e d hd => ⟨length_powerOn draws, by simp [State.powerOn, Engine.powerOn, hd]⟩,
    fun _ g hg => ⟨_, update_of_getElem? hg Engine.resetChain, rfl⟩⟩

end Sys2Proof.Machine
end

section
/-! The address map of the bus (20_memory.md R51 to R53), and READ_LINE, which responds one line of it (R100). -/

namespace Sys2Proof.Machine

variable {s : State} {g : Engine}

/-! The rows of R52's table. -/

theorem Engine.line_zero (g : Engine) : g.line 0 = false := rfl

theorem Engine.line_one (g : Engine) : g.line 1 = true := rfl

theorem Engine.line_clockCounter (g : Engine) {k : Nat} (hk : k < 5) :
    g.line ⟨2 + k, by omega⟩ = g.clockCounter.getLsbD k := by
  have hrow : 2 + k ≠ 1 ∧ 2 + k ≤ 6 := by omega
  simp [Engine.line, hrow]

theorem Engine.line_seven (g : Engine) : g.line 7 = g.divideBy6Counter.getLsbD 2 := rfl

theorem Engine.line_eight (g : Engine) : g.line 8 = g.divideBy6Counter.getLsbD 3 := rfl

theorem Engine.line_shiftRegister (g : Engine) {k : Nat} (hk : k < 31) :
    g.line ⟨9 + k, by omega⟩ = g.shiftRegister.getLsbD k := by
  have hrow : 9 + k ≠ 1 ∧ ¬ 9 + k ≤ 6 ∧ 9 + k ≠ 7 ∧ 9 + k ≠ 8 := by omega
  simp [Engine.line, hrow]

/-! READ_LINE on either side of the highest address. -/

theorem exec_readLine_of_lt (hg : s.engines[s.target]? = some g) {line : BitVec 6} (hl : line.toNat < 40) :
    exec (.readLine line) s = .next (s.respond (bitByte (g.line ⟨line.toNat, hl⟩))) := by
  simp only [exec, execReadLine, lineOperand_of_le hl]
  exact observe_of_getElem? hg _

theorem exec_readLine_of_ge (hg : s.engines[s.target]? = some g) {line : BitVec 6} (hl : 40 ≤ line.toNat) :
    exec (.readLine line) s = .next (s.raiseError (.outOfRangeLine line)) := by
  simp only [exec, execReadLine, lineOperand_of_gt hl]
  exact raise_of_getElem? hg _

/-- READ_LINE of an address given as a number, and the bit its row of the map holds. -/
theorem exec_readLine_ofNat (hg : s.engines[s.target]? = some g) {n : Nat} (hn : n < 40) {b : Bool}
    (hb : g.line ⟨n, hn⟩ = b) :
    exec (.readLine (BitVec.ofNat 6 n)) s =
      .next { s with responses := s.responses ++ [if b then 0x0001#16 else 0x0000#16] } := by
  have hnat : (BitVec.ofNat 6 n).toNat = n := Nat.mod_eq_of_lt (by omega)
  rw [exec_readLine_of_lt hg (hnat.symm ▸ hn)]
  simp only [hnat, hb]
  rw [State.respond, successWord_bitByte]

/-- READ_LINE is format L with opcode 0x06 (R71, R74). -/
theorem decode_readLine : ∀ line : BitVec 6, decode [0x3000#16 ||| line.zeroExtend 16] = .instr (.readLine line) := by
  decide

/-- Settles O21: one row of R52's table for each legal address, and the refusal above them. -/
theorem readLineFollowsTheAddressMap : Obligations.ReadLineFollowsTheAddressMap := by
  refine ⟨decode_readLine, fun s g hg => ⟨?_, ?_, fun k hk => ?_, ?_, ?_, fun k hk => ?_, fun line hl => ?_⟩⟩
  · exact exec_readLine_ofNat hg (by decide) g.line_zero
  · exact exec_readLine_ofNat hg (by decide) g.line_one
  · exact exec_readLine_ofNat hg (by omega) (g.line_clockCounter hk)
  · exact exec_readLine_ofNat hg (by decide) g.line_seven
  · exact exec_readLine_ofNat hg (by decide) g.line_eight
  · exact exec_readLine_ofNat hg (by omega) (g.line_shiftRegister hk)
  · rw [exec_readLine_of_ge hg hl, State.raiseError, errorWord_code]

end Sys2Proof.Machine
end

/-! Encoding: words against instructions, and the refusals and responses every command shares (30_encoding.md). -/

section
/-! The opcode and the operand fields of each word pattern read back (R70, R71, R73). -/

namespace Sys2Proof

variable (op : BitVec 5) (b : Bool) (line : BitVec 6) (idx : BitVec 2) (v : BitVec 8) (sel : BitVec 4)

@[simp] theorem opcodeOf_wordN : opcodeOf (wordN op) = op := opcodeOf_wordReserved op 0#11

@[simp] theorem opcodeOf_wordB : opcodeOf (wordB op b) = op := by rw [wordB_eq, opcodeOf_wordReserved]

@[simp] theorem opcodeOf_wordL : opcodeOf (wordL op line) = op := by rw [wordL_eq, opcodeOf_wordReserved]

@[simp] theorem opcodeOf_wordS : opcodeOf (wordS op idx line) = op := by rw [wordS_eq, opcodeOf_wordReserved]

@[simp] theorem opcodeOf_wordV : opcodeOf (wordV op v) = op := by rw [wordV_eq, opcodeOf_wordReserved]

@[simp] theorem opcodeOf_wordG : opcodeOf (wordG op sel) = op := by rw [wordG_eq, opcodeOf_wordReserved]

@[simp] theorem fieldB_wordB : fieldB (wordB op b) = b := by
  rw [wordB_eq, fieldB_wordReserved]
  cases b <;> rfl

@[simp] theorem fieldLine_wordL : fieldLine (wordL op line) = line := BitVec.extractLsb'_append_eq_right

@[simp] theorem fieldLine_wordS : fieldLine (wordS op idx line) = line := BitVec.extractLsb'_append_eq_right

@[simp] theorem fieldIdx_wordS : fieldIdx (wordS op idx line) = idx := by
  rw [wordS_eq, fieldIdx_wordReserved]
  exact BitVec.extractLsb'_append_eq_left

@[simp] theorem fieldV_wordV : fieldV (wordV op v) = v := BitVec.extractLsb'_append_eq_right

@[simp] theorem fieldSel_wordG : fieldSel (wordG op sel) = sel := BitVec.extractLsb'_append_eq_right

end Sys2Proof
end

section
/-! The checks of R76, and the instruction read from the words that pass them. -/

namespace Sys2Proof

variable {w : Word} {xs : List Word} {i : Instr}

/-- Word 0 and the words after it pass the checks of R76: the length of the opcode, and the reserved-zero bits of
word 0 and of each extension word. -/
def PassesChecks (w : Word) (xs : List Word) : Prop :=
  xs.length + 1 = commandLength (opcodeOf w) ∧
    w &&& ~~~ (formatOf (opcodeOf w)).operandBits = matchOf (opcodeOf w) ∧
    ∀ x ∈ xs, x &&& extensionReserved = 0#16

theorem decode_of_passesChecks (h : PassesChecks w xs) : decode (w :: xs) = instrOf w xs := by
  obtain ⟨hlen, hbits, hext⟩ := h
  have hfind : xs.find? (fun x => x &&& extensionReserved != 0#16) = none := by simpa using hext
  simp [decode, hlen, hbits, hfind]

theorem passesChecks_of_decode (h : decode (w :: xs) = .instr i) : PassesChecks w xs := by
  obtain ⟨op, low, ys, heq, hlen, hlow, hext, -⟩ := decode_eq_instr h
  obtain ⟨rfl, rfl⟩ := List.cons.inj heq
  refine ⟨?_, ?_, hext⟩
  · rw [opcodeOf_wordReserved, hlen]
  · rw [opcodeOf_wordReserved, Format.operandBits_eq]
    exact (reservedBits_iff _ _ _).mpr hlow

open Laws.EncodedForm in
theorem exists_encode_passesChecks (i : Instr) : ∃ w xs, encode i = w :: xs ∧ PassesChecks w xs := by
  cases i with
  | tick => exact tick
  | reset => exact reset
  | timer => exact timer
  | stepPress => exact stepPress
  | stepRelease => exact stepRelease
  | readLine line => exact readLine line
  | decodeAddr => exact decodeAddr
  | decodePitch => exact decodePitch
  | setInterval idx line => exact setInterval idx line
  | setTheme idx line => exact setTheme idx line
  | setRest b => exact setRest b
  | setRun v => exact setRun v
  | setSeq v => exact setSeq v
  | setTempo v => exact setTempo v
  | setVolume v => exact setVolume v
  | setPitchCtl v => exact setPitchCtl v
  | setSlaveMode v => exact setSlaveMode v
  | slaveStep b => exact slaveStep b
  | plug v => exact plug v
  | unplug => exact unplug
  | applyPreset rest i0 i1 i2 i3 t0 t1 t2 t3 => exact applyPreset rest i0 i1 i2 i3 t0 t1 t2 t3
  | getCtl sel => exact getCtl sel
  | reservedOp00 low => exact reservedOp00 low
  | reservedOp17 low => exact reservedOp17 low
  | reservedOp18 low => exact reservedOp18 low
  | reservedOp19 low => exact reservedOp19 low
  | reservedOp1A low => exact reservedOp1A low
  | reservedOp1B low => exact reservedOp1B low
  | reservedOp1C low => exact reservedOp1C low
  | reservedOp1D low => exact reservedOp1D low
  | reservedOp1E low => exact reservedOp1E low
  | reservedOp1F low => exact reservedOp1F low

/-- The opcode of an encoding selects the instruction's constructor, and each field reads back its operand, by the
simp lemmas of the instruction's format. -/
theorem instrOf_of_encode (he : encode i = w :: xs) : instrOf w xs = .instr i := by
  cases i with
  | applyPreset => cases he; simp [instrOf, fieldExtA_wordX, fieldExtB_wordX]
  | reservedOp00 | reservedOp17 | reservedOp18 | reservedOp19 | reservedOp1A | reservedOp1B | reservedOp1C
  | reservedOp1D | reservedOp1E | reservedOp1F =>
    cases he; simp [instrOf, opcodeOf_wordReserved, fieldLow_wordReserved]
  | _ => cases he; simp [instrOf]

/-- Settles O2: an encoding passes the checks of R76, and its fields read back the operands. -/
theorem decodeOfEncodeIsTheInstruction : Obligations.DecodeOfEncodeIsTheInstruction := by
  intro i
  obtain ⟨w, xs, he, hchecks⟩ := exists_encode_passesChecks i
  rw [he, decode_of_passesChecks hchecks, instrOf_of_encode he]

end Sys2Proof
end

section
/-! Words that pass the checks of R76 are an encoding: one lemma for each format of R71. -/

namespace Sys2Proof

variable {op : BitVec 5} {low : BitVec 11} {xs : List Word}

/-- A number whose ones are all among those of a mask below place n is n bits wide. -/
theorem exists_eq_zero_append {k n : Nat} {x m : BitVec (k + n)} (h : x &&& ~~~ m = 0#(k + n))
    (hm : m.toNat < 2 ^ n) : ∃ v : BitVec n, x = 0#k ++ v := by
  have hand : x &&& m = x := by
    have hor : x &&& (m ||| ~~~ m) = (x &&& m) ||| (x &&& ~~~ m) := BitVec.and_or_distrib_left
    rw [h] at hor
    simpa using hor.symm
  have hx : x.toNat < 2 ^ n := by
    rw [← hand, BitVec.toNat_and]
    exact Nat.lt_of_le_of_lt Nat.and_le_right hm
  refine ⟨x.extractLsb' 0 n, BitVec.eq_of_toNat_eq ?_⟩
  simp [BitVec.toNat_append, Nat.mod_eq_of_lt hx]

theorem exists_eq_wordB (hlow : low &&& ~~~ Format.b.lowBits = 0#11) : ∃ b, wordReserved op low = wordB op b := by
  obtain ⟨v, rfl⟩ := exists_eq_zero_append (k := 10) (n := 1) hlow (by decide)
  obtain ⟨b, rfl⟩ : ∃ b, v = BitVec.ofBool b := by revert v; decide
  exact ⟨b, (wordB_eq op b).symm⟩

theorem exists_encode_of_formatN (hop : formatOf op = .n) (hlow : low &&& ~~~ Format.n.lowBits = 0#11) :
    ∃ i, encode i = [wordReserved op low] := by
  obtain rfl : low = 0#11 := by
    rwa [show ~~~ Format.n.lowBits = BitVec.allOnes 11 by decide, BitVec.and_allOnes] at hlow
  obtain rfl | rfl | rfl | rfl | rfl | rfl | rfl | rfl :
      op = 0x01#5 ∨ op = 0x02#5 ∨ op = 0x03#5 ∨ op = 0x04#5 ∨ op = 0x05#5 ∨ op = 0x07#5 ∨ op = 0x08#5 ∨
        op = 0x14#5 := by
    revert op; decide
  exacts [⟨.tick, rfl⟩, ⟨.reset, rfl⟩, ⟨.timer, rfl⟩, ⟨.stepPress, rfl⟩, ⟨.stepRelease, rfl⟩, ⟨.decodeAddr, rfl⟩,
    ⟨.decodePitch, rfl⟩, ⟨.unplug, rfl⟩]

theorem exists_encode_of_formatB (hop : formatOf op = .b) (hlow : low &&& ~~~ Format.b.lowBits = 0#11) :
    ∃ i, encode i = [wordReserved op low] := by
  have hops : op = 0x0B#5 ∨ op = 0x12#5 := by revert op; decide
  obtain ⟨b, hb⟩ := exists_eq_wordB (op := op) hlow
  rw [hb]
  obtain rfl | rfl := hops
  exacts [⟨.setRest b, rfl⟩, ⟨.slaveStep b, rfl⟩]

theorem exists_encode_of_formatL (hop : formatOf op = .l) (hlow : low &&& ~~~ Format.l.lowBits = 0#11) :
    ∃ i, encode i = [wordReserved op low] := by
  obtain ⟨line, rfl⟩ := exists_eq_zero_append (k := 5) (n := 6) hlow (by decide)
  rw [← wordL_eq]
  obtain rfl : op = 0x06#5 := by revert op; decide
  exact ⟨.readLine line, rfl⟩

/-- Format S has its reserved bits between the two fields, so the bits below the field idx are taken on their own. -/
theorem exists_encode_of_formatS (hop : formatOf op = .s) (hlow : low &&& ~~~ Format.s.lowBits = 0#11) :
    ∃ i, encode i = [wordReserved op low] := by
  have hbelow : low.extractLsb' 0 9 &&& ~~~ Format.s.lowBits.extractLsb' 0 9 = 0#9 := by
    rw [← BitVec.extractLsb'_not_of_lt (by decide), ← BitVec.extractLsb'_and, hlow]
    rfl
  obtain ⟨line, hline⟩ := exists_eq_zero_append (k := 3) (n := 6) hbelow (by decide)
  have hsplit : low.extractLsb' 9 2 ++ low.extractLsb' 0 9 = low := BitVec.extractLsb'_append_extractLsb'
  rw [← hsplit, hline, ← wordS_eq]
  obtain rfl | rfl : op = 0x09#5 ∨ op = 0x0A#5 := by revert op; decide
  exacts [⟨.setInterval _ line, rfl⟩, ⟨.setTheme _ line, rfl⟩]

theorem exists_encode_of_formatV (hop : formatOf op = .v) (hlow : low &&& ~~~ Format.v.lowBits = 0#11) :
    ∃ i, encode i = [wordReserved op low] := by
  obtain ⟨v, rfl⟩ := exists_eq_zero_append (k := 3) (n := 8) hlow (by decide)
  rw [← wordV_eq]
  obtain rfl | rfl | rfl | rfl | rfl | rfl | rfl :
      op = 0x0C#5 ∨ op = 0x0D#5 ∨ op = 0x0E#5 ∨ op = 0x0F#5 ∨ op = 0x10#5 ∨ op = 0x11#5 ∨ op = 0x13#5 := by
    revert op; decide
  exacts [⟨.setRun v, rfl⟩, ⟨.setSeq v, rfl⟩, ⟨.setTempo v, rfl⟩, ⟨.setVolume v, rfl⟩, ⟨.setPitchCtl v, rfl⟩,
    ⟨.setSlaveMode v, rfl⟩, ⟨.plug v, rfl⟩]

theorem exists_encode_of_formatG (hop : formatOf op = .g) (hlow : low &&& ~~~ Format.g.lowBits = 0#11) :
    ∃ i, encode i = [wordReserved op low] := by
  obtain ⟨sel, rfl⟩ := exists_eq_zero_append (k := 7) (n := 4) hlow (by decide)
  rw [← wordG_eq]
  obtain rfl : op = 0x16#5 := by revert op; decide
  exact ⟨.getCtl sel, rfl⟩

theorem exists_encode_of_formatReserved (hop : formatOf op = .reserved) (low : BitVec 11) :
    ∃ i, encode i = [wordReserved op low] := by
  obtain rfl | rfl | rfl | rfl | rfl | rfl | rfl | rfl | rfl | rfl :
      op = 0x00#5 ∨ op = 0x17#5 ∨ op = 0x18#5 ∨ op = 0x19#5 ∨ op = 0x1A#5 ∨ op = 0x1B#5 ∨ op = 0x1C#5 ∨
        op = 0x1D#5 ∨ op = 0x1E#5 ∨ op = 0x1F#5 := by
    revert op; decide
  exacts [⟨.reservedOp00 low, rfl⟩, ⟨.reservedOp17 low, rfl⟩, ⟨.reservedOp18 low, rfl⟩, ⟨.reservedOp19 low, rfl⟩,
    ⟨.reservedOp1A low, rfl⟩, ⟨.reservedOp1B low, rfl⟩, ⟨.reservedOp1C low, rfl⟩, ⟨.reservedOp1D low, rfl⟩,
    ⟨.reservedOp1E low, rfl⟩, ⟨.reservedOp1F low, rfl⟩]

theorem exists_encode_of_formatP (hop : formatOf op = .p) (hlow : low &&& ~~~ Format.p.lowBits = 0#11)
    (hlen : xs.length = 4) (hext : ∀ x ∈ xs, x &&& extensionReserved = 0#16) :
    ∃ i, encode i = wordReserved op low :: xs := by
  obtain rfl : op = 0x15#5 := by revert op; decide
  obtain ⟨b, hb⟩ := exists_eq_wordB (op := 0x15#5) hlow
  obtain ⟨x1, x2, x3, x4, rfl⟩ := List.length_eq_four.mp hlen
  simp only [List.forall_mem_cons] at hext
  obtain ⟨h1, h2, h3, h4, -⟩ := hext
  rw [hb, wordX_of_fields h1, wordX_of_fields h2, wordX_of_fields h3, wordX_of_fields h4]
  exact ⟨.applyPreset b _ _ _ _ _ _ _ _, rfl⟩

theorem exists_encode_of_one_word (hop : formatOf op ≠ .p) (hlow : low &&& ~~~ (formatOf op).lowBits = 0#11) :
    ∃ i, encode i = [wordReserved op low] := by
  cases hf : formatOf op with
  | n => exact exists_encode_of_formatN hf (hf ▸ hlow)
  | b => exact exists_encode_of_formatB hf (hf ▸ hlow)
  | l => exact exists_encode_of_formatL hf (hf ▸ hlow)
  | s => exact exists_encode_of_formatS hf (hf ▸ hlow)
  | v => exact exists_encode_of_formatV hf (hf ▸ hlow)
  | g => exact exists_encode_of_formatG hf (hf ▸ hlow)
  | p => exact absurd hf hop
  | reserved => exact exists_encode_of_formatReserved hf low

/-- Only format P has extension words (R70). -/
theorem commandLength_eq (op : BitVec 5) : commandLength op = if formatOf op = .p then 5 else 1 := by
  revert op; decide

theorem exists_encode_of_passesChecks {w : Word} (h : PassesChecks w xs) : ∃ i, encode i = w :: xs := by
  obtain ⟨hlen, hbits, hext⟩ := h
  have hlow : fieldLow w &&& ~~~ (formatOf (opcodeOf w)).lowBits = 0#11 := by
    rwa [← reservedBits_iff (opcodeOf w), ← word_eq_wordReserved, ← Format.operandBits_eq]
  rw [commandLength_eq] at hlen
  rw [word_eq_wordReserved w]
  by_cases hop : formatOf (opcodeOf w) = .p
  · rw [if_pos hop] at hlen
    exact exists_encode_of_formatP hop (hop ▸ hlow) (Nat.succ.inj hlen) hext
  · rw [if_neg hop] at hlen
    obtain rfl := List.eq_nil_of_length_eq_zero (Nat.succ.inj hlen)
    exact exists_encode_of_one_word hop hlow

/-- Settles O3: words that decode passed the checks, so they encode some instruction, and O2 tells which. -/
theorem decodedWordsAreTheEncoding : Obligations.DecodedWordsAreTheEncoding := by
  intro ws i h
  cases ws with
  | nil => cases h
  | cons w xs =>
    obtain ⟨j, hj⟩ := exists_encode_of_passesChecks (passesChecks_of_decode h)
    rw [← hj, decodeOfEncodeIsTheInstruction j] at h
    rw [← hj, Decoded.instr.inj h]

end Sys2Proof
end

section
/-! The decoder against the rules of R75 and R76 as Safety.lean writes them. -/

namespace Sys2Proof

open Machine

variable {w : Word} {xs ws : List Word} {i : Instr}

/-- Decoding and encoding are each other's inverse. -/
theorem decode_eq_instr_iff : decode ws = .instr i ↔ encode i = ws := by
  refine ⟨fun h => (decodedWordsAreTheEncoding ws i h).symm, ?_⟩
  rintro rfl
  exact decodeOfEncodeIsTheInstruction i

/-- The opcode is one of the 22 commands', not a reserved one (R75 item 2). -/
def CommandOpcode (op : BitVec 5) : Prop := 0x01 ≤ op.toNat ∧ op.toNat ≤ 0x16

/-- The 22 commands are the instructions whose opcode is none of the reserved rows' (R74, R75). -/
theorem wellFormed_iff_of_encode (he : encode i = w :: xs) : i.wellFormed = true ↔ CommandOpcode (opcodeOf w) := by
  unfold CommandOpcode
  cases i with
  | reservedOp00 | reservedOp17 | reservedOp18 | reservedOp19 | reservedOp1A | reservedOp1B | reservedOp1C
  | reservedOp1D | reservedOp1E | reservedOp1F => cases he; simp [Instr.wellFormed, opcodeOf_wordReserved]
  | _ => cases he; simp [Instr.wellFormed]

theorem toNat_shiftRight_eleven (w : Word) : (w >>> 11).toNat = (opcodeOf w).toNat := by
  simp [opcodeOf, BitVec.extractLsb'_toNat]
  omega

theorem commandLength_eq_toNat (op : BitVec 5) : commandLength op = if op.toNat = 0x15 then 5 else 1 := by
  revert op; decide

theorem maskColumn_getD (op : BitVec 5) : maskColumn.getD op.toNat 0xFFFF#16 = ~~~ (formatOf op).operandBits := by
  revert op; decide

/-- The check of word 0 by R74's columns. -/
theorem headOk_iff {n : Nat} :
    headOk w n = true ↔ CommandOpcode (opcodeOf w) ∧ n = commandLength (opcodeOf w) ∧
      w &&& ~~~ (formatOf (opcodeOf w)).operandBits = matchOf (opcodeOf w) := by
  simp only [headOk, toNat_shiftRight_eleven, ← commandLength_eq_toNat, maskColumn_getD, ← (opcode_map_rows _).1]
  simp [CommandOpcode, and_assoc]

theorem isCommand_cons_iff : isCommand (w :: xs) = true ↔ CommandOpcode (opcodeOf w) ∧ PassesChecks w xs := by
  simp [isCommand, headOk_iff, PassesChecks, extensionReserved, and_assoc]

theorem isCommand_iff : isCommand ws = true ↔ ∃ i, encode i = ws ∧ i.wellFormed = true := by
  cases ws with
  | nil =>
    refine iff_of_false Bool.false_ne_true ?_
    rintro ⟨i, he, -⟩
    cases decode_eq_instr_iff.mpr he
  | cons w xs =>
    rw [isCommand_cons_iff]
    constructor
    · rintro ⟨hop, hchecks⟩
      obtain ⟨i, he⟩ := exists_encode_of_passesChecks hchecks
      exact ⟨i, he, (wellFormed_iff_of_encode he).mpr hop⟩
    · rintro ⟨i, he, hwf⟩
      exact ⟨(wellFormed_iff_of_encode he).mp hwf, passesChecks_of_decode (decode_eq_instr_iff.mpr he)⟩

/-- Settles O4: both sides say that the words encode a well-formed instruction. -/
theorem decoderAcceptsExactlyTheCommands : Obligations.DecoderAcceptsExactlyTheCommands := by
  intro ws
  simp only [isCommand_iff, decode_eq_instr_iff]

/-! The offending word of a refusal (R76). -/

/-- Only a command has extension words (R70). -/
theorem commandOpcode_of_commandLength {op : BitVec 5} (h : commandLength op ≠ 1) : CommandOpcode op := by
  obtain rfl : op = 0x15#5 := by revert op; decide
  exact ⟨by decide, by decide⟩

/-- The decoder refuses word 0, or the first extension word with a reserved bit set. It tests word 0 for a reserved
opcode nowhere (log 13), but where there is an extension word to refuse the opcode is APPLY_PRESET's. -/
theorem decode_cons_eq_illegal {v : Word} (h : decode (w :: xs) = .illegal v) :
    (v = w ∧ headOk w (w :: xs).length = false) ∨
      (headOk w (w :: xs).length = true ∧ xs.find? (fun x => x &&& extensionReserved != 0#16) = some v) := by
  have hfail : ¬ PassesChecks w xs := by
    intro hchecks
    obtain ⟨i, he⟩ := exists_encode_of_passesChecks hchecks
    rw [decode_eq_instr_iff.mpr he] at h
    cases h
  simp only [decode] at h
  split at h
  case isTrue hlen =>
    refine .inl ⟨(Decoded.illegal.inj h).symm, Bool.eq_false_iff.mpr fun hhead => ?_⟩
    obtain ⟨-, hlen', -⟩ := headOk_iff.mp hhead
    exact hlen hlen'
  case isFalse hlen =>
    split at h
    case isTrue hbits =>
      refine .inl ⟨(Decoded.illegal.inj h).symm, Bool.eq_false_iff.mpr fun hhead => ?_⟩
      obtain ⟨-, -, hbits'⟩ := headOk_iff.mp hhead
      exact hbits hbits'
    case isFalse hbits =>
      split at h
      case h_1 x hfind =>
        have hlong : commandLength (opcodeOf w) ≠ 1 := by
          intro h1
          obtain rfl : xs = [] := List.eq_nil_of_length_eq_zero (by omega)
          cases hfind
        refine .inr ⟨headOk_iff.mpr ⟨commandOpcode_of_commandLength hlong, not_not.mp hlen, not_not.mp hbits⟩, ?_⟩
        rw [hfind, Decoded.illegal.inj h]
      case h_2 hfind => exact absurd ⟨not_not.mp hlen, not_not.mp hbits, by simpa using hfind⟩ hfail

theorem offendingWord_of_decode_eq_illegal {v : Word} (h : decode ws = .illegal v) : offendingWord ws = v := by
  cases ws with
  | nil => exact Decoded.illegal.inj h
  | cons w xs =>
    obtain ⟨rfl, hhead⟩ | ⟨hhead, hfind⟩ := decode_cons_eq_illegal h
    · exact if_neg (by rw [hhead]; exact Bool.false_ne_true)
    · exact (if_pos hhead).trans (congrArg (·.getD w) hfind)

theorem offendingWord_singleton (w : Word) : offendingWord [w] = w := by simp [offendingWord]

end Sys2Proof
end

section
/-! Words the block refuses (R75, R76, R202): the reserved rows, and the lists that are no command. -/

namespace Sys2Proof.Machine

variable {s : State} {g : Engine}

/-- IllegalCommand written out: the response 0x8004 and one new entry of the record (R88, R202, R204). -/
theorem execIllegal_of_getElem? (hg : s.engines[s.target]? = some g) (w : Word) :
    execIllegal w s = .next
      { s with
        responses := s.responses ++ [0x8004#16]
        errors := s.errors ++ [⟨s.target, .illegalCommand w⟩] } := by
  rw [execIllegal, raise_of_getElem? hg, State.raiseError, errorWord_code]

/-- An instruction that is none of the 22 commands is IllegalCommand of its word (log 13). -/
theorem exists_exec_eq_execIllegal {i : Instr} (hi : i.wellFormed = false) (s : State) :
    ∃ w, encode i = [w] ∧ exec i s = execIllegal w s := by
  cases i with
  | reservedOp00 | reservedOp17 | reservedOp18 | reservedOp19 | reservedOp1A | reservedOp1B | reservedOp1C
  | reservedOp1D | reservedOp1E | reservedOp1F => exact ⟨_, rfl, rfl⟩
  | _ => cases hi

/-- A list that is no command raises IllegalCommand, whether the decoder refuses it or reads a reserved row. -/
theorem step_of_not_isCommand {c : Command} {rest : List Command} (h : s.inbox = c :: rest)
    (hc : isCommand c.words = false) :
    step s = execIllegal (offendingWord c.words) { s with inbox := rest, target := c.target } := by
  cases hd : decode c.words with
  | illegal v => rw [step_of_decode_illegal h hd, offendingWord_of_decode_eq_illegal hd]
  | instr i =>
    have he : encode i = c.words := decode_eq_instr_iff.mp hd
    have hi : i.wellFormed = false := by
      rw [Bool.eq_false_iff] at hc ⊢
      exact fun hwf => hc (isCommand_iff.mpr ⟨i, he, hwf⟩)
    obtain ⟨w, hw, hexec⟩ := exists_exec_eq_execIllegal hi { s with inbox := rest, target := c.target }
    rw [step_of_decode_instr h hd, hexec, ← he, hw, offendingWord_singleton]

/-- Settles O5: such a step is IllegalCommand of the offending word, on the engine addressed. -/
theorem wordsThatAreNoCommandChangeNothing : Obligations.WordsThatAreNoCommandChangeNothing := by
  intro s c rest h hlt hc
  rw [step_of_not_isCommand h hc,
    execIllegal_of_getElem? (s := { s with inbox := rest, target := c.target }) (List.getElem?_eq_getElem hlt)]

/-- A word is its opcode's match value and its low bits together. -/
theorem wordReserved_eq_or (op : BitVec 5) (low : BitVec 11) :
    wordReserved op low = matchOf op ||| low.zeroExtend 16 := by
  have hbit (l : BitVec 11) (k : Nat) :
      (wordReserved op l).getLsbD k = if k < 11 then l.getLsbD k else op.getLsbD (k - 11) := BitVec.getLsbD_append
  apply BitVec.eq_of_getLsbD_eq
  intro k hk
  rw [matchOf_eq, BitVec.getLsbD_or, hbit, hbit]
  by_cases hlow : k < 11
  · simp [hlow, hk]
  · simp [hlow, BitVec.getLsbD_of_ge low k (Nat.le_of_not_lt hlow)]

theorem execIllegal_wordReserved (hg : s.engines[s.target]? = some g) (low : BitVec 11) (op : BitVec 5) :
    execIllegal (wordReserved op low) s = .next
      { s with
        responses := s.responses ++ [0x8004#16]
        errors := s.errors ++ [⟨s.target, .illegalCommand (matchOf op ||| low.zeroExtend 16)⟩] } := by
  rw [execIllegal_of_getElem? hg, wordReserved_eq_or]

/-- Settles O6: each reserved row is IllegalCommand of the word it encodes to. -/
theorem reservedRowsRaiseIllegalCommand : Obligations.ReservedRowsRaiseIllegalCommand := by
  intro s g low hg
  have hrow := execIllegal_wordReserved hg low
  exact ⟨hrow 0x00#5, hrow 0x17#5, hrow 0x18#5, hrow 0x19#5, hrow 0x1A#5, hrow 0x1B#5, hrow 0x1C#5, hrow 0x1D#5,
    hrow 0x1E#5, hrow 0x1F#5⟩

end Sys2Proof.Machine
end

section
/-! What a command can answer in any state, the invariant met or not: it stops for want of an engine, and on an engine
it raises, responds, or stops on broken links. -/

namespace Sys2Proof.Machine

variable {s t : State}

/-- What a command can answer once its target names an engine: an error, a response, or the stop on broken links
(R88, R201, log 12). -/
inductive EngineAnswer (s : State) : Result → Prop
  | raised (k : CommandError) : EngineAnswer s (.next (s.raiseError k))
  | responded (es : List Engine) (v : BitVec 8) : EngineAnswer s (.next ((s.putEngines es).respond v))
  | broken : EngineAnswer s (.fault .brokenTopology)

/-- The result is that of a command: it reads its target first (log 11), and answers on any engine as above. -/
def IsCommandResult (s : State) (r : Result) : Prop := ∃ k, r = onTarget s k ∧ ∀ g, EngineAnswer s (k g)

theorem onTarget_isCommandResult {k : Engine → Result} (h : ∀ g, EngineAnswer s (k g)) :
    IsCommandResult s (onTarget s k) := ⟨k, rfl, h⟩

theorem raise_isCommandResult (k : CommandError) : IsCommandResult s (raise k s) :=
  onTarget_isCommandResult fun _ => .raised k

theorem update_isCommandResult (f : Engine → Engine) : IsCommandResult s (update f s) :=
  onTarget_isCommandResult fun g => .responded (s.engines.set s.target (f g)) 0#8

theorem observe_isCommandResult (f : Engine → BitVec 8) : IsCommandResult s (observe f s) :=
  onTarget_isCommandResult fun g => .responded s.engines (f g)

theorem finish_engineAnswer (v : BitVec 8) (c : Cascade) : EngineAnswer s (finish s v c) := by
  cases c with
  | none => exact .broken
  | some es => exact .responded es v

theorem EngineAnswer.ite {p : Prop} [Decidable p] {r r' : Result} (h : EngineAnswer s r) (h' : EngineAnswer s r') :
    EngineAnswer s (if p then r else r') := by
  split <;> assumption

/-! The commands that are more than one shared operation. -/

theorem timerWith_isCommandResult (startTicks : Bool) : IsCommandResult s (timerWith startTicks s) :=
  onTarget_isCommandResult fun _ => .ite (finish_engineAnswer 0#8 _) (.responded s.engines 0#8)

theorem execStepRelease_isCommandResult : IsCommandResult s (execStepRelease s) :=
  onTarget_isCommandResult fun g =>
    .ite (.raised _) (.ite (.responded (s.engines.set s.target { g with autoMode := .hold }) 0#8)
      (finish_engineAnswer 0#8 _))

/-- Three refusals of PLUG before its walk, and the fourth by what the walk finds (R186). -/
theorem execPlug_isCommandResult (v : BitVec 8) : IsCommandResult s (execPlug v s) :=
  onTarget_isCommandResult fun _ =>
    .ite (.raised _) <| .ite (.raised _) <| .ite (.raised _) <| by
      split
      · exact .broken
      · exact .raised _
      · exact .responded _ 0#8

theorem execUnplug_isCommandResult : IsCommandResult s (execUnplug s) :=
  onTarget_isCommandResult fun g => by
    split
    · exact .responded (s.engines.set s.target { g with slaveMode := 0#8 }) 0#8
    · exact .ite (.responded _ 0#8) .broken

theorem exec_isCommandResult (i : Instr) (s : State) : IsCommandResult s (exec i s) := by
  cases i with
  | tick | stepPress | slaveStep => exact onTarget_isCommandResult fun g => finish_engineAnswer _ _
  | timer => exact timerWith_isCommandResult Config.startTicks
  | stepRelease => exact execStepRelease_isCommandResult
  | decodeAddr | decodePitch | getCtl => exact observe_isCommandResult _
  | reset | setRest | setSlaveMode => exact update_isCommandResult _
  | readLine =>
    dsimp only [exec, execReadLine]
    split
    · exact raise_isCommandResult _
    · exact observe_isCommandResult _
  | setInterval | setTheme | setRun | setSeq | setTempo | setVolume | setPitchCtl | applyPreset =>
    dsimp only [exec, execSetInterval, execSetTheme, execSetRun, execSetSeq, execSetTempo, execSetVolume,
      execSetPitchCtl, execApplyPreset]
    split
    · exact raise_isCommandResult _
    · exact update_isCommandResult _
  | plug v => exact execPlug_isCommandResult v
  | unplug => exact execUnplug_isCommandResult
  | reservedOp00 | reservedOp17 | reservedOp18 | reservedOp19 | reservedOp1A | reservedOp1B | reservedOp1C
  | reservedOp1D | reservedOp1E | reservedOp1F => exact raise_isCommandResult _

/-- Settles O10: every command reads its target first. -/
theorem commandToNoEngineStops : Obligations.CommandToNoEngineStops := by
  intro s i hlen
  obtain ⟨k, hk, -⟩ := exec_isCommandResult i s
  simp [hk, onTarget, List.getElem?_eq_none hlen]

/-- A command that completes has raised an error or responded. -/
theorem engineAnswer_of_exec_eq_next {i : Instr} (h : exec i s = .next t) : EngineAnswer s (.next t) := by
  obtain ⟨k, hk, hans⟩ := exec_isCommandResult i s
  obtain ⟨g, -, hg⟩ := onTarget_eq_next.mp (hk.symm.trans h)
  exact hg ▸ hans g

/-- Settles O15: an error word with its entry in the record, or a success word without one. -/
theorem everyCommandRespondsOnce : Obligations.EveryCommandRespondsOnce := by
  intro s t i h
  cases engineAnswer_of_exec_eq_next h with
  | raised k => exact ⟨rfl, rfl, _, rfl, .inr ⟨k, rfl, errorWord_and_high k.code, rfl⟩⟩
  | responded es v => exact ⟨rfl, rfl, _, rfl, .inl ⟨rfl, successWord_and_high v⟩⟩

end Sys2Proof.Machine
end

section
/-! The host's assembler (R91, R92). -/

namespace Sys2Proof.Machine

/-- Settles O1: R92's words and lines are fixed, so the decoder and the assembler are evaluated on them. -/
theorem specEncodingExamplesDecode : Obligations.SpecEncodingExamplesDecode := by
  unfold Obligations.SpecEncodingExamplesDecode
  decide

/-- Settles O52: each expansion is an entry of the assembler's table. -/
theorem pseudoInstructionsExpand : Obligations.PseudoInstructionsExpand :=
  ⟨rfl, fun _ => rfl, fun _ => rfl⟩

end Sys2Proof.Machine
end

section
/-! Commands against the words responded and the errors recorded so far: no command reads them, so it answers after any
history as it would after none (R101, R210). -/

namespace Sys2Proof.Machine

/-- The state s, had ws been responded and errs been recorded before it. -/
def State.withHistory (ws : List Word) (errs : List ErrorRecord) (s : State) : State :=
  { s with responses := ws ++ s.responses, errors := errs ++ s.errors }

/-- The state s with nothing responded and no error recorded. -/
def State.withoutHistory (s : State) : State := { s with responses := [], errors := [] }

/-- The same answer, its next state with the earlier history. -/
def resultWithHistory (ws : List Word) (errs : List ErrorRecord) (r : Result) : Result :=
  match r with
  | .next t => .next (t.withHistory ws errs)
  | .fault f => .fault f
  | .refused q => .refused q

variable {s t u : State} {ws : List Word} {errs : List ErrorRecord}

@[simp] theorem State.withHistory_engines : (s.withHistory ws errs).engines = s.engines := rfl
@[simp] theorem State.withHistory_target : (s.withHistory ws errs).target = s.target := rfl

theorem State.withHistory_withoutHistory (s : State) :
    s.withoutHistory.withHistory s.responses s.errors = s := by
  simp [withHistory, withoutHistory]

theorem State.respond_withHistory (v : BitVec 8) :
    (s.withHistory ws errs).respond v = (s.respond v).withHistory ws errs := by
  simp [withHistory, respond]

theorem State.raiseError_withHistory (k : CommandError) :
    (s.withHistory ws errs).raiseError k = (s.raiseError k).withHistory ws errs := by
  simp [withHistory, raiseError]

theorem resultWithHistory_eq_next {r : Result} (h : resultWithHistory ws errs r = .next t) :
    ∃ t₀, r = .next t₀ ∧ t = t₀.withHistory ws errs := by
  cases r with
  | next t₀ => cases h; exact ⟨t₀, rfl, rfl⟩
  | fault | refused => cases h

/-! The shared operations of Machine/Ops.lean, and what commands are composed of. -/

theorem respond_next_withHistory (s : State) (v : BitVec 8) :
    .next ((s.withHistory ws errs).respond v) = resultWithHistory ws errs (.next (s.respond v)) :=
  congrArg _ (State.respond_withHistory v)

theorem raiseError_next_withHistory (k : CommandError) :
    .next ((s.withHistory ws errs).raiseError k) = resultWithHistory ws errs (.next (s.raiseError k)) :=
  congrArg _ (State.raiseError_withHistory k)

theorem onTarget_withHistory {k k' : Engine → Result} (h : ∀ g, k' g = resultWithHistory ws errs (k g)) :
    onTarget (s.withHistory ws errs) k' = resultWithHistory ws errs (onTarget s k) := by
  simp only [onTarget, State.withHistory_engines, State.withHistory_target]
  split
  case h_1 g _ => exact h g
  case h_2 => rfl

theorem raise_withHistory (k : CommandError) :
    raise k (s.withHistory ws errs) = resultWithHistory ws errs (raise k s) :=
  onTarget_withHistory fun _ => raiseError_next_withHistory k

theorem update_withHistory (f : Engine → Engine) :
    update f (s.withHistory ws errs) = resultWithHistory ws errs (update f s) :=
  onTarget_withHistory fun g => respond_next_withHistory (s.putEngine (f g)) 0#8

theorem observe_withHistory (f : Engine → BitVec 8) :
    observe f (s.withHistory ws errs) = resultWithHistory ws errs (observe f s) :=
  onTarget_withHistory fun g => respond_next_withHistory s (f g)

theorem finish_withHistory (v : BitVec 8) (c : Cascade) :
    finish (s.withHistory ws errs) v c = resultWithHistory ws errs (finish s v c) := by
  cases c with
  | none => rfl
  | some es => exact respond_next_withHistory (s.putEngines es) v

theorem ite_withHistory {p : Prop} [Decidable p] {a a' b b' : Result} (ha : a' = resultWithHistory ws errs a)
    (hb : b' = resultWithHistory ws errs b) :
    (if p then a' else b') = resultWithHistory ws errs (if p then a else b) := by
  split <;> assumption

/-! The commands that are more than one shared operation. -/

theorem timerWith_withHistory (startTicks : Bool) :
    timerWith startTicks (s.withHistory ws errs) = resultWithHistory ws errs (timerWith startTicks s) :=
  onTarget_withHistory fun _ => ite_withHistory (finish_withHistory 0#8 _) (respond_next_withHistory s 0#8)

theorem execStepRelease_withHistory :
    execStepRelease (s.withHistory ws errs) = resultWithHistory ws errs (execStepRelease s) :=
  onTarget_withHistory fun g =>
    ite_withHistory (raiseError_next_withHistory _)
      (ite_withHistory (respond_next_withHistory (s.putEngine { g with autoMode := .hold }) 0#8)
        (finish_withHistory 0#8 _))

/-- The three refusals of PLUG before its walk, and the walk's own answer (R186). -/
theorem execPlug_withHistory (v : BitVec 8) :
    execPlug v (s.withHistory ws errs) = resultWithHistory ws errs (execPlug v s) :=
  have hrefused := raiseError_next_withHistory (s := s) (ws := ws) (errs := errs) (.syncTopologyError v)
  onTarget_withHistory fun _ =>
    ite_withHistory hrefused <| ite_withHistory hrefused <| ite_withHistory hrefused <| by
      simp only [State.withHistory_engines, State.withHistory_target]
      split
      · rfl
      · exact hrefused
      · exact respond_next_withHistory (s.putEngines (attach s.engines s.target v.toNat)) 0#8

theorem execUnplug_withHistory :
    execUnplug (s.withHistory ws errs) = resultWithHistory ws errs (execUnplug s) :=
  onTarget_withHistory fun g => by
    split
    · exact respond_next_withHistory (s.putEngine { g with slaveMode := 0#8 }) 0#8
    · exact ite_withHistory (respond_next_withHistory (s.putEngines _) 0#8) rfl

/-- No instruction depends on what was responded or recorded before it. -/
theorem exec_withHistory (i : Instr) (s : State) :
    exec i (s.withHistory ws errs) = resultWithHistory ws errs (exec i s) := by
  cases i with
  | tick | stepPress | slaveStep => exact onTarget_withHistory fun _ => finish_withHistory _ _
  | timer => exact timerWith_withHistory Config.startTicks
  | stepRelease => exact execStepRelease_withHistory
  | decodeAddr | decodePitch | getCtl => exact observe_withHistory _
  | reset | setRest | setSlaveMode => exact update_withHistory _
  | readLine =>
    dsimp only [exec, execReadLine]
    split
    · exact raise_withHistory _
    · exact observe_withHistory _
  | setInterval | setTheme | setRun | setSeq | setTempo | setVolume | setPitchCtl | applyPreset =>
    dsimp only [exec, execSetInterval, execSetTheme, execSetRun, execSetSeq, execSetTempo, execSetVolume,
      execSetPitchCtl, execApplyPreset]
    split
    · exact raise_withHistory _
    · exact update_withHistory _
  | plug v => exact execPlug_withHistory v
  | unplug => exact execUnplug_withHistory
  | reservedOp00 | reservedOp17 | reservedOp18 | reservedOp19 | reservedOp1A | reservedOp1B | reservedOp1C
  | reservedOp1D | reservedOp1E | reservedOp1F => exact raise_withHistory _

theorem execAll_withHistory (is : List Instr) (s : State) :
    execAll is (s.withHistory ws errs) = resultWithHistory ws errs (execAll is s) := by
  induction is generalizing s with
  | nil => rfl
  | cons i is ih =>
    simp only [execAll, exec_withHistory]
    cases exec i s with
    | next t => exact ih t
    | fault | refused => rfl

theorem execAll_eq_of_withoutHistory (is : List Instr) (s : State) :
    execAll is s = resultWithHistory s.responses s.errors (execAll is s.withoutHistory) := by
  rw [← execAll_withHistory, s.withHistory_withoutHistory]

/-! The reads of R101 and R210. -/

/-- READ_LINE, DECODE_ADDR, DECODE_PITCH and GET_CTL: they read the engine addressed and write no engine. -/
def isRead (i : Instr) : Prop :=
  (∃ l, i = .readLine l) ∨ i = .decodeAddr ∨ i = .decodePitch ∨ ∃ sel, i = .getCtl sel

theorem raise_withoutHistory {k : CommandError} (h : raise k s = .next t) : t.withoutHistory = s.withoutHistory := by
  obtain rfl := raise_eq_next h
  rfl

theorem observe_withoutHistory {f : Engine → BitVec 8} (h : observe f s = .next t) :
    t.withoutHistory = s.withoutHistory := by
  obtain ⟨g, -, rfl⟩ := observe_eq_next h
  rfl

/-- A read adds to the history and changes nothing else, a refused READ_LINE included. -/
theorem withoutHistory_of_read {i : Instr} (hi : isRead i) (h : exec i s = .next t) :
    t.withoutHistory = s.withoutHistory := by
  obtain ⟨l, rfl⟩ | rfl | rfl | ⟨sel, rfl⟩ := hi
  · dsimp only [exec, execReadLine] at h
    split at h
    · exact raise_withoutHistory h
    · exact observe_withoutHistory h
  · exact observe_withoutHistory h
  · exact observe_withoutHistory h
  · exact observe_withoutHistory h

/-- Settles O22: both runs are the run from the state without history that s and t share, each after its own. -/
theorem readsHaveNoEffectOnLaterResponses : Obligations.ReadsHaveNoEffectOnLaterResponses := by
  intro s t u i js hi hread hrun
  have hsame : t.withoutHistory = s.withoutHistory := withoutHistory_of_read hi hread
  rw [execAll_eq_of_withoutHistory] at hrun
  obtain ⟨u₀, hu₀, rfl⟩ := resultWithHistory_eq_next hrun
  refine ⟨u₀.withHistory t.responses t.errors, u₀.responses, ?_, rfl, rfl, rfl⟩
  rw [execAll_eq_of_withoutHistory, hsame, hu₀, resultWithHistory]

end Sys2Proof.Machine
end

/-! The clock engine: TICK, RESET, TIMER, STEP_PRESS and STEP_RELEASE (41_clock_engine.md). -/

section
/-! What the clock engine commands answer, said once for each: the whole next state, cascades included. -/

namespace Sys2Proof.Machine

variable {s t : State} {g : Engine} {i : Instr} {F : EngineId → Engine → Engine} {w : Word}

/-- Command i completes in s: it turns the registers h of each engine x into `F x h`, responds w, and changes nothing
else. -/
def Completes (s : State) (i : Instr) (F : EngineId → Engine → Engine) (w : Word) : Prop :=
  ∃ t, exec i s = .next t ∧ t.engines.length = s.engines.length ∧
    (∀ x h, s.engines[x]? = some h → t.engines[x]? = some (F x h)) ∧
    t.responses = s.responses ++ [w] ∧ t.errors = s.errors ∧ t.inbox = s.inbox ∧ t.target = s.target

theorem completes_of_finish {c : Cascade} {es : List Engine} {v : BitVec 8} (hexec : exec i s = finish s v c)
    (hc : c = some es) (hes : ∀ x, es[x]? = s.engines[x]?.map (F x)) : Completes s i F (successWord v) :=
  ⟨(s.putEngines es).respond v, by rw [hexec, hc, finish_some], length_eq_of_getElem?_map hes,
    fun _ _ hx => getElem?_of_map hes hx, rfl, rfl, rfl, rfl⟩

theorem inv_of_exec (hi : Inv s) (h : exec i s = .next t) : Inv t := (h ▸ exec_outcome hi i).inv hi

/-- What a command that follows needs of a completed one: the invariant, and the registers of the engine addressed. -/
theorem Completes.exists_next (h : Completes s i F w) (hi : Inv s) (hg : s.engines[s.target]? = some g) :
    ∃ t, exec i s = .next t ∧ Inv t ∧ t.target = s.target ∧ t.engines[t.target]? = some (F s.target g) := by
  obtain ⟨t, hexec, -, hF, -, -, -, htarget⟩ := h
  exact ⟨t, hexec, inv_of_exec hi hexec, htarget, htarget ▸ hF s.target g hg⟩

theorem getElem?_target_of_putEngine (hg : s.engines[s.target]? = some g) (g' : Engine) (v : BitVec 8) :
    ((s.putEngine g').respond v).engines[s.target]? = some g' := by
  simp [target_lt_of_getElem? hg]

/-! TICK (R114). -/

theorem exec_tick_eq_finish (hg : s.engines[s.target]? = some g) :
    exec .tick s = finish s g.advance.decodePitch.byte (tick s.target s.engines) := onTarget_of_getElem? hg _

theorem successWord_advance_decodePitch (g : Engine) :
    successWord g.advance.decodePitch.byte = pitchResponse (tickedEngine g) := by
  rw [advance_eq_tickedEngine, successWord_decodePitch]

theorem exec_tick (hi : Inv s) (hg : s.engines[s.target]? = some g) :
    Completes s .tick (afterTick s.engines s.target) (pitchResponse (tickedEngine g)) := by
  obtain ⟨es, htick, hes⟩ := tick_spec hi.topology hg
  rw [← successWord_advance_decodePitch]
  exact completes_of_finish (exec_tick_eq_finish hg) htick hes

/-! RESET (R116). -/

theorem exec_reset (hg : s.engines[s.target]? = some g) :
    exec .reset s = .next ((s.putEngine g.resetChain).respond 0#8) := update_of_getElem? hg _

/-! TIMER on either side of its gate (R119). -/

theorem exec_timer_of_timerTicks (hi : Inv s) (hg : s.engines[s.target]? = some g) (hgate : timerTicks g) :
    Completes s .timer (afterTick s.engines s.target) 0x0000#16 := by
  have hexec : exec .timer s = finish s 0#8 (tick s.target s.engines) :=
    (onTarget_of_getElem? hg _).trans (if_pos ((timerGate_iff g).mpr hgate))
  obtain ⟨es, htick, hes⟩ := tick_spec hi.topology hg
  exact completes_of_finish hexec htick hes

theorem exec_timer_of_not_timerTicks (hg : s.engines[s.target]? = some g) (hgate : ¬ timerTicks g) :
    exec .timer s = .next (s.respond 0#8) :=
  (onTarget_of_getElem? hg _).trans (if_neg (mt (timerGate_iff g).mp hgate))

/-! STEP_PRESS and STEP_RELEASE (R125, R126). -/

/-- Engine x, in registers h, after engine e, in registers g, had its sequencing switch put to m and then ticked, with
every cascade complete. -/
def afterSwitchAndTick (es : List Engine) (e : EngineId) (g : Engine) (m : AutoMode) (x : EngineId) (h : Engine) :
    Engine :=
  if x = e then tickedEngine { g with autoMode := m } else afterTick es e x h

@[simp] theorem afterSwitchAndTick_self (es : List Engine) (e : EngineId) (g : Engine) (m : AutoMode) (h : Engine) :
    afterSwitchAndTick es e g m e h = tickedEngine { g with autoMode := m } := if_pos rfl

/-- The subordinates hear the same bit from a tick whether or not the sequencing switch was moved just before it. -/
theorem completes_of_switch_and_tick (hi : Inv s) (hg : s.engines[s.target]? = some g) {m : AutoMode}
    (hexec : exec i s = finish s 0#8 (tick s.target (s.engines.set s.target { g with autoMode := m }))) :
    Completes s i (afterSwitchAndTick s.engines s.target g m) 0x0000#16 := by
  obtain ⟨es, htick, hes⟩ := tick_set_spec (g' := { g with autoMode := m }) hi.topology hg rfl rfl rfl
  exact completes_of_finish hexec htick hes

theorem exec_stepPress (hi : Inv s) (hg : s.engines[s.target]? = some g) :
    Completes s .stepPress (afterSwitchAndTick s.engines s.target g .step) 0x0000#16 :=
  completes_of_switch_and_tick hi hg (onTarget_of_getElem? hg _)

theorem exec_stepRelease_of_ne_step (hg : s.engines[s.target]? = some g) (hm : g.autoMode ≠ .step) :
    exec .stepRelease s = .next (s.raiseError (.invalidControlValue g.autoMode.code)) :=
  (onTarget_of_getElem? hg _).trans (if_pos hm)

theorem exec_stepRelease_of_high (hg : s.engines[s.target]? = some g) (hm : g.autoMode = .step)
    (hc : g.clockCounter.toNat % 2 = 1) :
    exec .stepRelease s = .next ((s.putEngine { g with autoMode := .hold }).respond 0#8) := by
  have hphase : g.phase = true := by simp [phase_eq, hc]
  exact (onTarget_of_getElem? hg _).trans ((if_neg (not_not.mpr hm)).trans (if_pos hphase))

theorem exec_stepRelease_of_low (hi : Inv s) (hg : s.engines[s.target]? = some g) (hm : g.autoMode = .step)
    (hc : g.clockCounter.toNat % 2 = 0) :
    Completes s .stepRelease (afterSwitchAndTick s.engines s.target g .hold) 0x0000#16 := by
  have hphase : ¬ g.phase = true := by simp [phase_eq, hc]
  exact completes_of_switch_and_tick hi hg
    ((onTarget_of_getElem? hg _).trans ((if_neg (not_not.mpr hm)).trans (if_neg hphase)))

end Sys2Proof.Machine
end

section
/-! The statements about one clock engine command. -/

namespace Sys2Proof.Machine

variable {es : List Engine} {e : EngineId} {g : Engine}

/-- Settles O23, by the spec lemma of the cascade. -/
theorem tickRunsTheWholeCascade : Obligations.TickRunsTheWholeCascade :=
  ⟨by decide, fun _ _ => exec_tick⟩

/-- The broadcast of an engine with no subordinates reaches no engine, whatever the other links are. -/
theorem tick_of_subs_nil (hg : es[e]? = some g) (hs : g.subs = []) :
    tick e es = some (es.set e (tickedEngine g)) := by
  obtain ⟨he, -⟩ := List.getElem?_eq_some_iff.mp hg
  obtain ⟨n, hn⟩ := Nat.exists_eq_add_one_of_ne_zero (Nat.ne_zero_of_lt he)
  simp [tick, hn, tickWith, hg, hs, broadcastWith, advance_eq_tickedEngine]

/-- Settles O24: the cascade of such a tick is the tick alone. -/
theorem tickWithoutSubordinates : Obligations.TickWithoutSubordinates := by
  intro s g hg hs
  rw [exec_tick_eq_finish hg, tick_of_subs_nil hg hs, finish_some, State.respond, successWord_advance_decodePitch]
  rfl

/-- Settles O25: RESET is an update of the engine addressed. -/
theorem resetWritesTheChainOnly : Obligations.ResetWritesTheChainOnly :=
  ⟨by decide, fun _ _ => exec_reset⟩

theorem resetChain_resetChain (g : Engine) : g.resetChain.resetChain = g.resetChain := rfl

/-- Settles O26: the second RESET writes the registers it reads. -/
theorem resetTwiceIsResetOnce : Obligations.ResetTwiceIsResetOnce := by
  intro s g hg
  refine ⟨_, _, exec_reset hg, exec_reset (getElem?_target_of_putEngine hg _ _), ?_⟩
  simp [resetChain_resetChain]

/-- Settles O27, by TIMER's two answers. -/
theorem timerTicksExactlyThroughItsGate : Obligations.TimerTicksExactlyThroughItsGate :=
  ⟨by decide, fun _ _ hi hg => ⟨exec_timer_of_not_timerTicks hg, exec_timer_of_timerTicks hi hg⟩⟩

/-- Settles O29: no switch is read before the tick. -/
theorem stepPressEntersStepAndTicks : Obligations.StepPressEntersStepAndTicks :=
  ⟨by decide, fun _ _ => exec_stepPress⟩

theorem code_of_ne_step {m : AutoMode} (hm : m ≠ .step) : m.code = if m = .hold then 1#8 else 0#8 := by
  cases m with
  | auto | hold => rfl
  | step => exact absurd rfl hm

/-- Settles O30, by STEP_RELEASE's three answers. -/
theorem stepReleaseEntersHoldAndParks : Obligations.StepReleaseEntersHoldAndParks := by
  refine ⟨by decide, fun s g hi hg => ⟨fun hm => ?_, exec_stepRelease_of_high hg, exec_stepRelease_of_low hi hg⟩⟩
  rw [exec_stepRelease_of_ne_step hg hm, State.raiseError, errorWord_code, code_of_ne_step hm]

end Sys2Proof.Machine
end

section
/-! HOLD, and a press and release of the step control (R119, R120, R127). -/

namespace Sys2Proof.Machine

variable {s t : State} {g : Engine} {i : Instr}

theorem clockCounter_tickedEngine (g : Engine) : (tickedEngine g).clockCounter = g.clockCounter + 1#5 := rfl

theorem toNat_clockCounter_tickedEngine (g : Engine) :
    (tickedEngine g).clockCounter.toNat = (g.clockCounter.toNat + 1) % 32 := by
  rw [clockCounter_tickedEngine, BitVec.toNat_add]
  rfl

/-- A tick inverts the clock phase (R110). -/
theorem tickedEngine_high_of_low (hc : g.clockCounter.toNat % 2 = 0) :
    (tickedEngine g).clockCounter.toNat % 2 = 1 := by
  rw [toNat_clockCounter_tickedEngine]
  omega

theorem tickedEngine_low_of_high (hc : g.clockCounter.toNat % 2 = 1) :
    (tickedEngine g).clockCounter.toNat % 2 = 0 := by
  rw [toNat_clockCounter_tickedEngine]
  omega

theorem execAll_cons_of_next (h : exec i s = .next t) (is : List Instr) : execAll (i :: is) s = execAll is t := by
  simp only [execAll, h]

/-! Parked in HOLD on the high phase. -/

theorem not_timerTicks_of_hold_high (hm : g.autoMode = .hold) (hc : g.clockCounter.toNat % 2 = 1) :
    ¬ timerTicks g := by
  simp [timerTicks, hm, hc]

theorem exec_slaveStep_of_ne_auto (hg : s.engines[s.target]? = some g) (hm : g.autoMode ≠ .auto) (b : Bool) :
    exec (.slaveStep b) s = .next (s.respond 0#8) := by
  have hhear : g.hear b = (g, false) := if_pos hm
  have hset : s.engines.set s.target g = s.engines := by
    obtain ⟨_, rfl⟩ := List.getElem?_eq_some_iff.mp hg
    exact List.set_getElem_self _
  have hstep : slaveStep b s.target s.engines = some s.engines := by
    simp [slaveStep, slaveStepWith, hg, hhear, hset]
  exact (onTarget_of_getElem? hg _).trans (by rw [hstep, finish_some]; rfl)

theorem exec_of_parked (hg : s.engines[s.target]? = some g) (hm : g.autoMode = .hold)
    (hc : g.clockCounter.toNat % 2 = 1) (hi : i = .timer ∨ ∃ b, i = .slaveStep b) :
    exec i s = .next (s.respond 0#8) := by
  obtain rfl | ⟨b, rfl⟩ := hi
  · exact exec_timer_of_not_timerTicks hg (not_timerTicks_of_hold_high hm hc)
  · exact exec_slaveStep_of_ne_auto hg (by simp [hm]) b

theorem execAll_of_parked (hm : g.autoMode = .hold) (hc : g.clockCounter.toNat % 2 = 1) (js : List Instr)
    (hjs : ∀ j ∈ js, j = .timer ∨ ∃ b, j = .slaveStep b) (hg : s.engines[s.target]? = some g) :
    ∃ t, execAll js s = .next t ∧ t.engines = s.engines := by
  induction js generalizing s with
  | nil => exact ⟨s, rfl, rfl⟩
  | cons j js ih =>
    rw [List.forall_mem_cons] at hjs
    obtain ⟨hj, hjs⟩ := hjs
    rw [execAll_cons_of_next (exec_of_parked hg hm hc hj)]
    exact ih (s := s.respond 0#8) hjs hg

/-- Settles O28: parked high, TIMER's gate is shut and every bit is ignored; low and in RUN, the gate is open. -/
theorem holdParksHigh : Obligations.HoldParksHigh := by
  intro s g hi hg hm
  refine ⟨fun hc js hjs => execAll_of_parked hm hc js hjs hg, fun hc hrun => ?_⟩
  have hgate : timerTicks g := ⟨.inl hrun, .inr ⟨hm, hc⟩⟩
  obtain ⟨t, hexec, -, htarget, hg'⟩ := (exec_timer_of_timerTicks hi hg hgate).exists_next hi hg
  rw [htarget, afterTick, if_pos rfl] at hg'
  exact ⟨t, tickedEngine g, hexec, hg', rfl, tickedEngine_high_of_low hc, hm⟩

/-! Press and release. -/

/-- From the low phase the press ticks, and the release finds the clock high. -/
theorem press_and_release_of_low (hi : Inv s) (hg : s.engines[s.target]? = some g)
    (hc : g.clockCounter.toNat % 2 = 0) :
    ∃ t u, exec .stepPress s = .next t ∧ exec .stepRelease t = .next u ∧
      u.engines[s.target]? = some (tickedEngine { g with autoMode := .hold }) := by
  obtain ⟨t, hpress, -, htarget, hgt⟩ := (exec_stepPress hi hg).exists_next hi hg
  rw [afterSwitchAndTick_self] at hgt
  refine ⟨t, _, hpress, exec_stepRelease_of_high hgt rfl (tickedEngine_high_of_low hc), ?_⟩
  rw [← htarget]
  exact getElem?_target_of_putEngine hgt _ _

/-- From the high phase the press ticks, and the release finds the clock low and ticks once more. -/
theorem press_and_release_of_high (hi : Inv s) (hg : s.engines[s.target]? = some g)
    (hc : g.clockCounter.toNat % 2 = 1) :
    ∃ t u, exec .stepPress s = .next t ∧ exec .stepRelease t = .next u ∧
      u.engines[s.target]? = some (tickedEngine (tickedEngine { g with autoMode := .hold })) := by
  obtain ⟨t, hpress, hit, htarget, hgt⟩ := (exec_stepPress hi hg).exists_next hi hg
  rw [afterSwitchAndTick_self] at hgt
  have hcompletes := exec_stepRelease_of_low hit hgt rfl (tickedEngine_low_of_high hc)
  obtain ⟨u, hrelease, -, htarget', hgu⟩ := hcompletes.exists_next hit hgt
  rw [afterSwitchAndTick_self, htarget', htarget] at hgu
  exact ⟨t, u, hpress, hrelease, hgu⟩

/-- Settles O31: of the two ticks from the high phase, only the first is a falling edge. -/
theorem pressAndReleaseEndsHighInHold : Obligations.PressAndReleaseEndsHighInHold := by
  intro s g hi hg
  obtain hc | hc := Nat.mod_two_eq_zero_or_one g.clockCounter.toNat
  · obtain ⟨t, u, hpress, hrelease, hgu⟩ := press_and_release_of_low hi hg hc
    obtain ⟨hD, hS⟩ := tickedEngine_of_low (g := { g with autoMode := .hold }) hc
    exact ⟨t, u, _, hpress, hrelease, hgu, rfl, tickedEngine_high_of_low hc, by omega, fun _ => ⟨rfl, hD, hS⟩⟩
  · obtain ⟨t, u, hpress, hrelease, hgu⟩ := press_and_release_of_high hi hg hc
    obtain ⟨hfall, -⟩ := tickedEngine_of_high (g := { g with autoMode := .hold }) hc
    have hlow := tickedEngine_low_of_high (g := { g with autoMode := .hold }) hc
    obtain ⟨hD, hS⟩ := tickedEngine_of_low hlow
    have hC : g.clockCounter + 1#5 + 1#5 = g.clockCounter + 2#5 := BitVec.add_assoc ..
    exact ⟨t, u, _, hpress, hrelease, hgu, rfl, tickedEngine_high_of_low hlow,
      fun _ => ⟨hC, hD.trans hfall, hS⟩, by omega⟩

end Sys2Proof.Machine
end

section
/-! Any number of TICK commands, and the clock lines after a RESET (R23, R128, R129, R130). -/

namespace Sys2Proof.Machine

variable {s : State} {g : Engine}

/-- The registers of the engine addressed after n TICK commands. -/
theorem execAll_ticks (n : Nat) (hi : Inv s) (hg : s.engines[s.target]? = some g) :
    ∃ t, execAll (List.replicate n .tick) s = .next t ∧ t.engines[s.target]? = some (tickedEngine^[n] g) := by
  induction n generalizing s g with
  | zero => exact ⟨s, rfl, hg⟩
  | succ n ih =>
    obtain ⟨t, hexec, hit, htarget, hgt⟩ := (exec_tick hi hg).exists_next hi hg
    rw [afterTick, if_pos rfl] at hgt
    rw [List.replicate_succ, execAll_cons_of_next hexec, ← htarget]
    exact ih hit hgt

/-! C, D and S after n ticks. -/

theorem toNat_clockCounter_ticks (g : Engine) (n : Nat) :
    (tickedEngine^[n] g).clockCounter.toNat = (g.clockCounter.toNat + n) % 32 := by
  induction n with
  | zero => exact (Nat.mod_eq_of_lt g.clockCounter.isLt).symm
  | succ n ih =>
    rw [Function.iterate_succ_apply', toNat_clockCounter_tickedEngine, ih]
    omega

/-- The next tick is a falling edge exactly from the high phase. -/
theorem fallingEdges_succ (c n : Nat) : fallingEdges c (n + 1) = fallingEdges c n + (c + n) % 2 := by
  unfold fallingEdges
  omega

theorem div6Next_eq : div6Next = fun d => div6Table.getD d.toNat 0#4 := funext div6Next_eq_table

theorem divideBy6Counter_ticks (g : Engine) (n : Nat) :
    (tickedEngine^[n] g).divideBy6Counter =
      Nat.repeat div6Next (fallingEdges g.clockCounter.toNat n) g.divideBy6Counter := by
  induction n with
  | zero => simp [fallingEdges, Nat.repeat]
  | succ n ih =>
    have hphase := toNat_clockCounter_ticks g n
    rw [Function.iterate_succ_apply', fallingEdges_succ]
    obtain hc | hc := Nat.mod_two_eq_zero_or_one (g.clockCounter.toNat + n)
    · rw [hc, (tickedEngine_of_low (by omega)).1]
      exact ih
    · rw [hc, (tickedEngine_of_high (by omega)).1, ← div6Next_eq_table, ih]
      rfl

theorem shiftRegister_ticks (g : Engine) (n : Nat) {j : Nat} (hj : j + fallingEdges g.clockCounter.toNat n < 31) :
    (tickedEngine^[n] g).shiftRegister.getLsbD (j + fallingEdges g.clockCounter.toNat n) =
      g.shiftRegister.getLsbD j := by
  induction n with
  | zero => simp [fallingEdges]
  | succ n ih =>
    have hphase := toNat_clockCounter_ticks g n
    rw [Function.iterate_succ_apply']
    rw [fallingEdges_succ] at hj ⊢
    obtain hc | hc := Nat.mod_two_eq_zero_or_one (g.clockCounter.toNat + n)
    · rw [hc] at hj ⊢
      rw [(tickedEngine_of_low (by omega)).2]
      exact ih hj
    · rw [hc] at hj ⊢
      rw [← Nat.add_assoc, (tickedEngine_of_high (by omega)).2 _ (by omega)]
      exact ih (by omega)

/-- Settles O32, by the three registers after n ticks. -/
theorem countersAfterAnyNumberOfTicks : Obligations.CountersAfterAnyNumberOfTicks := by
  intro s g n hi hg
  obtain ⟨t, hexec, hgt⟩ := execAll_ticks n hi hg
  rw [← div6Next_eq]
  exact ⟨t, _, hexec, hgt, toNat_clockCounter_ticks g n, divideBy6Counter_ticks g n,
    fun _ hj => shiftRegister_ticks g n hj⟩

/-! The cycle of D from reset (R23, R130). -/

theorem dividerCycle_succ : ∀ k < 12, dividerCycle[(k + 1) % 12]? = dividerCycle[k]?.map div6Next := by decide

theorem dividerCycle_repeat (k : Nat) : dividerCycle[k % 12]? = some (Nat.repeat div6Next k 0#4) := by
  induction k with
  | zero => rfl
  | succ k ih =>
    rw [← Nat.mod_add_mod, dividerCycle_succ _ (Nat.mod_lt k (by decide)), ih]
    rfl

/-- Lines 7 and 8 along the cycle: D's bits 2 and 3 (R52). -/
theorem dividerCycle_lines : ∀ k < 12, ∀ d : BitVec 4, dividerCycle[k]? = some d →
    d.getLsbD 2 = decide (3 ≤ k % 6) ∧ d.getLsbD 3 = decide (6 ≤ k) := by decide

/-- Lines 2 to 6 hold the bits of C (R52). -/
theorem line_of_toNat_clockCounter {c j : Nat} (hc : g.clockCounter.toNat = c % 32) (hj : j < 5) :
    g.line ⟨2 + j, by omega⟩ = decide (c / 2 ^ j % 2 = 1) := by
  rw [g.line_clockCounter hj, ← BitVec.testBit_toNat, hc, show 32 = 2 ^ 5 from rfl, Nat.testBit_mod_two_pow,
    Nat.testBit_eq_decide_div_mod_eq]
  simp [hj]

/-- Settles O33: the registers after n ticks, from C = 1 and D = 0. -/
theorem clockLinesAfterReset : Obligations.ClockLinesAfterReset := by
  intro s g n hi hg
  have hir := inv_of_exec hi (exec_reset hg)
  obtain ⟨t, hexec, hgt⟩ := execAll_ticks n hir (getElem?_target_of_putEngine hg _ _)
  have hC : (tickedEngine^[n] g.resetChain).clockCounter.toNat = (1 + n) % 32 := toNat_clockCounter_ticks _ n
  have hedges : fallingEdges 1 n = (n + 1) / 2 := by unfold fallingEdges; omega
  have hD : dividerCycle[(n + 1) / 2 % 12]? = some (tickedEngine^[n] g.resetChain).divideBy6Counter := by
    rw [dividerCycle_repeat, divideBy6Counter_ticks, ← hedges]
    rfl
  obtain ⟨h7, h8⟩ := dividerCycle_lines _ (Nat.mod_lt _ (by decide)) _ hD
  rw [Nat.mod_mod_of_dvd _ (by decide)] at h7
  exact ⟨t, _, (execAll_cons_of_next (exec_reset hg) _).trans hexec, hgt, hC, hD,
    fun j hj => line_of_toNat_clockCounter hC hj, h7, h8⟩

end Sys2Proof.Machine
end

/-! The note decoder: DECODE_ADDR and DECODE_PITCH (42_note_decoder.md). -/

section
/-! The note address as a number and the pitches of R145's table, then what the two commands respond of them. -/

namespace Sys2Proof.Machine

variable {s : State} {g : Engine}

/-! The note address (R140). -/

theorem noteAddress_lt (g : Engine) : noteAddress g < 16 := decodeAddress_toNat g ▸ g.decodeAddress.isLt

theorem successWord_decodeAddress (g : Engine) :
    successWord (g.decodeAddress.zeroExtend 8) = BitVec.ofNat 16 (noteAddress g) := by
  have hbyte : noteAddress g < 256 := (noteAddress_lt g).trans (by decide)
  rw [← successWord_ofNat hbyte, ← decodeAddress_toNat, BitVec.ofNat_toNat]

/-! The pitch response (R143, R145). -/

theorem pitchTable_le : ∀ a < 16, pitchTable.getD a 0 ≤ 24 := by decide

theorem pitchResponse_of_rest (h : noteAddress g = 0 ∧ g.restEnabled = false) : pitchResponse g = 0x0080#16 :=
  if_pos h

/-- A response that is no rest is a pitch of the table. -/
theorem toNat_pitchResponse_le (h : ¬ (noteAddress g = 0 ∧ g.restEnabled = false)) :
    (pitchResponse g).toNat ≤ 24 := by
  rw [pitchResponse, if_neg h, BitVec.toNat_ofNat]
  exact (Nat.mod_le _ _).trans (pitchTable_le _ (noteAddress_lt g))

/-- No pitch of the table is 0x80, so the rest's word is the rest's alone. -/
theorem pitchResponse_eq_rest_iff : pitchResponse g = 0x0080#16 ↔ noteAddress g = 0 ∧ g.restEnabled = false := by
  refine ⟨fun h => ?_, pitchResponse_of_rest⟩
  by_contra hnote
  have hle := toNat_pitchResponse_le hnote
  rw [h] at hle
  exact absurd hle (by decide)

/-! The two commands (R141, R144). -/

theorem exec_decodeAddr (hg : s.engines[s.target]? = some g) :
    exec .decodeAddr s = .next (s.respond (g.decodeAddress.zeroExtend 8)) := observe_of_getElem? hg _

theorem exec_decodePitch (hg : s.engines[s.target]? = some g) :
    exec .decodePitch s = .next (s.respond g.decodePitch.byte) := observe_of_getElem? hg _

/-- Settles O35: the response is the decoded address, which is the note address as a number. -/
theorem decodeAddrRespondsTheNoteAddress : Obligations.DecodeAddrRespondsTheNoteAddress := by
  refine ⟨by decide, fun s g hg => ?_⟩
  rw [exec_decodeAddr hg, State.respond, successWord_decodeAddress]

/-- Settles O36: the response is the table's, and every pitch of the table is below the rest's word. -/
theorem decodePitchFollowsTheTable : Obligations.DecodePitchFollowsTheTable := by
  refine ⟨by decide, fun s g hg => ⟨?_, noteAddress_lt g, pitchResponse_eq_rest_iff, fun hnote => ?_⟩⟩
  · rw [exec_decodePitch hg, State.respond, successWord_decodePitch]
  · exact toNat_pitchResponse_le (mt pitchResponse_of_rest hnote)

end Sys2Proof.Machine
end

/-! The patch configuration: APPLY_PRESET, the setters, GET_CTL and the switch names (43_patch_config.md). -/

section
/-! The commands of formats S, V and G as their opcode's match value and their operands together (R71, R73). -/

namespace Sys2Proof

open Machine

variable {i : Instr}

theorem zeroExtend_zero_append {k n : Nat} (m : Nat) (x : BitVec n) :
    (0#k ++ x).zeroExtend m = x.zeroExtend m := by
  apply BitVec.eq_of_toNat_eq
  simp [BitVec.toNat_append]

theorem zeroExtend_idx_append_line : ∀ (idx : BitVec 2) (line : BitVec 6),
    (idx ++ (0#3 ++ line)).zeroExtend 16 = idx.zeroExtend 16 <<< 9 ||| line.zeroExtend 16 := by
  decide

theorem decode_formatS {idx : BitVec 2} {line : BitVec 6} (op : BitVec 5) (he : encode i = [wordS op idx line]) :
    decode [matchOf op ||| idx.zeroExtend 16 <<< 9 ||| line.zeroExtend 16] = .instr i := by
  rw [decode_eq_instr_iff, he, wordS_eq, wordReserved_eq_or, zeroExtend_idx_append_line, BitVec.or_assoc]

theorem decode_formatV {v : BitVec 8} (op : BitVec 5) (he : encode i = [wordV op v]) :
    decode [matchOf op ||| v.zeroExtend 16] = .instr i := by
  rw [decode_eq_instr_iff, he, wordV_eq, wordReserved_eq_or, zeroExtend_zero_append]

theorem decode_formatG {sel : BitVec 4} (op : BitVec 5) (he : encode i = [wordG op sel]) :
    decode [matchOf op ||| sel.zeroExtend 16] = .instr i := by
  rw [decode_eq_instr_iff, he, wordG_eq, wordReserved_eq_or, zeroExtend_zero_append]

end Sys2Proof
end

section
/-! The setters: each checks its operand, refuses an illegal one, and otherwise writes the engine addressed. -/

namespace Sys2Proof.Machine

variable {s : State} {g g' : Engine} {α : Type} {o : Option α} {a : α} {f : α → Engine → Engine} {info : BitVec 8}

/-- What a setter answers to its operand: InvalidControlValue for an illegal one, otherwise the write. -/
def setControl (info : BitVec 8) (o : Option α) (f : α → Engine → Engine) (s : State) : Result :=
  match o with
  | none => raise (.invalidControlValue info) s
  | some a => update (f a) s

theorem setControl_of_some (hg : s.engines[s.target]? = some g) (ho : o = some a) (hf : f a g = g') :
    setControl info o f s =
      .next { s with engines := s.engines.set s.target g', responses := s.responses ++ [0x0000#16] } := by
  rw [ho, ← hf]
  exact update_of_getElem? hg _

theorem setControl_of_none (hg : s.engines[s.target]? = some g) (ho : o = none) :
    setControl info o f s = .next
      { s with
        responses := s.responses ++ [0x8003#16]
        errors := s.errors ++ [⟨s.target, .invalidControlValue info⟩] } := by
  rw [ho, setControl, raise_of_getElem? hg, State.raiseError, errorWord_code]

/-! The seven setters that check an operand. -/

theorem exec_setInterval (idx : BitVec 2) (line : BitVec 6) (s : State) :
    exec (.setInterval idx line) s = setControl (line.zeroExtend 8) (lineOperand line)
      (fun l g => { g with interval := g.interval.set idx.toNat l idx.isLt }) s := by
  cases ho : lineOperand line <;> simp only [exec, execSetInterval, setControl, ho, slotOperand, BitVec.val_toFin]

theorem exec_setTheme (idx : BitVec 2) (line : BitVec 6) (s : State) :
    exec (.setTheme idx line) s = setControl (line.zeroExtend 8) (lineOperand line)
      (fun l g => { g with theme := g.theme.set idx.toNat l idx.isLt }) s := by
  cases ho : lineOperand line <;> simp only [exec, execSetTheme, setControl, ho, slotOperand, BitVec.val_toFin]

theorem exec_setRun (v : BitVec 8) (s : State) :
    exec (.setRun v) s = setControl v (runOperand v) (fun m g => g.setRun m) s := by
  cases ho : runOperand v <;> simp only [exec, execSetRun, setControl, ho]

theorem exec_setSeq (v : BitVec 8) (s : State) :
    exec (.setSeq v) s = setControl v (seqOperand v) (fun m g => { g with autoMode := m }) s := by
  cases ho : seqOperand v <;> simp only [exec, execSetSeq, setControl, ho]

theorem exec_setTempo (v : BitVec 8) (s : State) :
    exec (.setTempo v) s = setControl v (levelOperand v) (fun l g => { g with tempo := l }) s := by
  cases ho : levelOperand v <;> simp only [exec, execSetTempo, setControl, ho]

theorem exec_setVolume (v : BitVec 8) (s : State) :
    exec (.setVolume v) s = setControl v (levelOperand v) (fun l g => { g with volume := l }) s := by
  cases ho : levelOperand v <;> simp only [exec, execSetVolume, setControl, ho]

theorem exec_setPitchCtl (v : BitVec 8) (s : State) :
    exec (.setPitchCtl v) s = setControl v (levelOperand v) (fun l g => { g with pitchControl := l }) s := by
  cases ho : levelOperand v <;> simp only [exec, execSetPitchCtl, setControl, ho]

/-! The operands of the two switches, and the write of the transport switch (R160, R161). -/

theorem runOperand_of_ge {v : BitVec 8} (hv : 3 ≤ v.toNat) : runOperand v = none := by
  revert v; decide

theorem seqOperand_of_ge {v : BitVec 8} (hv : 2 ≤ v.toNat) : seqOperand v = none := by
  revert v; decide

theorem setRun_entering_off (h : g.runMode ≠ .off) : g.setRun .off = Engine.resetChain { g with runMode := .off } :=
  if_pos ⟨rfl, h⟩

theorem setRun_not_entering_off {m : RunMode} (h : m = .off → g.runMode = .off) :
    g.setRun m = { g with runMode := m } :=
  if_neg fun ⟨hm, hrun⟩ => hrun (h hm)

end Sys2Proof.Machine
end

section
/-! The statements about the setters (R158 to R165). -/

namespace Sys2Proof.Machine

/-- Settles O38, by the two sides of the highest address. -/
theorem selectorSettersWriteOneSlot : Obligations.SelectorSettersWriteOneSlot := by
  refine ⟨fun idx line => ⟨decode_formatS 0x09#5 rfl, decode_formatS 0x0A#5 rfl⟩,
    fun s g idx line hg => ⟨fun hl => ?_, fun hl i hi => ?_⟩⟩
  · have ho := lineOperand_of_le hl
    exact ⟨(exec_setInterval idx line s).trans (setControl_of_some hg ho rfl),
      (exec_setTheme idx line s).trans (setControl_of_some hg ho rfl)⟩
  · have ho := lineOperand_of_gt hl
    obtain rfl | rfl := hi
    · exact (exec_setInterval idx line s).trans (setControl_of_none hg ho)
    · exact (exec_setTheme idx line s).trans (setControl_of_none hg ho)

/-- Settles O39: SET_REST is an update of the engine addressed, with no operand to refuse. -/
theorem setRestWritesRestEnabled : Obligations.SetRestWritesRestEnabled :=
  ⟨by decide, by decide, fun _ _ _ hg => update_of_getElem? hg _⟩

/-- Settles O40: of the four legal writes, only OFF from another position enters OFF. -/
theorem setRunResetsOnEnteringOff : Obligations.SetRunResetsOnEnteringOff := by
  refine ⟨fun v => decode_formatV 0x0C#5 rfl, fun s g v hg => ?_⟩
  have hwrite {m : RunMode} {g' : Engine} (ho : runOperand v = some m) (hset : g.setRun m = g') :=
    (exec_setRun v s).trans (setControl_of_some hg ho hset)
  have hoff : v.toNat = 0 → runOperand v = some .off := fun hv => by rw [BitVec.eq_of_toNat_eq (y := 0#8) hv]; rfl
  refine ⟨fun hv hrun => ?_, fun hv hrun => ?_, fun hv => ?_, fun hv => ?_, fun hv => ?_⟩
  · exact hwrite (hoff hv) (setRun_entering_off hrun)
  · exact hwrite (hoff hv) (setRun_not_entering_off fun _ => hrun)
  · obtain rfl : v = 1#8 := BitVec.eq_of_toNat_eq hv
    exact hwrite rfl (setRun_not_entering_off nofun)
  · obtain rfl : v = 2#8 := BitVec.eq_of_toNat_eq hv
    exact hwrite rfl (setRun_not_entering_off nofun)
  · exact (exec_setRun v s).trans (setControl_of_none hg (runOperand_of_ge hv))

/-- Settles O41, by the two legal values and the refusal above them. -/
theorem setSeqWritesAutoOrHold : Obligations.SetSeqWritesAutoOrHold := by
  refine ⟨fun v => decode_formatV 0x0D#5 rfl, fun s g v hg => ⟨fun hv => ?_, fun hv => ?_, fun hv => ?_⟩⟩
  · obtain rfl : v = 0#8 := BitVec.eq_of_toNat_eq hv
    exact (exec_setSeq 0#8 s).trans (setControl_of_some hg rfl rfl)
  · obtain rfl : v = 1#8 := BitVec.eq_of_toNat_eq hv
    exact (exec_setSeq 1#8 s).trans (setControl_of_some hg rfl rfl)
  · exact (exec_setSeq v s).trans (setControl_of_none hg (seqOperand_of_ge hv))

/-- Settles O42, by the two sides of the highest level. -/
theorem levelSettersWriteTheirControl : Obligations.LevelSettersWriteTheirControl := by
  refine ⟨fun v => ⟨decode_formatV 0x0E#5 rfl, decode_formatV 0x0F#5 rfl, decode_formatV 0x10#5 rfl⟩,
    fun s g v hg => ⟨fun hv => ?_, fun hv i hi => ?_⟩⟩
  · have ho := levelOperand_of_le hv
    exact ⟨(exec_setTempo v s).trans (setControl_of_some hg ho rfl),
      (exec_setVolume v s).trans (setControl_of_some hg ho rfl),
      (exec_setPitchCtl v s).trans (setControl_of_some hg ho rfl)⟩
  · have ho := levelOperand_of_gt hv
    obtain rfl | rfl | rfl := hi
    · exact (exec_setTempo v s).trans (setControl_of_none hg ho)
    · exact (exec_setVolume v s).trans (setControl_of_none hg ho)
    · exact (exec_setPitchCtl v s).trans (setControl_of_none hg ho)

end Sys2Proof.Machine
end

section
/-! APPLY_PRESET (R151 to R153): its eight codes are checked in their order, and the first illegal one is reported. -/

namespace Sys2Proof.Machine

variable {s : State} {g : Engine} {k : Nat} {c i0 i1 i2 i3 t0 t1 t2 t3 : BitVec 6}

/-- A sequence of checks fails with the error of the first that fails. -/
theorem mapM_eq_error {ε α β : Type} {check : α → Except ε β} {l : List α} {k : Nat} {a : α} {e : ε}
    (hk : l[k]? = some a) (ha : check a = .error e)
    (hbefore : ∀ j < k, ∀ b, l[j]? = some b → ∃ r, check b = .ok r) : l.mapM check = .error e := by
  induction l generalizing k with
  | nil => simp at hk
  | cons x xs ih =>
    rw [List.mapM_cons]
    cases k with
    | zero =>
      obtain rfl : x = a := by simpa using hk
      rw [ha]
      rfl
    | succ k =>
      obtain ⟨r, hr⟩ := hbefore 0 k.succ_pos x rfl
      rw [hr, ih hk fun j hj => hbefore (j + 1) (Nat.succ_lt_succ hj)]
      rfl

/-- The selectors of a preset are the results of the checks of its codes, in their order (R151, R152). -/
theorem presetOperands_map_toList (i0 i1 i2 i3 t0 t1 t2 t3 : BitVec 6) :
    (fun p => p.1.toList ++ p.2.toList) <$> presetOperands i0 i1 i2 i3 t0 t1 t2 t3 =
      [i0, i1, i2, i3, t0, t1, t2, t3].zipIdx.mapM fun p => codeOperand p.2 p.1 := by
  simp [presetOperands, List.mapM_cons]

theorem presetOperands_of_first_illegal (hk : [i0, i1, i2, i3, t0, t1, t2, t3][k]? = some c) (hc : 40 ≤ c.toNat)
    (hbefore : ∀ j < k, ∀ d, [i0, i1, i2, i3, t0, t1, t2, t3][j]? = some d → d.toNat ≤ 39) :
    presetOperands i0 i1 i2 i3 t0 t1 t2 t3 = .error (k, c) := by
  have hmap := presetOperands_map_toList i0 i1 i2 i3 t0 t1 t2 t3
  rw [mapM_eq_error (k := k) (a := (c, k)) (?_) (codeOperand_of_gt hc) ?_] at hmap
  · cases hp : presetOperands i0 i1 i2 i3 t0 t1 t2 t3 with
    | ok p => rw [hp] at hmap; cases hmap
    | error e => rw [hp] at hmap; cases hmap; rfl
  · rw [List.getElem?_zipIdx, hk, Option.map_some, Nat.zero_add]
  · intro j hj p hp
    rw [List.getElem?_zipIdx, Option.map_eq_some_iff] at hp
    obtain ⟨d, hd, rfl⟩ := hp
    exact ⟨_, codeOperand_of_le (Nat.lt_succ_of_le (hbefore j hj d hd))⟩

/-- The code of an address is the address. -/
theorem codeOperand_ofNat (k : Nat) (l : LineAddr) : codeOperand k (BitVec.ofNat 6 l.val) = .ok l := by
  have hnat : (BitVec.ofNat 6 l.val).toNat = l.val := Nat.mod_eq_of_lt (by omega)
  rw [codeOperand_of_le (hnat.symm ▸ l.isLt)]
  simp [hnat]

theorem presetOperands_ofNat (iv tv : Vector LineAddr 4) :
    presetOperands (BitVec.ofNat 6 iv[0].val) (BitVec.ofNat 6 iv[1].val) (BitVec.ofNat 6 iv[2].val)
      (BitVec.ofNat 6 iv[3].val) (BitVec.ofNat 6 tv[0].val) (BitVec.ofNat 6 tv[1].val) (BitVec.ofNat 6 tv[2].val)
      (BitVec.ofNat 6 tv[3].val) = .ok (iv, tv) := by
  have heta (v : Vector LineAddr 4) : #v[v[0], v[1], v[2], v[3]] = v := by
    ext j hj
    interval_cases j <;> rfl
  simp only [presetOperands, codeOperand_ofNat]
  rw [← heta iv, ← heta tv]
  rfl

/-- Settles O37: legal codes are the addresses, and an illegal one is reported where it first stands. -/
theorem applyPresetLoadsOrReportsTheFirstBadName : Obligations.ApplyPresetLoadsOrReportsTheFirstBadName := by
  refine ⟨fun rest i0 i1 i2 i3 t0 t1 t2 t3 => ?_, fun s g rest hg => ⟨fun iv tv => ?_, ?_⟩⟩
  · rw [decode_eq_instr_iff]
    simp only [encode, wordX_eq_or]
    cases rest <;> rfl
  · simp only [exec, execApplyPreset, presetOperands_ofNat]
    exact update_of_getElem? hg _
  · intro i0 i1 i2 i3 t0 t1 t2 t3 c k hk hc hbefore
    simp only [exec, execApplyPreset, presetOperands_of_first_illegal hk hc hbefore]
    rw [raise_of_getElem? hg, State.raiseError, errorWord_code]

end Sys2Proof.Machine
end

section
/-! GET_CTL (R167): each selector's byte as the number it shows. -/

namespace Sys2Proof.Machine

variable {s : State} {g : Engine} {sel : BitVec 4} {n : Nat}

theorem exec_getCtl (hg : s.engines[s.target]? = some g) (hn : (g.control sel).toNat = n) :
    n < 256 ∧ exec (.getCtl sel) s = .next { s with responses := s.responses ++ [BitVec.ofNat 16 n] } := by
  have hlt : n < 256 := hn ▸ (g.control sel).isLt
  have hexec : exec (.getCtl sel) s = .next (s.respond (g.control sel)) := observe_of_getElem? hg _
  refine ⟨hlt, ?_⟩
  rw [hexec, State.respond, ← successWord_ofNat hlt, ← hn, BitVec.ofNat_toNat, BitVec.setWidth_eq]

theorem toNat_lineByte (l : LineAddr) : (lineByte l).toNat = l.val := Nat.mod_eq_of_lt (by omega)

theorem toNat_levelByte (l : Level) : (levelByte l).toNat = l.val := Nat.mod_eq_of_lt (by omega)

theorem toNat_bitByte (b : Bool) : (bitByte b).toNat = b.toNat := by
  cases b <;> rfl

theorem toNat_masterByte {m : EngineId} (hm : m < 0xFF) : (masterByte (some m)).toNat = m :=
  Nat.mod_eq_of_lt (hm.trans (by decide))

theorem toNat_control_interval (g : Engine) {k : Nat} (hk : k < 4) :
    (g.control (BitVec.ofNat 4 k)).toNat = g.interval[k].val := by
  rw [← toNat_lineByte]
  interval_cases k <;> rfl

theorem toNat_control_theme (g : Engine) {k : Nat} (hk : k < 4) :
    (g.control (BitVec.ofNat 4 (4 + k))).toNat = g.theme[k].val := by
  rw [← toNat_lineByte]
  interval_cases k <;> rfl

/-- A master's identifier is below the byte that stands for NONE (R7, R167). -/
theorem master_lt_of_inv (hi : Inv s) (hg : s.engines[s.target]? = some g) {m : EngineId} (hm : g.master = some m) :
    m < 0xFF := by
  have hlt := hi.topology.master_lt (masterOf_of_getElem? hg ▸ hm)
  exact hlt.trans_le hi.atMostMax

/-- Settles O43, by the number each selector's byte shows. -/
theorem getCtlReadsEachControl : Obligations.GetCtlReadsEachControl := by
  refine ⟨fun sel => decode_formatG 0x16#5 rfl, fun s g hi hg => ?_⟩
  refine ⟨fun k hk => exec_getCtl hg (toNat_control_interval g hk),
    fun k hk => exec_getCtl hg (toNat_control_theme g hk),
    exec_getCtl hg (toNat_bitByte _), exec_getCtl hg ?runMode, exec_getCtl hg ?autoMode,
    exec_getCtl hg (toNat_levelByte _), exec_getCtl hg (toNat_levelByte _), exec_getCtl hg (toNat_levelByte _),
    exec_getCtl hg rfl, fun hm => exec_getCtl hg ?noMaster, fun m hm => ?master⟩
  case runMode => cases hm : g.runMode <;> simp [Engine.control, RunMode.code, hm]
  case autoMode => cases hm : g.autoMode <;> simp [Engine.control, AutoMode.code, hm]
  case noMaster => simp [Engine.control, masterByte, hm]
  case master =>
    have hlt := master_lt_of_inv hi hg hm
    exact ⟨hlt, exec_getCtl hg (by simpa [Engine.control, hm] using toNat_masterByte hlt)⟩

end Sys2Proof.Machine
end

section
/-! The switch-name table (R150). -/

namespace Sys2Proof.Machine

theorem switchNames_nodup : switchNames.Nodup := by decide

theorem switchCode_of_getElem? {name : String} {k : Nat} (h : switchNames[k]? = some name) :
    switchCode name = some (BitVec.ofNat 6 k) := by
  obtain ⟨hk, hname⟩ := List.getElem?_eq_some_iff.mp h
  have hidx : switchNames.idxOf? name = some k := by
    rw [List.idxOf?_eq_some_iff]
    refine ⟨hk, hname, fun j hj heq => ?_⟩
    exact hj.ne ((switchNames_nodup.getElem_inj_iff).mp (heq.trans hname.symm))
  rw [switchCode, hidx, Option.map_some]

theorem switchCode_of_not_mem {name : String} (h : name ∉ switchNames) : switchCode name = none := by
  rw [switchCode, List.idxOf?_eq_none_iff.mpr h, Option.map_none]

/-- Bn stands at address 8 + n. -/
theorem getElem?_switchNames_bit {n : Nat} (h1 : 1 ≤ n) (h31 : n ≤ 31) :
    switchNames[8 + n]? = some ("B" ++ toString n) := by
  interval_cases n <;> rfl

/-- Settles O51: no name stands twice in the table, so each has the code of its place. -/
theorem switchNamesHaveTheirCodes : Obligations.SwitchNamesHaveTheirCodes := by
  refine ⟨rfl, fun k hk => switchCode_of_getElem? (List.getElem?_eq_getElem hk), ?_,
    fun n h1 h31 => switchCode_of_getElem? (getElem?_switchNames_bit h1 h31), fun _ => switchCode_of_not_mem⟩
  and_intros <;> exact switchCode_of_getElem? rfl

end Sys2Proof.Machine
end

/-! The synchroniser: SLAVE_STEP, SET_SLAVEMODE, PLUG and UNPLUG, and what a subordinate does over its master's
ticks (44_sync.md). -/

section
/-! SLAVE_STEP and SET_SLAVEMODE (R182, R185). -/

namespace Sys2Proof.Machine

variable {s : State} {g : Engine}

theorem exec_slaveStep (hi : Inv s) (hg : s.engines[s.target]? = some g) (b : Bool) :
    Completes s (.slaveStep b) (afterBit s.engines s.target g b) 0x0000#16 := by
  have hexec : exec (.slaveStep b) s = finish s 0#8 (slaveStep b s.target s.engines) := onTarget_of_getElem? hg _
  obtain ⟨es, hstep, hes⟩ := slaveStep_spec hi.topology hg b
  exact completes_of_finish hexec hstep hes

/-- Settles O44, by the spec lemma of a received bit. -/
theorem slaveStepReactsToTheBit : Obligations.SlaveStepReactsToTheBit :=
  ⟨by decide, by decide, fun _ _ b hi hg => exec_slaveStep hi hg b⟩

/-- Settles O45: SET_SLAVEMODE is an update of the engine addressed, with no operand to refuse. -/
theorem setSlaveModeWritesSlaveMode : Obligations.SetSlaveModeWritesSlaveMode :=
  ⟨fun _ => decode_formatV 0x11#5 rfl, fun _ _ _ hg => update_of_getElem? hg _⟩

end Sys2Proof.Machine
end

section
/-! PLUG and UNPLUG, each with its whole next state (R186, R188). -/

namespace Sys2Proof.Machine

variable {s : State} {g h : Engine} {es : List Engine} {e m x : EngineId} {v : BitVec 8}

theorem lt_of_below (hb : Below es e x) : x < es.length := by
  cases hb with
  | direct hx => exact lt_of_masterOf hx
  | through hx _ => exact lt_of_masterOf hx

theorem walkMeets_of_below (ht : TopologyOk es) (hb : Below es e x) : walkMeets es e es.length x = some true := by
  have hx := lt_of_below hb
  obtain ⟨b, hwalk, hmeets⟩ := walkMeets_spec (e := e) ht hx (ht.chain_bounded hx)
  rwa [hmeets.mpr (.inr hb)] at hwalk

theorem walkMeets_of_not_below (ht : TopologyOk es) (hx : x < es.length) (hne : x ≠ e) (hb : ¬ Below es e x) :
    walkMeets es e es.length x = some false := by
  obtain ⟨b, hwalk, hmeets⟩ := walkMeets_spec (e := e) ht hx (ht.chain_bounded hx)
  have hfalse : b = false := Bool.eq_false_iff.mpr fun hb' => (hmeets.mp hb').elim hne hb
  rwa [hfalse] at hwalk

/-- The cases in which PLUG of e under m is refused (R186). -/
def PlugRefused (es : List Engine) (e : EngineId) (g : Engine) (m : EngineId) : Prop :=
  es.length ≤ m ∨ m = e ∨ g.master ≠ none ∨ Below es e m

theorem exec_plug_of_refused (hi : Inv s) (hg : s.engines[s.target]? = some g)
    (hr : PlugRefused s.engines s.target g v.toNat) :
    exec (.plug v) s = .next (s.raiseError (.syncTopologyError v)) := by
  refine (onTarget_of_getElem? hg _).trans ?_
  obtain hunknown | hself | hmaster | hbelow := hr
  · simp [hunknown]
  · simp [hself]
  · simp [hmaster]
  · simp [walkMeets_of_below hi.topology hbelow]

theorem exec_plug_of_not_refused (hi : Inv s) (hg : s.engines[s.target]? = some g)
    (hr : ¬ PlugRefused s.engines s.target g v.toNat) :
    exec (.plug v) s = .next ((s.putEngines (attach s.engines s.target v.toNat)).respond 0#8) := by
  simp only [PlugRefused, not_or] at hr
  obtain ⟨hlen, hself, hmaster, hbelow⟩ := hr
  refine (onTarget_of_getElem? hg _).trans ?_
  rw [if_neg hlen, if_neg hself, if_neg hmaster,
    walkMeets_of_not_below hi.topology (Nat.lt_of_not_le hlen) hself hbelow]

/-- Settles O46, by PLUG's two answers. -/
theorem plugAttachesOrRefuses : Obligations.PlugAttachesOrRefuses := by
  refine ⟨fun v => decode_formatV 0x13#5 rfl, fun s g v hi hg => ⟨fun hr => ?_, fun h hh hself hmaster hbelow => ?_⟩⟩
  · rw [exec_plug_of_refused hi hg hr, State.raiseError, errorWord_code]
  · obtain ⟨hlt, -⟩ := List.getElem?_eq_some_iff.mp hh
    have hr : ¬ PlugRefused s.engines s.target g v.toNat := by
      simp [PlugRefused, hlt, hself, hmaster, hbelow]
    rw [exec_plug_of_not_refused hi hg hr, attach_eq_set hself.symm hg hh]
    rfl

theorem exec_unplug_of_no_master (hg : s.engines[s.target]? = some g) (hm : g.master = none) :
    exec .unplug s = .next ((s.putEngine { g with slaveMode := 0#8 }).respond 0#8) := by
  refine (onTarget_of_getElem? hg _).trans ?_
  rw [hm]

/-- A master is another engine of the system, with the engine in its list (R35). -/
theorem TopologyOk.exists_master (ht : TopologyOk es) (hg : es[e]? = some g) (hm : g.master = some m) :
    ∃ h, es[m]? = some h ∧ m ≠ e ∧ e ∈ h.subs ∧ h.subs.Nodup := by
  have hlink : masterOf es e = some m := (masterOf_of_getElem? hg).trans hm
  obtain ⟨h, hh, hmem⟩ := exists_of_mem_subsOf ((ht.linksAgree m e).mpr hlink)
  have hne : m ≠ e := fun heq => ht.irrefl e (.direct (heq ▸ hlink))
  exact ⟨h, hh, hne, hmem, subsOf_of_getElem? hh ▸ ht.noRepeats m⟩

theorem exec_unplug_of_master (hg : s.engines[s.target]? = some g) (hm : g.master = some m)
    (hh : s.engines[m]? = some h) (hne : m ≠ s.target) (hnodup : h.subs.Nodup) :
    exec .unplug s = .next ((s.putEngines ((s.engines.set m { h with subs := h.subs.erase s.target }).set s.target
      { g with master := none, slaveMode := 0#8 })).respond 0#8) := by
  obtain ⟨hlt, -⟩ := List.getElem?_eq_some_iff.mp hh
  refine (onTarget_of_getElem? hg _).trans ?_
  rw [hm]
  dsimp only
  rw [if_pos hlt, detach_eq_set hne.symm hg hh, hnodup.erase_eq_filter]

/-- Settles O47, by UNPLUG's two answers. -/
theorem unplugDetaches : Obligations.UnplugDetaches := by
  refine ⟨by decide, fun s g hi hg => ⟨exec_unplug_of_no_master hg, fun m hm => ?_⟩⟩
  obtain ⟨h, hh, hne, hmem, hnodup⟩ := hi.topology.exists_master hg hm
  exact ⟨h, hh, hne, hmem, exec_unplug_of_master hg hm hh hne hnodup⟩

end Sys2Proof.Machine
end

section
/-! A subordinate under the engine that TICKs (R180, R181, R183). -/

namespace Sys2Proof.Machine

variable {s : State} {g h : Engine} {x : EngineId}

/-- The bit an engine sends when it ticks: its new phase, the inverse of the phase it had (R110, R180). -/
def Engine.sentBit (g : Engine) : Bool := g.clockCounter.toNat % 2 == 0

theorem toNat_sentBit (g : Engine) : g.sentBit.toNat = 1 - g.clockCounter.toNat % 2 := by
  unfold Engine.sentBit
  obtain hc | hc := Nat.mod_two_eq_zero_or_one g.clockCounter.toNat <;> simp [hc]

theorem sentBit_tickedEngine (g : Engine) : (tickedEngine g).sentBit = !g.sentBit := by
  unfold Engine.sentBit
  obtain hc | hc := Nat.mod_two_eq_zero_or_one g.clockCounter.toNat
  · simp [hc, tickedEngine_high_of_low hc]
  · simp [hc, tickedEngine_low_of_high hc]

theorem afterTick_of_master (hi : Inv s) (hg : s.engines[s.target]? = some g) (hh : s.engines[x]? = some h)
    (hm : h.master = some s.target) : afterTick s.engines s.target x h = bitReaction h g.sentBit := by
  have hlink : masterOf s.engines x = some s.target := (masterOf_of_getElem? hh).trans hm
  have hne : x ≠ s.target := fun heq => hi.topology.irrefl x (.direct (heq ▸ hlink))
  have hchain := hi.topology.chain_bounded (lt_of_masterOf hlink)
  rw [afterTick, if_neg hne, receives_of_master hchain hlink hg]
  rfl

/-- A TICK and the two engines it leaves: the master ticked, and the subordinate having received the master's bit. -/
theorem exec_tick_subordinate (hi : Inv s) (hg : s.engines[s.target]? = some g) (hh : s.engines[x]? = some h)
    (hm : h.master = some s.target) :
    ∃ t, exec .tick s = .next t ∧ Inv t ∧ t.target = s.target ∧ t.engines[s.target]? = some (tickedEngine g) ∧
      t.engines[x]? = some (bitReaction h g.sentBit) := by
  obtain ⟨t, hexec, -, hF, -, -, -, htarget⟩ := exec_tick hi hg
  have hgt := hF _ _ hg
  have hht := hF _ _ hh
  rw [afterTick, if_pos rfl] at hgt
  rw [afterTick_of_master hi hg hh hm] at hht
  exact ⟨t, hexec, inv_of_exec hi hexec, htarget, hgt, hht⟩

/-! Unison. -/

theorem bitTicks_of_unison (ha : h.autoMode = .auto) (hu : h.slaveMode = 1#8) (b : Bool) :
    bitTicks h b = (b.toNat != h.clockCounter.toNat % 2) := by
  simp [bitTicks, ha, hu]

theorem bitReaction_of_unison (hu : h.slaveMode = 1#8) (b : Bool) :
    bitReaction h b = if bitTicks h b then tickedEngine h else h := by
  simp [bitReaction, hu]

theorem bitReaction_sentBit_of_in_phase (ha : h.autoMode = .auto) (hu : h.slaveMode = 1#8)
    (hp : h.clockCounter.toNat % 2 = g.clockCounter.toNat % 2) : bitReaction h g.sentBit = tickedEngine h := by
  have hdiff : g.sentBit.toNat ≠ h.clockCounter.toNat % 2 := by
    rw [toNat_sentBit]
    omega
  simp [bitReaction_of_unison hu, bitTicks_of_unison ha hu, hdiff]

theorem bitReaction_sentBit_of_out_of_phase (ha : h.autoMode = .auto) (hu : h.slaveMode = 1#8)
    (hp : h.clockCounter.toNat % 2 ≠ g.clockCounter.toNat % 2) : bitReaction h g.sentBit = h := by
  have hsame : h.clockCounter.toNat % 2 = g.sentBit.toNat := by
    rw [toNat_sentBit]
    omega
  simp [bitReaction_of_unison hu, bitTicks_of_unison ha hu, hsame]

/-- Settles O48: the master's tick inverts its phase, and so does that of a subordinate in phase with it. -/
theorem unisonSubordinateEndsInPhase : Obligations.UnisonSubordinateEndsInPhase := by
  intro s g h x hi hg hh hm ha hu
  obtain ⟨t, hexec, -, -, hgt, hht⟩ := exec_tick_subordinate hi hg hh hm
  refine ⟨t, _, _, hexec, hgt, hht, ?_, bitReaction_sentBit_of_in_phase ha hu,
    bitReaction_sentBit_of_out_of_phase ha hu⟩
  by_cases hp : h.clockCounter.toNat % 2 = g.clockCounter.toNat % 2
  · rw [bitReaction_sentBit_of_in_phase ha hu hp, toNat_clockCounter_tickedEngine, toNat_clockCounter_tickedEngine]
    omega
  · rw [bitReaction_sentBit_of_out_of_phase ha hu hp, toNat_clockCounter_tickedEngine]
    omega

end Sys2Proof.Machine
end

section
/-! A divided subordinate over any number of ticks of its master (R184). -/

namespace Sys2Proof.Machine

variable {s : State} {g h : Engine} {x : EngineId} {b : Bool} {N c n q : Nat}

/-- The engine after n received bits that alternate from b on, as the bits of a ticking master do. -/
def afterAlternatingBits (b : Bool) (n : Nat) (h : Engine) : Engine :=
  match n with
  | 0 => h
  | n' + 1 => afterAlternatingBits (!b) n' (bitReaction h b)

/-- The registers of a subordinate after n TICK commands of its master. -/
theorem execAll_ticks_subordinate (n : Nat) (hi : Inv s) (hg : s.engines[s.target]? = some g)
    (hh : s.engines[x]? = some h) (hm : h.master = some s.target) :
    ∃ t, execAll (List.replicate n .tick) s = .next t ∧
      t.engines[x]? = some (afterAlternatingBits g.sentBit n h) := by
  induction n generalizing s g h with
  | zero => exact ⟨s, rfl, hh⟩
  | succ n ih =>
    obtain ⟨t, hexec, hit, htarget, hgt, hht⟩ := exec_tick_subordinate hi hg hh hm
    obtain ⟨hmaster, -⟩ := sameLinks_of_sameSettings (bitReaction_sameSettings h g.sentBit)
    rw [← htarget] at hgt hm
    rw [List.replicate_succ, execAll_cons_of_next hexec, afterAlternatingBits, ← sentBit_tickedEngine]
    exact ih hit hgt hht (hmaster.trans hm)

/-! One received bit in a divided mode. -/

/-- An engine in AUTO and in divided mode N. -/
structure DividedBy (N : Nat) (h : Engine) : Prop where
  auto : h.autoMode = .auto
  mode : h.slaveMode.toNat = N
  two_le : 2 ≤ N

theorem DividedBy.le_255 (hd : DividedBy N h) : N ≤ 255 := by
  rw [← hd.mode]
  exact Nat.le_of_lt_succ h.slaveMode.isLt

theorem dividedBy_bitReaction (hd : DividedBy N h) (b : Bool) : DividedBy N (bitReaction h b) := by
  obtain ⟨-, -, -, -, ha, -, -, -, hmode, -, -⟩ := bitReaction_sameSettings h b
  exact ⟨ha.trans hd.auto, by rw [hmode, hd.mode], hd.two_le⟩

theorem toNat_counted (h : Engine) :
    (counted h).slaveClockDivider.toNat = min (h.slaveClockDivider.toNat + 1) 255 := by
  simp only [counted, BitVec.toNat_ofNat]
  omega

theorem DividedBy.bitTicks_iff (hd : DividedBy N h) (b : Bool) :
    bitTicks h b = true ↔ (N % 2 = 0 → b = false) ∧ N ≤ h.slaveClockDivider.toNat + 1 := by
  have hle := hd.le_255
  obtain ⟨ha, hN, h2⟩ := hd
  have h0 : N ≠ 0 := by omega
  have h1 : N ≠ 1 := by omega
  have hdiv : N ≤ (counted h).slaveClockDivider.toNat ↔ N ≤ h.slaveClockDivider.toNat + 1 := by
    rw [toNat_counted]
    omega
  obtain heven | hodd := Nat.mod_two_eq_zero_or_one N
  · simp [bitTicks, ha, hN, h0, h1, heven, hdiv]
  · simp [bitTicks, ha, hN, h0, h1, hodd, hdiv]

/-- A bit that ticks an engine steps C and clears DIV. -/
theorem counters_of_bitTicks (ht : bitTicks h b = true) :
    (bitReaction h b).clockCounter.toNat = (h.clockCounter.toNat + 1) % 32 ∧
      (bitReaction h b).slaveClockDivider.toNat = 0 := by
  rw [bitReaction_of_ticks ht, toNat_clockCounter_tickedEngine, Engine.hear_clockCounter]
  exact ⟨rfl, rfl⟩

/-- A bit that does not tick a divided engine steps DIV. -/
theorem DividedBy.counters_of_not_bitTicks (hd : DividedBy N h) (ht : bitTicks h b = false) :
    (bitReaction h b).clockCounter = h.clockCounter ∧
      (bitReaction h b).slaveClockDivider.toNat = min (h.slaveClockDivider.toNat + 1) 255 := by
  obtain ⟨ha, hN, h2⟩ := hd
  have hcount : bitReaction h b = counted h := by simp [bitReaction, ht, ha, hN, h2]
  rw [hcount]
  exact ⟨rfl, toNat_counted h⟩

/-! Which of the alternating bits tick the engine. -/

/-- The number of bits received when a subordinate divided by N has just ticked for the q-th time, from DIV = 0 and a
low first bit: N q for odd N. An even N waits for a low bit, so its first tick, and with it every later one, comes one
bit later (R184). -/
def bitsUntilTick (N q : Nat) : Nat := if q = 0 then 0 else N * q + (1 - N % 2)

/-- The number of ticks in n such bits. -/
def dividedTicks (N n : Nat) : Nat := if N % 2 = 1 then n / N else (n - 1) / N

theorem bitsUntilTick_succ (N q : Nat) : bitsUntilTick N (q + 1) = N * q + N + (1 - N % 2) := rfl

theorem bitsUntilTick_succ_le (N q : Nat) : bitsUntilTick N (q + 1) ≤ bitsUntilTick N q + N + (1 - N % 2) := by
  rw [bitsUntilTick_succ, bitsUntilTick]
  split
  case isTrue hq => simp [hq]
  case isFalse => omega

theorem eq_dividedTicks (hN : 0 < N) (hlo : bitsUntilTick N q ≤ n) (hhi : n < bitsUntilTick N (q + 1)) :
    q = dividedTicks N n := by
  have hsucc : N * (q + 1) = N * q + N := Nat.mul_succ N q
  have hquot : ∀ k, N * q ≤ k → k < N * q + N → q = k / N := fun k h1 h2 =>
    (Nat.div_eq_of_lt_le (by rwa [Nat.mul_comm]) (by rwa [Nat.mul_comm, hsucc])).symm
  rw [bitsUntilTick_succ] at hhi
  unfold bitsUntilTick at hlo
  unfold dividedTicks
  have hzero : q = 0 → N * q = 0 := fun hq => by rw [hq, Nat.mul_zero]
  split
  · exact hquot n (by split at hlo <;> omega) (by omega)
  · exact hquot (n - 1) (by split at hlo <;> omega) (by omega)

/-- After n alternating bits from DIV = 0, C = c and a low first bit, a subordinate divided by N has ticked q times,
and DIV holds the bits received since the last of these ticks. -/
structure DividedProgress (N c n q : Nat) (h : Engine) : Prop where
  divided : DividedBy N h
  clock : h.clockCounter.toNat = (c + q) % 32
  divider : bitsUntilTick N q + h.slaveClockDivider.toNat = n
  notDue : n < bitsUntilTick N (q + 1)

/-- The next bit, low after an even number of bits, ticks the engine exactly when its next tick is due. -/
theorem DividedProgress.bitTicks_iff (hp : DividedProgress N c n q h) :
    bitTicks h (n % 2 == 1) = true ↔ n + 1 = bitsUntilTick N (q + 1) := by
  obtain ⟨hd, -, hdiv, hdue⟩ := hp
  have heven : N % 2 = 0 → N * q % 2 = 0 := fun hN => by rw [Nat.mul_mod, hN, Nat.zero_mul]
  rw [hd.bitTicks_iff, beq_eq_false_iff_ne]
  rw [bitsUntilTick_succ] at hdue ⊢
  unfold bitsUntilTick at hdiv
  split at hdiv
  case isTrue hq =>
    rw [hq, Nat.mul_zero] at hdue ⊢
    omega
  case isFalse => omega

theorem DividedProgress.step (hp : DividedProgress N c n q h) :
    ∃ q', DividedProgress N c (n + 1) q' (bitReaction h (n % 2 == 1)) := by
  have hd := dividedBy_bitReaction hp.divided (n % 2 == 1)
  have hticks := hp.bitTicks_iff
  obtain ⟨hdh, hclock, hdiv, hdue⟩ := hp
  by_cases ht : bitTicks h (n % 2 == 1) = true
  · obtain ⟨hC, hDIV⟩ := counters_of_bitTicks ht
    have hN := hdh.two_le
    have hnow := hticks.mp ht
    refine ⟨q + 1, hd, by omega, by omega, ?_⟩
    rw [hnow, bitsUntilTick_succ, bitsUntilTick_succ, Nat.mul_succ]
    omega
  · obtain ⟨hC, hDIV⟩ := hdh.counters_of_not_bitTicks (Bool.eq_false_iff.mpr ht)
    have hle := hdh.le_255
    have hnotNow := mt hticks.mpr ht
    have hgap := bitsUntilTick_succ_le N q
    exact ⟨q, hd, hC ▸ hclock, by omega, by omega⟩

theorem DividedProgress.after_bits (m : Nat) (hp : DividedProgress N c n q h) :
    ∃ q', DividedProgress N c (n + m) q' (afterAlternatingBits (n % 2 == 1) m h) := by
  induction m generalizing n q h with
  | zero => exact ⟨q, hp⟩
  | succ m ih =>
    obtain ⟨q', hp'⟩ := hp.step
    have hflip : (!(n % 2 == 1)) = ((n + 1) % 2 == 1) := by
      obtain hn | hn := Nat.mod_two_eq_zero_or_one n <;> simp [Nat.add_mod, hn]
    rw [afterAlternatingBits, hflip, Nat.add_comm m, ← Nat.add_assoc]
    exact ih hp'

theorem clockCounter_afterAlternatingBits (hd : DividedBy N h) (hDIV : h.slaveClockDivider = 0#8) (n : Nat) :
    (afterAlternatingBits false n h).clockCounter.toNat = (h.clockCounter.toNat + dividedTicks N n) % 32 := by
  have hN := hd.two_le
  have hstart : DividedProgress N h.clockCounter.toNat 0 0 h :=
    ⟨hd, (Nat.mod_eq_of_lt h.clockCounter.isLt).symm, by rw [hDIV]; rfl, by rw [bitsUntilTick_succ]; omega⟩
  obtain ⟨q, -, hclock, hdiv, hdue⟩ := hstart.after_bits n
  rw [Nat.zero_add] at hdiv hdue
  rw [← eq_dividedTicks (Nat.zero_lt_of_lt hN) (by omega) hdue]
  exact hclock

/-- Settles O49: from a high clock the master's bits alternate, the first of them low, and the subordinate's ticks
among them are counted. -/
theorem dividedSubordinateTicksOncePerN : Obligations.DividedSubordinateTicksOncePerN := by
  intro s g h x n hi hg hc hh hm ha h2 hDIV
  obtain ⟨t, hexec, hht⟩ := execAll_ticks_subordinate n hi hg hh hm
  have hsent : g.sentBit = false := by simp [Engine.sentBit, hc]
  rw [hsent] at hht
  exact ⟨t, _, hexec, hht, clockCounter_afterAlternatingBits ⟨ha, rfl, h2⟩ hDIV n⟩

end Sys2Proof.Machine
end

section
/-! Completion: what no command and no step does in a system that meets the invariant is stop (R201, R247). -/

namespace Sys2Proof.Machine

variable {s t : State} {r : Result}

/-- The one stop among a command's outcomes is for want of an engine. -/
theorem CommandOutcome.exists_next (h : CommandOutcome s r) (ht : s.target < s.engines.length) : ∃ t, r = .next t := by
  cases h with
  | stopped noEngine => exact absurd ht (Nat.not_lt.mpr noEngine)
  | raised => exact ⟨_, rfl⟩
  | responded => exact ⟨_, rfl⟩

theorem exists_step_eq_next (hi : Inv s) (hs : TargetsOk s) : ∃ t, step s = .next t := by
  cases h : s.inbox with
  | nil => exact ⟨s, step_of_inbox_nil h⟩
  | cons c rest =>
    obtain ⟨htarget, -⟩ := targetsOk_take h hs
    exact (step_outcome hi h).exists_next htarget

/-- Settles O14: a command that meets an engine has an outcome that is no stop, and a step is idle or such a
command. -/
theorem everyCommandCompletes : Obligations.EveryCommandCompletes :=
  ⟨fun _ i hi ht => (exec_outcome hi i).exists_next ht, fun _ => exists_step_eq_next⟩

/-- Settles O9, by what `step` is on an empty inbox. -/
theorem stepWithoutCommandChangesNothing : Obligations.StepWithoutCommandChangesNothing :=
  fun _ => step_of_inbox_nil

end Sys2Proof.Machine
end

section
/-! The response and the record of an error, whatever the state (R201, R202, R204). -/

namespace Sys2Proof.Machine

variable {s t : State} {c : Command} {rest : List Command}

/-- Raising an error written out, its response word given as a number. -/
theorem raiseError_of_errorWord {k : CommandError} {w : Word} (h : errorWord k.code = w) :
    s.raiseError k =
      { s with responses := s.responses ++ [w], errors := s.errors ++ [⟨s.target, k⟩] } := by
  rw [State.raiseError, h]

/-- Settles O16: of the two ways to complete only the error adds to the record. -/
theorem raisedErrorsLeaveTheEnginesAsBefore : Obligations.RaisedErrorsLeaveTheEnginesAsBefore := by
  intro s t i h hne
  cases engineAnswer_of_exec_eq_next h with
  | raised k => exact ⟨k, raiseError_of_errorWord (errorWord_code k)⟩
  | responded => exact absurd rfl hne

theorem errors_prefix_of_engineAnswer (h : EngineAnswer s (.next t)) : s.errors <+: t.errors := by
  cases h with
  | raised k => exact List.prefix_append s.errors _
  | responded => exact List.prefix_rfl

/-- A step that takes a command and completes has answered as a command on an engine does. -/
theorem engineAnswer_of_step_eq_next (h : s.inbox = c :: rest) (hst : step s = .next t) :
    EngineAnswer { s with inbox := rest, target := c.target } (.next t) := by
  cases hd : decode c.words with
  | instr i => exact engineAnswer_of_exec_eq_next ((step_of_decode_instr h hd).symm.trans hst)
  | illegal w => exact raise_eq_next ((step_of_decode_illegal h hd).symm.trans hst) ▸ .raised (.illegalCommand w)

/-- Settles O18: an idle step keeps the record, and a command keeps it or adds to its end. -/
theorem errorRecordIsNeverCleared : Obligations.ErrorRecordIsNeverCleared := by
  intro s t hst
  cases h : s.inbox with
  | nil =>
    rw [step_of_inbox_nil h] at hst
    cases hst
    exact List.prefix_rfl
  | cons c rest =>
    have hprefix := errors_prefix_of_engineAnswer (engineAnswer_of_step_eq_next h hst)
    exact hprefix

end Sys2Proof.Machine
end

section
/-! The legal operands from the side of the refusal: which values of a field name nothing (R73, R152). -/

namespace Sys2Proof.Machine

theorem lineOperand_eq_none_iff {l : BitVec 6} : lineOperand l = none ↔ 40 ≤ l.toNat := by
  simp [lineOperand]

theorem levelOperand_eq_none_iff {v : BitVec 8} : levelOperand v = none ↔ 50 ≤ v.toNat := by
  simp [levelOperand]

theorem runOperand_eq_none_iff {v : BitVec 8} : runOperand v = none ↔ 3 ≤ v.toNat := by
  revert v; decide

theorem seqOperand_eq_none_iff {v : BitVec 8} : seqOperand v = none ↔ 2 ≤ v.toNat := by
  revert v; decide

/-- Position p is the first of the codes that is no switch's, and c is its code (R152). -/
def FirstIllegal (codes : List (BitVec 6)) (p : Nat) (c : BitVec 6) : Prop :=
  codes[p]? = some c ∧ 40 ≤ c.toNat ∧ ∀ j < p, ∀ d, codes[j]? = some d → d.toNat ≤ 39

theorem exists_firstIllegal {codes : List (BitVec 6)} (h : ∃ c ∈ codes, 40 ≤ c.toNat) :
    ∃ p c, FirstIllegal codes p c := by
  induction codes with
  | nil => simp at h
  | cons b bs ih =>
    by_cases hb : 40 ≤ b.toNat
    · exact ⟨0, b, rfl, hb, by simp⟩
    · obtain ⟨p, c, hp, hc, hbefore⟩ := ih (by simpa [hb] using h)
      refine ⟨p + 1, c, hp, hc, fun j hj d hd => ?_⟩
      cases j with
      | zero => cases hd; omega
      | succ j => exact hbefore j (Nat.lt_of_succ_lt_succ hj) d hd

theorem presetOperands_of_legal (i0 i1 i2 i3 t0 t1 t2 t3 : BitVec 6)
    (h : ∀ c ∈ [i0, i1, i2, i3, t0, t1, t2, t3], c.toNat < 40) :
    ∃ p, presetOperands i0 i1 i2 i3 t0 t1 t2 t3 = .ok p := by
  simp only [List.forall_mem_cons] at h
  obtain ⟨h0, h1, h2, h3, h4, h5, h6, h7, -⟩ := h
  simp only [presetOperands, codeOperand_of_le, h0, h1, h2, h3, h4, h5, h6, h7]
  exact ⟨_, rfl⟩

end Sys2Proof.Machine
end

section
/-! The causes of the five kinds of error (R200, R202), and that a command raises an error exactly for its cause. -/

namespace Sys2Proof.Machine

variable {s t : State} {g : Engine} {i : Instr} {k : CommandError}

/-- The command and the error it raises when addressed to g, the engine that s's target names: the rows of R200,
each with the info of R202. -/
inductive ErrorCause (s : State) (g : Engine) : Instr → CommandError → Prop
  | readLine {l : BitVec 6} (hl : 40 ≤ l.toNat) : ErrorCause s g (.readLine l) (.outOfRangeLine l)
  | applyPreset {rest : Bool} {i0 i1 i2 i3 t0 t1 t2 t3 : BitVec 6} {p : Nat} {c : BitVec 6}
      (hfirst : FirstIllegal [i0, i1, i2, i3, t0, t1, t2, t3] p c) :
      ErrorCause s g (.applyPreset rest i0 i1 i2 i3 t0 t1 t2 t3) (.invalidSwitchName p c)
  | setRun {v : BitVec 8} (hv : 3 ≤ v.toNat) : ErrorCause s g (.setRun v) (.invalidControlValue v)
  | setSeq {v : BitVec 8} (hv : 2 ≤ v.toNat) : ErrorCause s g (.setSeq v) (.invalidControlValue v)
  | setTempo {v : BitVec 8} (hv : 50 ≤ v.toNat) : ErrorCause s g (.setTempo v) (.invalidControlValue v)
  | setVolume {v : BitVec 8} (hv : 50 ≤ v.toNat) : ErrorCause s g (.setVolume v) (.invalidControlValue v)
  | setPitchCtl {v : BitVec 8} (hv : 50 ≤ v.toNat) : ErrorCause s g (.setPitchCtl v) (.invalidControlValue v)
  | setInterval {idx : BitVec 2} {l : BitVec 6} (hl : 40 ≤ l.toNat) :
      ErrorCause s g (.setInterval idx l) (.invalidControlValue (l.zeroExtend 8))
  | setTheme {idx : BitVec 2} {l : BitVec 6} (hl : 40 ≤ l.toNat) :
      ErrorCause s g (.setTheme idx l) (.invalidControlValue (l.zeroExtend 8))
  | stepRelease {v : BitVec 8} (hm : g.autoMode ≠ .step) (hv : v = g.autoMode.code) :
      ErrorCause s g .stepRelease (.invalidControlValue v)
  | reserved {i : Instr} {w : Word} (hi : i.wellFormed = false) (he : encode i = [w]) :
      ErrorCause s g i (.illegalCommand w)
  | plug {v : BitVec 8} (hr : PlugRefused s.engines s.target g v.toNat) :
      ErrorCause s g (.plug v) (.syncTopologyError v)

/-! With its cause a command raises the error. -/

theorem setControl_none {α : Type} {info : BitVec 8} {f : α → Engine → Engine} (hg : s.engines[s.target]? = some g) :
    setControl info none f s = .next (s.raiseError (.invalidControlValue info)) :=
  raise_of_getElem? hg _

theorem exec_of_errorCause (hi : Inv s) (hg : s.engines[s.target]? = some g) (h : ErrorCause s g i k) :
    exec i s = .next (s.raiseError k) := by
  cases h with
  | readLine hl => exact exec_readLine_of_ge hg hl
  | applyPreset hfirst =>
    obtain ⟨hp, hc, hbefore⟩ := hfirst
    simp only [exec, execApplyPreset, presetOperands_of_first_illegal hp hc hbefore]
    exact raise_of_getElem? hg _
  | setRun hv => rw [exec_setRun, runOperand_of_ge hv, setControl_none hg]
  | setSeq hv => rw [exec_setSeq, seqOperand_of_ge hv, setControl_none hg]
  | setTempo hv => rw [exec_setTempo, levelOperand_of_gt hv, setControl_none hg]
  | setVolume hv => rw [exec_setVolume, levelOperand_of_gt hv, setControl_none hg]
  | setPitchCtl hv => rw [exec_setPitchCtl, levelOperand_of_gt hv, setControl_none hg]
  | setInterval hl => rw [exec_setInterval, lineOperand_of_gt hl, setControl_none hg]
  | setTheme hl => rw [exec_setTheme, lineOperand_of_gt hl, setControl_none hg]
  | stepRelease hm hv => rw [hv, exec_stepRelease_of_ne_step hg hm]
  | @reserved _ w hwf he =>
    obtain ⟨w', he', hexec⟩ := exists_exec_eq_execIllegal hwf s
    obtain rfl : w = w' := List.singleton_inj.mp (he.symm.trans he')
    exact hexec.trans (raise_of_getElem? hg _)
  | plug hr => exact exec_plug_of_refused hi hg hr

/-! Without one the record stays as it is. -/

theorem errors_of_update {f : Engine → Engine} (h : update f s = .next t) : t.errors = s.errors := by
  obtain ⟨_, -, rfl⟩ := update_eq_next h
  rfl

theorem errors_of_observe {f : Engine → BitVec 8} (h : observe f s = .next t) : t.errors = s.errors := by
  obtain ⟨_, -, rfl⟩ := observe_eq_next h
  rfl

theorem errors_of_finish {v : BitVec 8} {c : Cascade} (h : finish s v c = .next t) : t.errors = s.errors := by
  obtain ⟨_, -, rfl⟩ := finish_eq_next h
  rfl

theorem errors_of_setControl {α : Type} {info : BitVec 8} {o : Option α} {f : α → Engine → Engine}
    (h : setControl info o f s = .next t) (ho : o ≠ none) : t.errors = s.errors := by
  cases o with
  | none => exact absurd rfl ho
  | some a => exact errors_of_update h

theorem errors_of_unplug (hi : Inv s) (hg : s.engines[s.target]? = some g) (h : exec .unplug s = .next t) :
    t.errors = s.errors := by
  cases hm : g.master with
  | none =>
    rw [exec_unplug_of_no_master hg hm] at h
    cases h
    rfl
  | some m =>
    obtain ⟨p, hp, hne, -, hnodup⟩ := hi.topology.exists_master hg hm
    rw [exec_unplug_of_master hg hm hp hne hnodup] at h
    cases h
    rfl

theorem errors_of_stepRelease (hg : s.engines[s.target]? = some g) (hm : g.autoMode = .step)
    (h : exec .stepRelease s = .next t) : t.errors = s.errors := by
  replace h := (if_neg (not_not.mpr hm)).symm.trans ((onTarget_of_getElem? hg _).symm.trans h)
  split at h
  · cases h
    rfl
  · exact errors_of_finish h

theorem errors_of_timer (hg : s.engines[s.target]? = some g) (h : exec .timer s = .next t) : t.errors = s.errors := by
  replace h := (onTarget_of_getElem? hg _).symm.trans h
  split at h
  · exact errors_of_finish h
  · cases h
    rfl

/-- A command that completes without a cause to raise an error has recorded none. -/
theorem errors_of_no_errorCause (hi : Inv s) (hg : s.engines[s.target]? = some g) (h : exec i s = .next t)
    (hno : ∀ k, ¬ ErrorCause s g i k) : t.errors = s.errors := by
  cases i with
  | tick | stepPress | slaveStep => exact errors_of_finish ((onTarget_of_getElem? hg _).symm.trans h)
  | timer => exact errors_of_timer hg h
  | stepRelease => exact errors_of_stepRelease hg (not_not.mp fun hm => hno _ (.stepRelease hm rfl)) h
  | reset | setRest | setSlaveMode => exact errors_of_update h
  | decodeAddr | decodePitch | getCtl => exact errors_of_observe h
  | readLine l =>
    rw [exec_readLine_of_lt hg (Nat.lt_of_not_le fun hl => hno _ (.readLine hl))] at h
    cases h
    rfl
  | setRun v =>
    exact errors_of_setControl (exec_setRun v s ▸ h) fun ho => hno _ (.setRun (runOperand_eq_none_iff.mp ho))
  | setSeq v =>
    exact errors_of_setControl (exec_setSeq v s ▸ h) fun ho => hno _ (.setSeq (seqOperand_eq_none_iff.mp ho))
  | setTempo v =>
    exact errors_of_setControl (exec_setTempo v s ▸ h) fun ho => hno _ (.setTempo (levelOperand_eq_none_iff.mp ho))
  | setVolume v =>
    exact errors_of_setControl (exec_setVolume v s ▸ h) fun ho => hno _ (.setVolume (levelOperand_eq_none_iff.mp ho))
  | setPitchCtl v =>
    exact errors_of_setControl (exec_setPitchCtl v s ▸ h) fun ho =>
      hno _ (.setPitchCtl (levelOperand_eq_none_iff.mp ho))
  | setInterval idx l =>
    exact errors_of_setControl (exec_setInterval idx l s ▸ h) fun ho =>
      hno _ (.setInterval (lineOperand_eq_none_iff.mp ho))
  | setTheme idx l =>
    exact errors_of_setControl (exec_setTheme idx l s ▸ h) fun ho => hno _ (.setTheme (lineOperand_eq_none_iff.mp ho))
  | applyPreset rest i0 i1 i2 i3 t0 t1 t2 t3 =>
    have hlegal : ∀ c ∈ [i0, i1, i2, i3, t0, t1, t2, t3], c.toNat < 40 := fun c hc => Nat.lt_of_not_le fun h40 => by
      obtain ⟨q, d, hfirst⟩ := exists_firstIllegal ⟨c, hc, h40⟩
      exact hno _ (.applyPreset hfirst)
    obtain ⟨p, hp⟩ := presetOperands_of_legal i0 i1 i2 i3 t0 t1 t2 t3 hlegal
    simp only [exec, execApplyPreset, hp] at h
    exact errors_of_update h
  | plug v =>
    rw [exec_plug_of_not_refused hi hg fun hr => hno _ (.plug hr)] at h
    cases h
    rfl
  | unplug => exact errors_of_unplug hi hg h
  | reservedOp00 | reservedOp17 | reservedOp18 | reservedOp19 | reservedOp1A | reservedOp1B | reservedOp1C
  | reservedOp1D | reservedOp1E | reservedOp1F => exact absurd (.reserved rfl rfl) (hno _)

/-- A command raises the error of its cause and no other. -/
theorem exec_raises_iff_errorCause (hi : Inv s) (hg : s.engines[s.target]? = some g) :
    (∃ t, exec i s = .next t ∧ t.errors = s.errors ++ [⟨s.target, k⟩]) ↔ ErrorCause s g i k := by
  refine ⟨fun ⟨t, h, herr⟩ => ?_, fun hk => ⟨_, exec_of_errorCause hi hg hk, rfl⟩⟩
  by_cases hcause : ∃ k', ErrorCause s g i k'
  · obtain ⟨k', hk'⟩ := hcause
    rw [exec_of_errorCause hi hg hk'] at h
    cases h
    obtain rfl : k' = k := by simpa [State.raiseError] using herr
    exact hk'
  · have hsame := errors_of_no_errorCause hi hg h (not_exists.mp hcause)
    simp [hsame] at herr

/-! The causes of each kind as its row of R200 names them. -/

theorem errorCause_outOfRangeLine_iff {l : BitVec 6} :
    ErrorCause s g i (.outOfRangeLine l) ↔ i = .readLine l ∧ 40 ≤ l.toNat := by
  constructor
  · rintro ⟨⟩
    exact ⟨rfl, ‹_›⟩
  · rintro ⟨rfl, hl⟩
    exact .readLine hl

theorem errorCause_invalidSwitchName_iff {p : Nat} {c : BitVec 6} :
    ErrorCause s g i (.invalidSwitchName p c) ↔
      ∃ rest i0 i1 i2 i3 t0 t1 t2 t3, i = .applyPreset rest i0 i1 i2 i3 t0 t1 t2 t3 ∧
        FirstIllegal [i0, i1, i2, i3, t0, t1, t2, t3] p c := by
  constructor
  · rintro ⟨⟩
    exact ⟨_, _, _, _, _, _, _, _, _, rfl, ‹_›⟩
  · rintro ⟨rest, i0, i1, i2, i3, t0, t1, t2, t3, rfl, hfirst⟩
    exact .applyPreset hfirst

theorem autoMode_refused_iff {v : BitVec 8} :
    g.autoMode ≠ .step ∧ v = g.autoMode.code ↔ g.autoMode = .auto ∧ v = 0#8 ∨ g.autoMode = .hold ∧ v = 1#8 := by
  cases g.autoMode <;> simp [AutoMode.code]

theorem errorCause_invalidControlValue_iff {v : BitVec 8} :
    ErrorCause s g i (.invalidControlValue v) ↔
      (i = .setRun v ∧ 3 ≤ v.toNat) ∨ (i = .setSeq v ∧ 2 ≤ v.toNat) ∨ (i = .setTempo v ∧ 50 ≤ v.toNat) ∨
        (i = .setVolume v ∧ 50 ≤ v.toNat) ∨ (i = .setPitchCtl v ∧ 50 ≤ v.toNat) ∨
        (∃ idx l, (i = .setInterval idx l ∨ i = .setTheme idx l) ∧ 40 ≤ l.toNat ∧ v = l.zeroExtend 8) ∨
        (i = .stepRelease ∧ (g.autoMode = .auto ∧ v = 0#8 ∨ g.autoMode = .hold ∧ v = 1#8)) := by
  rw [← autoMode_refused_iff]
  constructor
  · intro h
    cases h with
    | setRun hv | setSeq hv | setTempo hv | setVolume hv | setPitchCtl hv => simp [hv]
    | setInterval hl | setTheme hl => simp [hl]
    | stepRelease hm hv => simp [hm, hv]
  · rintro (⟨rfl, hv⟩ | ⟨rfl, hv⟩ | ⟨rfl, hv⟩ | ⟨rfl, hv⟩ | ⟨rfl, hv⟩ | ⟨idx, l, rfl | rfl, hl, rfl⟩ | ⟨rfl, hm, hv⟩)
    · exact .setRun hv
    · exact .setSeq hv
    · exact .setTempo hv
    · exact .setVolume hv
    · exact .setPitchCtl hv
    · exact .setInterval hl
    · exact .setTheme hl
    · exact .stepRelease hm hv

theorem errorCause_illegalCommand_iff {w : Word} :
    ErrorCause s g i (.illegalCommand w) ↔ i.wellFormed = false ∧ encode i = [w] := by
  constructor
  · rintro ⟨⟩
    exact ⟨‹_›, ‹_›⟩
  · rintro ⟨hwf, he⟩
    exact .reserved hwf he

theorem errorCause_syncTopologyError_iff {m : BitVec 8} :
    ErrorCause s g i (.syncTopologyError m) ↔ i = .plug m ∧ PlugRefused s.engines s.target g m.toNat := by
  constructor
  · rintro ⟨⟩
    exact ⟨rfl, ‹_›⟩
  · rintro ⟨rfl, hr⟩
    exact .plug hr

/-- Settles O17: a command raises an error exactly for its cause, and the causes of a kind are those of its row. -/
theorem eachErrorKindHasItsCause : Obligations.EachErrorKindHasItsCause := by
  intro s g i k hi hg
  rw [exec_raises_iff_errorCause hi hg]
  cases k with
  | outOfRangeLine l => exact errorCause_outOfRangeLine_iff
  | invalidSwitchName p c => exact errorCause_invalidSwitchName_iff
  | invalidControlValue v => exact errorCause_invalidControlValue_iff
  | illegalCommand w => exact errorCause_illegalCommand_iff
  | syncTopologyError m => exact errorCause_syncTopologyError_iff

end Sys2Proof.Machine
end

/-! The order of registration: no command's answer shows it (R59, R180, R246). -/

section
/-! The operations on a list of engines and on the links against the order of registration. -/

namespace Sys2Proof.Machine

variable {es es' : List Engine} {g g' : Engine} {f : Engine → Engine} {e : EngineId}

/-- The update neither reads nor writes the list of subordinates. -/
def IgnoresSubs (f : Engine → Engine) : Prop := ∀ g l, f { g with subs := l } = { f g with subs := l }

theorem IgnoresSubs.subs_eq (hf : IgnoresSubs f) (g : Engine) : (f g).subs = g.subs := by
  have hself : f g = { f g with subs := g.subs } := hf g g.subs
  rw [hself]

theorem IgnoresSubs.reordered (hf : IgnoresSubs f) (h : reordered g g') : reordered (f g) (f g') := by
  obtain ⟨l, hl, rfl⟩ := h
  exact ⟨l, hf.subs_eq g ▸ hl, hf g l⟩

theorem ignoresSubs_setRun (m : RunMode) : IgnoresSubs fun g => g.setRun m := by
  intro g l
  dsimp only [Engine.setRun]
  split <;> rfl

theorem reordered_modify (h : List.Forall₂ reordered es es') (hf : ∀ g g', reordered g g' → reordered (f g) (f g'))
    (e : EngineId) : List.Forall₂ reordered (es.modify e f) (es'.modify e f) := by
  refine reordered_map h (fun x => List.getElem?_modify ..) (fun x => List.getElem?_modify ..) fun x g g' _ _ hg => ?_
  split
  · exact hf g g' hg
  · exact hg

/-! Cascades: both complete, or neither does. -/

/-- The ticks of an engine whose registers, but not its links or its C, were replaced in both lists. -/
theorem tick_set_reordered (ht : TopologyOk es) (h : List.Forall₂ reordered es es')
    (hf : IgnoresSubs f) (hm : ∀ g, (f g).master = g.master) (hc : ∀ g, (f g).clockCounter = g.clockCounter)
    (hg : es[e]? = some g) (hg' : es'[e]? = some g') :
    Option.Rel (List.Forall₂ reordered) (tick e (es.set e (f g))) (tick e (es'.set e (f g'))) := by
  obtain ⟨fs, htick, hfs⟩ := tick_set_spec ht hg (hm g) (hf.subs_eq g) (hc g)
  obtain ⟨fs', htick', hfs'⟩ := tick_set_spec (topologyOk_reordered h ht) hg' (hm g') (hf.subs_eq g') (hc g')
  rw [htick, htick']
  refine .some (reordered_map h hfs hfs' fun x k k' hk hk' hkk' => ?_)
  split
  case isTrue hx =>
    subst hx
    obtain rfl : g = k := Option.some.inj (hg.symm.trans hk)
    obtain rfl : g' = k' := Option.some.inj (hg'.symm.trans hk')
    exact tickedEngine_reordered (hf.reordered hkk')
  case isFalse => exact afterTick_reordered h e x hkk'

theorem tick_reordered (ht : TopologyOk es) (h : List.Forall₂ reordered es es') (hg : es[e]? = some g)
    (hg' : es'[e]? = some g') : Option.Rel (List.Forall₂ reordered) (tick e es) (tick e es') := by
  obtain ⟨fs, htick, hfs⟩ := tick_spec ht hg
  obtain ⟨fs', htick', hfs'⟩ := tick_spec (topologyOk_reordered h ht) hg'
  rw [htick, htick']
  exact .some (reordered_map h hfs hfs' fun x _ _ _ _ hk => afterTick_reordered h e x hk)

theorem slaveStep_reordered (ht : TopologyOk es) (h : List.Forall₂ reordered es es') (hg : es[e]? = some g)
    (hg' : es'[e]? = some g') (hgg' : reordered g g') (b : Bool) :
    Option.Rel (List.Forall₂ reordered) (slaveStep b e es) (slaveStep b e es') := by
  obtain ⟨fs, hstep, hfs⟩ := slaveStep_spec ht hg b
  obtain ⟨fs', hstep', hfs'⟩ := slaveStep_spec (topologyOk_reordered h ht) hg' b
  rw [hstep, hstep']
  refine .some (reordered_map h hfs hfs' fun x k k' _ _ hk => ?_)
  have hticks : bitTicks g' b = bitTicks g b := by obtain ⟨l, -, rfl⟩ := hgg'; rfl
  unfold afterBit
  rw [hticks]
  split
  · exact bitReaction_reordered hgg' b
  · split
    · exact afterTick_reordered h e x hk
    · exact hk

/-! The links that PLUG and UNPLUG read and write (R186, R188). -/

theorem walkMeets_reordered (h : List.Forall₂ reordered es es') (e : EngineId) (n : Nat) (x : EngineId) :
    walkMeets es' e n x = walkMeets es e n x := by
  induction n generalizing x with
  | zero => rfl
  | succ n ih =>
    unfold walkMeets
    cases hg : es[x]? with
    | none => rw [getElem?_reordered_none h hg]
    | some g =>
      obtain ⟨_, hg', _, -, rfl⟩ := getElem?_reordered h hg
      simp only [hg', ih]

theorem attach_reordered (h : List.Forall₂ reordered es es') (e m : EngineId) :
    List.Forall₂ reordered (attach es e m) (attach es' e m) := by
  refine reordered_modify (reordered_modify h (fun _ _ => IgnoresSubs.reordered fun _ _ => rfl) e) ?_ m
  rintro g _ ⟨l, hl, rfl⟩
  exact ⟨l ++ [e], hl.append_right [e], rfl⟩

theorem detach_reordered (h : List.Forall₂ reordered es es') (e m : EngineId) :
    List.Forall₂ reordered (detach es e m) (detach es' e m) := by
  refine reordered_modify (reordered_modify h ?_ m) (fun _ _ => IgnoresSubs.reordered fun _ _ => rfl) e
  rintro g _ ⟨l, hl, rfl⟩
  exact ⟨l.filter (· != e), hl.filter _, rfl⟩

end Sys2Proof.Machine
end

section
/-! Commands: the answers from a state and from the same state with other orders of registration. -/

namespace Sys2Proof.Machine

/-- The same answer but for the order of registration in the next state. -/
inductive SameAnswer : Result → Result → Prop
  | next {t t' : State} (h : sameButForOrder t t') : SameAnswer (.next t) (.next t')
  | fault (r : Fault) : SameAnswer (.fault r) (.fault r)

variable {s s' t : State} {es es' fs fs' : List Engine} {f : Engine → Engine}

theorem SameAnswer.exists_next {r r' : Result} (h : SameAnswer r r') (hr : r = .next t) :
    ∃ t', r' = .next t' ∧ sameButForOrder t t' := by
  cases h with
  | next h => cases hr; exact ⟨_, rfl, h⟩
  | fault => cases hr

theorem sameButForOrder_iff :
    sameButForOrder s s' ↔ ∃ es', List.Forall₂ reordered s.engines es' ∧ s' = s.putEngines es' := by
  constructor
  · rintro ⟨hes, htarget, hinbox, hresponses, herrors⟩
    refine ⟨s'.engines, hes, ?_⟩
    rw [State.putEngines, ← htarget, ← hinbox, ← hresponses, ← herrors]
  · rintro ⟨es', hes, rfl⟩
    exact ⟨hes, rfl, rfl, rfl, rfl⟩

/-! The two ways to complete, and what commands are composed of. -/

theorem SameAnswer.responded (h : List.Forall₂ reordered fs fs') (v : BitVec 8) :
    SameAnswer (.next ((s.putEngines fs).respond v)) (.next (((s.putEngines es').putEngines fs').respond v)) :=
  .next ⟨h, rfl, rfl, rfl, rfl⟩

/-- A response after a write to the engine addressed. -/
theorem SameAnswer.written (h : List.Forall₂ reordered s.engines es') (hf : IgnoresSubs f) {g : Engine}
    {l : List EngineId} (hl : l.Perm g.subs) :
    SameAnswer (.next ((s.putEngine (f g)).respond 0#8))
      (.next (((s.putEngines es').putEngine (f { g with subs := l })).respond 0#8)) :=
  .responded (reordered_set h (hf.reordered ⟨l, hl, rfl⟩) s.target) 0#8

theorem SameAnswer.raised (h : List.Forall₂ reordered s.engines es') (k : CommandError) :
    SameAnswer (.next (s.raiseError k)) (.next ((s.putEngines es').raiseError k)) :=
  .next ⟨h, rfl, rfl, rfl, rfl⟩

theorem SameAnswer.ite {p : Prop} [Decidable p] {a a' b b' : Result} (ha : SameAnswer a a') (hb : SameAnswer b b') :
    SameAnswer (if p then a else b) (if p then a' else b') := by
  split <;> assumption

theorem finish_sameAnswer {c c' : Cascade} (h : Option.Rel (List.Forall₂ reordered) c c') (v : BitVec 8) :
    SameAnswer (finish s v c) (finish (s.putEngines es') v c') := by
  cases h with
  | none => exact .fault _
  | some h => exact .responded h v

/-! The shared operations of Machine/Ops.lean. -/

/-- Both commands read the engine addressed, which has its subordinates in another order, or both find none. -/
theorem onTarget_sameAnswer (h : List.Forall₂ reordered s.engines es') {k k' : Engine → Result}
    (hk : ∀ g l, s.engines[s.target]? = some g → es'[s.target]? = some { g with subs := l } → l.Perm g.subs →
      SameAnswer (k g) (k' { g with subs := l })) :
    SameAnswer (onTarget s k) (onTarget (s.putEngines es') k') := by
  cases hg : s.engines[s.target]? with
  | none => simpa [onTarget, hg, getElem?_reordered_none h hg] using .fault _
  | some g =>
    obtain ⟨_, hg', l, hl, rfl⟩ := getElem?_reordered h hg
    simpa [onTarget, hg, hg'] using hk g l hg hg' hl

theorem raise_sameAnswer (h : List.Forall₂ reordered s.engines es') (k : CommandError) :
    SameAnswer (raise k s) (raise k (s.putEngines es')) :=
  onTarget_sameAnswer h fun _ _ _ _ _ => .raised h k

theorem observe_sameAnswer (h : List.Forall₂ reordered s.engines es') {f : Engine → BitVec 8}
    (hf : ∀ g l, f { g with subs := l } = f g) : SameAnswer (observe f s) (observe f (s.putEngines es')) :=
  onTarget_sameAnswer h fun g l _ _ _ => by
    rw [hf g l]
    exact .responded h (f g)

theorem update_sameAnswer (h : List.Forall₂ reordered s.engines es')
    (hf : IgnoresSubs f) : SameAnswer (update f s) (update f (s.putEngines es')) :=
  onTarget_sameAnswer h fun _ _ _ _ hl => .written h hf hl

/-! The commands that are more than one shared operation. -/

theorem execTick_sameAnswer (hi : Inv s) (h : List.Forall₂ reordered s.engines es') :
    SameAnswer (execTick s) (execTick (s.putEngines es')) :=
  onTarget_sameAnswer h fun _ _ hg hg' _ => finish_sameAnswer (tick_reordered hi.topology h hg hg') _

theorem timerWith_sameAnswer (hi : Inv s) (h : List.Forall₂ reordered s.engines es') (startTicks : Bool) :
    SameAnswer (timerWith startTicks s) (timerWith startTicks (s.putEngines es')) :=
  onTarget_sameAnswer h fun _ _ hg hg' _ =>
    .ite (finish_sameAnswer (tick_reordered hi.topology h hg hg') 0#8) (.responded h 0#8)

/-- A tick after a write to autoMode (R125, R126). -/
theorem finish_tick_autoMode_sameAnswer (hi : Inv s) (h : List.Forall₂ reordered s.engines es') {g g' : Engine}
    (hg : s.engines[s.target]? = some g) (hg' : es'[s.target]? = some g') (m : AutoMode) :
    SameAnswer (finish s 0#8 (tick s.target (s.engines.set s.target { g with autoMode := m })))
      (finish (s.putEngines es') 0#8 (tick s.target (es'.set s.target { g' with autoMode := m }))) :=
  finish_sameAnswer (tick_set_reordered (f := fun g => { g with autoMode := m }) hi.topology h (fun _ _ => rfl)
    (fun _ => rfl) (fun _ => rfl) hg hg') 0#8

theorem execStepPress_sameAnswer (hi : Inv s) (h : List.Forall₂ reordered s.engines es') :
    SameAnswer (execStepPress s) (execStepPress (s.putEngines es')) :=
  onTarget_sameAnswer h fun _ _ hg hg' _ => finish_tick_autoMode_sameAnswer hi h hg hg' .step

theorem execStepRelease_sameAnswer (hi : Inv s) (h : List.Forall₂ reordered s.engines es') :
    SameAnswer (execStepRelease s) (execStepRelease (s.putEngines es')) :=
  onTarget_sameAnswer h fun _ _ hg hg' hl =>
    .ite (.raised h _)
      (.ite (.written (f := fun g => { g with autoMode := .hold }) h (fun _ _ => rfl) hl)
        (finish_tick_autoMode_sameAnswer hi h hg hg' .hold))

theorem execSlaveStep_sameAnswer (hi : Inv s) (h : List.Forall₂ reordered s.engines es') (b : Bool) :
    SameAnswer (execSlaveStep b s) (execSlaveStep b (s.putEngines es')) :=
  onTarget_sameAnswer h fun _ l hg hg' hl =>
    finish_sameAnswer (slaveStep_reordered hi.topology h hg hg' ⟨l, hl, rfl⟩ b) 0#8

/-- The refusals of PLUG and its walk read no list of subordinates (R186). -/
theorem execPlug_sameAnswer (h : List.Forall₂ reordered s.engines es') (v : BitVec 8) :
    SameAnswer (execPlug v s) (execPlug v (s.putEngines es')) :=
  have hrefused := SameAnswer.raised h (.syncTopologyError v)
  onTarget_sameAnswer h fun _ _ _ _ _ => by
    simp only [State.putEngines_engines, State.putEngines_target, ← h.length_eq, walkMeets_reordered h]
    refine .ite hrefused <| .ite hrefused <| .ite hrefused ?_
    split
    · exact .fault _
    · exact hrefused
    · exact .responded (attach_reordered h s.target v.toNat) 0#8

theorem execUnplug_sameAnswer (h : List.Forall₂ reordered s.engines es') :
    SameAnswer (execUnplug s) (execUnplug (s.putEngines es')) :=
  onTarget_sameAnswer h fun _ _ _ _ hl => by
    simp only [State.putEngines_engines, State.putEngines_target, ← h.length_eq]
    split
    case h_1 => exact .written (f := fun g => { g with slaveMode := 0#8 }) h (fun _ _ => rfl) hl
    case h_2 m _ =>
      have hdetached := detach_reordered h s.target m
      exact .ite
        (.responded (reordered_modify hdetached (fun _ _ => IgnoresSubs.reordered fun _ _ => rfl) s.target) 0#8)
        (.fault _)

/-- No instruction's answer depends on an order of registration. -/
theorem exec_sameAnswer (hi : Inv s) (h : List.Forall₂ reordered s.engines es') (i : Instr) :
    SameAnswer (exec i s) (exec i (s.putEngines es')) := by
  cases i with
  | tick => exact execTick_sameAnswer hi h
  | timer => exact timerWith_sameAnswer hi h Config.startTicks
  | stepPress => exact execStepPress_sameAnswer hi h
  | stepRelease => exact execStepRelease_sameAnswer hi h
  | slaveStep b => exact execSlaveStep_sameAnswer hi h b
  | decodeAddr | decodePitch | getCtl => exact observe_sameAnswer h fun _ _ => rfl
  | reset | setRest | setSlaveMode => exact update_sameAnswer h fun _ _ => rfl
  | readLine =>
    dsimp only [exec, execReadLine]
    split
    · exact raise_sameAnswer h _
    · exact observe_sameAnswer h fun _ _ => rfl
  | setRun =>
    dsimp only [exec, execSetRun]
    split
    · exact raise_sameAnswer h _
    · exact update_sameAnswer h (ignoresSubs_setRun _)
  | setInterval | setTheme | setSeq | setTempo | setVolume | setPitchCtl | applyPreset =>
    dsimp only [exec, execSetInterval, execSetTheme, execSetSeq, execSetTempo, execSetVolume, execSetPitchCtl,
      execApplyPreset]
    split
    · exact raise_sameAnswer h _
    · exact update_sameAnswer h fun _ _ => rfl
  | plug v => exact execPlug_sameAnswer h v
  | unplug => exact execUnplug_sameAnswer h
  | reservedOp00 | reservedOp17 | reservedOp18 | reservedOp19 | reservedOp1A | reservedOp1B | reservedOp1C
  | reservedOp1D | reservedOp1E | reservedOp1F => exact raise_sameAnswer h _

/-- Nor does a step's: both states take the same command, or both are idle. -/
theorem step_sameAnswer (hi : Inv s) (h : List.Forall₂ reordered s.engines es') :
    SameAnswer (step s) (step (s.putEngines es')) := by
  cases hinbox : s.inbox with
  | nil =>
    rw [step_of_inbox_nil hinbox, step_of_inbox_nil (s := s.putEngines es') hinbox]
    exact .next ⟨h, rfl, rfl, rfl, rfl⟩
  | cons c rest =>
    cases hd : decode c.words with
    | instr i =>
      rw [step_of_decode_instr hinbox hd, step_of_decode_instr (s := s.putEngines es') hinbox hd]
      exact exec_sameAnswer (inv_take hi rest c.target) h i
    | illegal w =>
      rw [step_of_decode_illegal hinbox hd, step_of_decode_illegal (s := s.putEngines es') hinbox hd]
      exact raise_sameAnswer (s := { s with inbox := rest, target := c.target }) h _

/-- Settles O50: the second state is the first with other orders of registration, and no answer depends on those. -/
theorem registrationOrderIsInvisible : Obligations.RegistrationOrderIsInvisible := by
  intro s s' t hi h
  obtain ⟨es', hes, rfl⟩ := sameButForOrder_iff.mp h
  exact ⟨fun i => (exec_sameAnswer hi hes i).exists_next, (step_sameAnswer hi hes).exists_next⟩

end Sys2Proof.Machine
end
